-- ==== Sys2Proof/Word.lean ====
section
/-! DEFINITION. The word types of the trace encoding (spec/30_encoding.md section 2). Nothing else in the block is a
bit vector: every count, index and timestamp is a natural number without a bound (spec/00_scope.md R13). -/

namespace Sys2Proof

/-- One trace word `TW48` (R81). -/
abbrev TraceWord := BitVec 48

/-- One register field of a trace word (R85). -/
abbrev RegField := BitVec 8

end Sys2Proof
end

