-- ==== Sys2Proof/Config.lean ====
section
/-! DEFINITION. The parameters of the hardware: those the source fixes (spec/00_scope.md R10) and those it leaves open
(R11). There is no free value in this hardware (spec/46_driver.md R217). -/

namespace Sys2Proof.Config

/-- `IFQ_BOUND`: the number the fullness test of the fetch queue compares against (R10, R123). -/
def ifqBound : Nat := 16

/-- `L_INT`: latency of an integer functional unit (R10, R181). -/
def latencyInt : Nat := 4

/-- `L_FP`: latency of a floating-point functional unit (R10, R181). -/
def latencyFp : Nat := 9

/-- `CYCLE_INIT`: the cycle counter at the start of a run (R10, R24). -/
def cycleInit : Nat := 1

/-- The code of `NOREG` in a register field of a trace word (R85). -/
def noregCode : RegField := 0xFF#8

/-- The open parameters of R11 but the trace length. -/
structure Params where
  /-- `N_RS_INT` -/
  nRsInt : Nat
  /-- `N_RS_FP` -/
  nRsFp : Nat
  /-- `N_FU_INT` -/
  nFuInt : Nat
  /-- `N_FU_FP` -/
  nFuFp : Nat
  /-- `N_REGS` -/
  nRegs : Nat
deriving DecidableEq, Repr

/-- The constraints of R11: every count at least 1, and at most 255 registers with the trace word of R81. -/
def Params.wellFormed (p : Params) : Bool :=
  1 ≤ p.nRsInt && 1 ≤ p.nRsFp && 1 ≤ p.nFuInt && 1 ≤ p.nFuFp && 1 ≤ p.nRegs && p.nRegs ≤ 255

/-- `CFG_REF` (R11): the configuration of the spec's test vectors. DESIGN CHOICE (log entry 4): the one
configuration `State.reset` has; every definition and every statement is over all configurations. -/
def reference : Params := { nRsInt := 4, nRsFp := 2, nFuInt := 2, nFuFp := 1, nRegs := 64 }

end Sys2Proof.Config
end

