-- ==== Sys2Proof/Syntax.lean ====
section
/-! DEFINITION. The instruction records (spec/30_encoding.md section 1): register identifiers, the seven operation
classes, and one constructor of `Instr` per row of spec/opcode_table.json. -/

namespace Sys2Proof

/-- A register identifier or the "does-not-apply" sentinel (R15). `noreg` is no register (R46) and no identifier is
special (R22). -/
inductive RegId where
  /-- `NOREG` -/
  | noreg
  /-- register identifier `r` -/
  | reg (r : Nat)
deriving DecidableEq, Repr

/-- The seven operation classes in the source's order (R82). -/
inductive OpClass where
  | icomp | fcomp | load | store | jump | branch | trap
deriving DecidableEq, Repr

/-- The five register fields every record has, whatever its class (R80, R83, R87). -/
structure Operands where
  dst0 : RegId
  dst1 : RegId
  src0 : RegId
  src1 : RegId
  src2 : RegId
deriving DecidableEq, Repr

/-- The immutable fields of an instruction record (R80), one constructor per operation class (R82), operands in the
order of the assembler syntax (R88). The program-order index is the record's position in the trace (R62, R81). -/
inductive Instr where
  /-- integer compute (R101) -/
  | icomp (dst0 dst1 src0 src1 src2 : RegId)
  /-- floating-point compute (R102) -/
  | fcomp (dst0 dst1 src0 src1 src2 : RegId)
  /-- load (R103) -/
  | load (dst0 dst1 src0 src1 src2 : RegId)
  /-- store (R104) -/
  | store (dst0 dst1 src0 src1 src2 : RegId)
  /-- unconditional branch (R105) -/
  | jump (dst0 dst1 src0 src1 src2 : RegId)
  /-- conditional branch (R106) -/
  | branch (dst0 dst1 src0 src1 src2 : RegId)
  /-- trap (R107) -/
  | trap (dst0 dst1 src0 src1 src2 : RegId)
deriving DecidableEq, Repr

/-- `cls(i)` (R16). -/
def Instr.cls : Instr → OpClass
  | .icomp _ _ _ _ _ => .icomp
  | .fcomp _ _ _ _ _ => .fcomp
  | .load _ _ _ _ _ => .load
  | .store _ _ _ _ _ => .store
  | .jump _ _ _ _ _ => .jump
  | .branch _ _ _ _ _ => .branch
  | .trap _ _ _ _ _ => .trap

/-- `src(i, k)` and `dst(i, k)` (R16). -/
def Instr.operands : Instr → Operands
  | .icomp d0 d1 s0 s1 s2 => ⟨d0, d1, s0, s1, s2⟩
  | .fcomp d0 d1 s0 s1 s2 => ⟨d0, d1, s0, s1, s2⟩
  | .load d0 d1 s0 s1 s2 => ⟨d0, d1, s0, s1, s2⟩
  | .store d0 d1 s0 s1 s2 => ⟨d0, d1, s0, s1, s2⟩
  | .jump d0 d1 s0 s1 s2 => ⟨d0, d1, s0, s1, s2⟩
  | .branch d0 d1 s0 s1 s2 => ⟨d0, d1, s0, s1, s2⟩
  | .trap d0 d1 s0 s1 s2 => ⟨d0, d1, s0, s1, s2⟩

/-- The record with a given class and given register fields. -/
def Instr.ofClass : OpClass → Operands → Instr
  | .icomp, o => .icomp o.dst0 o.dst1 o.src0 o.src1 o.src2
  | .fcomp, o => .fcomp o.dst0 o.dst1 o.src0 o.src1 o.src2
  | .load, o => .load o.dst0 o.dst1 o.src0 o.src1 o.src2
  | .store, o => .store o.dst0 o.dst1 o.src0 o.src1 o.src2
  | .jump, o => .jump o.dst0 o.dst1 o.src0 o.src1 o.src2
  | .branch, o => .branch o.dst0 o.dst1 o.src0 o.src1 o.src2
  | .trap, o => .trap o.dst0 o.dst1 o.src0 o.src1 o.src2

end Sys2Proof
end

