-- ==== Sys2Proof/WellFormed.lean ====
section
/-! DEFINITION. Well-formed instruction records (spec/30_encoding.md R86, spec/70_reset_and_hazards.md R308 (1)): every
register field is `NOREG` or below `N_REGS`. Any class may carry any combination of operands (R83). -/

namespace Sys2Proof

/-- `RegId` of R15: the sentinel, or a number below `N_REGS`. -/
def RegId.wellFormed (nRegs : Nat) : RegId → Bool
  | .noreg => true
  | .reg r => r < nRegs

/-- All five fields are in range. -/
def Operands.wellFormed (nRegs : Nat) (o : Operands) : Bool :=
  o.dst0.wellFormed nRegs && o.dst1.wellFormed nRegs &&
    o.src0.wellFormed nRegs && o.src1.wellFormed nRegs && o.src2.wellFormed nRegs

/-- A well-formed record (R308 (1)). -/
def Instr.wellFormed (nRegs : Nat) (i : Instr) : Bool :=
  i.operands.wellFormed nRegs

end Sys2Proof
end

