-- ==== Sys2Proof/Decode.lean ====
section
/-! DEFINITION. The trace word `TW48`: decoder, encoder (spec/30_encoding.md section 2) and the assembler syntax
(section 3). -/

namespace Sys2Proof

/-- Why a word is ill-formed (R86). -/
inductive DecodeError where
  /-- class code 7 -/
  | reservedClass
  /-- bits 44..40 are not all zero -/
  | zeroFieldSet
  /-- a register field `f` with `N_REGS <= f < 0xFF` -/
  | registerOutOfRange
deriving DecidableEq, Repr

/-- `w[47:45]` (R81). -/
def classField (w : TraceWord) : BitVec 3 := w.extractLsb' 45 3

/-- `w[44:40]` (R81). -/
def zeroField (w : TraceWord) : BitVec 5 := w.extractLsb' 40 5

/-- `w[39:32]` (R81). -/
def dst1Field (w : TraceWord) : RegField := w.extractLsb' 32 8

/-- `w[31:24]` (R81). -/
def dst0Field (w : TraceWord) : RegField := w.extractLsb' 24 8

/-- `w[23:16]` (R81). -/
def src2Field (w : TraceWord) : RegField := w.extractLsb' 16 8

/-- `w[15:8]` (R81). -/
def src1Field (w : TraceWord) : RegField := w.extractLsb' 8 8

/-- `w[7:0]` (R81). -/
def src0Field (w : TraceWord) : RegField := w.extractLsb' 0 8

/-- The class of a class code; 7 is reserved (R84). -/
def decodeClass (c : BitVec 3) : Option OpClass :=
  match c.toNat with
  | 0 => some .icomp
  | 1 => some .fcomp
  | 2 => some .load
  | 3 => some .store
  | 4 => some .jump
  | 5 => some .branch
  | 6 => some .trap
  | _ => none

/-- `dec(f)` (R85): `NOREG`, a register identifier below `N_REGS`, or a reserved encoding. -/
def decodeReg (nRegs : Nat) (f : RegField) : Option RegId :=
  if f = Config.noregCode then some .noreg
  else if f.toNat < nRegs then some (.reg f.toNat)
  else none

/-- The five register fields of a word (R85), if none is reserved. -/
def decodeOperands (nRegs : Nat) (w : TraceWord) : Option Operands :=
  match decodeReg nRegs (dst0Field w), decodeReg nRegs (dst1Field w), decodeReg nRegs (src0Field w),
      decodeReg nRegs (src1Field w), decodeReg nRegs (src2Field w) with
  | some d0, some d1, some s0, some s1, some s2 => some ⟨d0, d1, s0, s1, s2⟩
  | _, _, _, _, _ => none

/-- Decoding a trace word (R85), total, rejecting each kind of ill-formed word by name (R86). -/
def decode (nRegs : Nat) (w : TraceWord) : Except DecodeError Instr :=
  match decodeClass (classField w) with
  | none => .error .reservedClass
  | some c =>
    if zeroField w = 0#5 then
      match decodeOperands nRegs w with
      | none => .error .registerOutOfRange
      | some o => .ok (Instr.ofClass c o)
    else .error .zeroFieldSet

/-- The class codes (R84). -/
def encodeClass : OpClass → BitVec 3
  | .icomp => 0#3
  | .fcomp => 1#3
  | .load => 2#3
  | .store => 3#3
  | .jump => 4#3
  | .branch => 5#3
  | .trap => 6#3

/-- The inverse of `decodeReg` on well-formed identifiers (R85). -/
def encodeReg : RegId → RegField
  | .noreg => Config.noregCode
  | .reg r => BitVec.ofNat 8 r

/-- The word of a class and its operands, fields from bit 47 down as in the table of R81, `zero = 0` (R85). -/
def encodeFields (c : OpClass) (o : Operands) : TraceWord :=
  encodeClass c ++ 0#5 ++ encodeReg o.dst1 ++ encodeReg o.dst0 ++
    encodeReg o.src2 ++ encodeReg o.src1 ++ encodeReg o.src0

/-- The trace word of a record (R81, R85). -/
def encode (i : Instr) : TraceWord := encodeFields i.cls i.operands

/-- The instruction the decoder reads from an instruction whose low `nbits` bits are `w`, the bits above them 0, with
the registers of the reference configuration (log entry 4). A `TW48` instruction is one word of 48 bits, so no byte
order enters (R64). -/
def decodeTableWord (nbits w : Nat) : Option Instr :=
  let v := w % 2 ^ nbits
  if v < 2 ^ 48 then
    match decode Config.reference.nRegs (BitVec.ofNat 48 v) with
    | .ok i => some i
    | .error _ => none
  else none

/-- The mnemonics (R82). -/
def OpClass.mnemonic : OpClass → String
  | .icomp => "icomp"
  | .fcomp => "fcomp"
  | .load => "load"
  | .store => "store"
  | .jump => "jump"
  | .branch => "branch"
  | .trap => "trap"

/-- An operand in assembler syntax: `r` and the number in decimal, or `-` (R88). -/
def RegId.toAsm : RegId → String
  | .noreg => "-"
  | .reg r => "r" ++ toString r

/-- A record in assembler syntax, all five operands written (R88). -/
def Instr.toAsm (i : Instr) : String :=
  i.cls.mnemonic ++ " " ++ i.operands.dst0.toAsm ++ ", " ++ i.operands.dst1.toAsm ++ ", " ++
    i.operands.src0.toAsm ++ ", " ++ i.operands.src1.toAsm ++ ", " ++ i.operands.src2.toAsm

/-- A listing line: the program-order index in front, followed by a colon (R88). -/
def Instr.toListing (idx : Nat) (i : Instr) : String := toString idx ++ ": " ++ i.toAsm

end Sys2Proof
end

