-- ==== Sys2Proof/Machine/State.lean ====
section
/-! DEFINITION. The state of the block (spec/10_state.md), the reasons a step can stop, and the state after reset. -/

namespace Sys2Proof.Machine

/-- A reference: `NULL`, or the program-order index of a record (spec/00_scope.md R14). -/
abbrev Ref := Option Nat

/-- The two groups of stations and units (spec/10_state.md sections 7 and 8). -/
inductive Group where
  /-- integer: shared by integer-compute, load and store -/
  | int
  /-- floating-point -/
  | fp
deriving DecidableEq, Repr

/-- The reasons of `raise Fatal(reason)`: the closed list of spec/60_exceptions.md R262. -/
inductive FatalReason where
  /-- Code 1. The fetch stage skipped a trap that is the last record of the trace (R129), or a record was asked for
  that the trace does not have (R16, R74). -/
  | traceOverrun
  /-- Code 2. The queue head is of class `TRAP` (R150); unreachable from reset. -/
  | trapAtHead
deriving DecidableEq, Repr

/-- The mutable part of an instruction record (R36, R37). A timestamp of 0 is "not yet reached". -/
structure RecordState where
  tDisp : Nat
  tIssue : Nat
  tExec : Nat
  tCdb : Nat
  dep0 : Ref
  dep1 : Ref
  dep2 : Ref
deriving DecidableEq, Repr

/-- A record as reset leaves it (R42). -/
def RecordState.zero : RecordState :=
  { tDisp := 0, tIssue := 0, tExec := 0, tCdb := 0, dep0 := none, dep1 := none, dep2 := none }

/-- The block's one address space, the instruction-record store (spec/20_memory.md R60): the read-only trace part and
the private record part. Addresses are the program-order indices `1 .. N` (R61, R62); list position `n` holds record
`n + 1`. -/
structure Memory where
  /-- the immutable fields of the records, one trace word each -/
  trace : List TraceWord
  /-- the mutable fields of the records -/
  recs : List RecordState
deriving DecidableEq, Repr

/-- The one canonical form: both parts hold exactly the records `1 .. N`. -/
abbrev Memory.wf (m : Memory) : Prop := m.recs.length = m.trace.length

/-- The point of the cycle at which the driver hands a record to the meaning of its class: the places in which a stage
reads the trace part of a record (R61). DESIGN CHOICE (log entry 6): the MODEL's own, how `exec` is told where the
record stands. -/
inductive Visit where
  /-- the record at the fetch cursor (R127) -/
  | fetch
  /-- the record at the head of the fetch queue (R140) -/
  | dispatch
  /-- record `i`, which has finished computing in a unit of group `g` (R180) -/
  | complete (g : Group) (i : Nat)
  /-- record `i`, which has won the bus (R184) -/
  | broadcast (i : Nat)
deriving DecidableEq, Repr

/-- The state: the tuple of R20; the inputs of a run (R43) as data that no stage writes (the trace in `mem`, the counts
of stations, units and registers as the lengths of their lists; log entry 4); and the model's own `visit`. -/
structure State where
  /-- `cycle`, the current cycle (R24) -/
  cycle : Nat
  /-- `fetch_index`, the fetch cursor: the last trace record consumed (R23) -/
  fetchIndex : Nat
  /-- `ifq`, the fetch queue, oldest first (R26) -/
  ifq : List Nat
  /-- `map[r]`, the producer of register `r`; its length is `N_REGS` (R27) -/
  mapTable : List Ref
  /-- `rs_int[j]` (R29) -/
  rsInt : List Ref
  /-- `rs_fp[j]` (R30) -/
  rsFp : List Ref
  /-- `fu_int[k]` (R32) -/
  fuInt : List Ref
  /-- `fu_fp[k]` (R33) -/
  fuFp : List Ref
  /-- `cdb`, the common data bus (R34) -/
  cdb : Ref
  /-- the record store (R35 to R37, spec/20_memory.md) -/
  mem : Memory
  /-- `fatal` (R39) -/
  fatal : Option FatalReason
  /-- the model's own: `.fetch` except while a stage visits a record elsewhere -/
  visit : Visit
deriving DecidableEq, Repr

/-- Why the machine stops. -/
inductive Fault where
  /-- Raised by `step` on a state whose `fatal` mark is set: such a state "takes no further step" (R39, R262). Safe:
  the hardware stops too. -/
  | fatalState (reason : FatalReason)
deriving DecidableEq, Repr

/-- What the model says nothing about. -/
inductive Refusal where
  /-- Raised by an arm of `exec` that has no meaning yet. Safe. -/
  | notModelled (mnemonic : String)
  /-- Raised when a stage reads record `index` and its trace word is ill-formed: "a trace containing one is not a
  trace, and a model says nothing about it" (spec/30_encoding.md R86). Safe. -/
  | illFormedRecord (index : Nat) (why : DecodeError)
deriving DecidableEq, Repr

/-- The outcome of a step, of a stage and of a meaning. -/
abbrev Result := Host.Outcome State Fault Refusal

/-- The reset state for a configuration and a trace (R42): everything empty, every timestamp 0, the cycle counter at
`CYCLE_INIT`. -/
def State.resetWith (p : Config.Params) (trace : List TraceWord) : State :=
  { cycle := Config.cycleInit
    fetchIndex := 0
    ifq := []
    mapTable := List.replicate p.nRegs none
    rsInt := List.replicate p.nRsInt none
    rsFp := List.replicate p.nRsFp none
    fuInt := List.replicate p.nFuInt none
    fuFp := List.replicate p.nFuFp none
    cdb := none
    mem := { trace := trace, recs := List.replicate trace.length RecordState.zero }
    fatal := none
    visit := .fetch }

/-- The machine right after reset, in the reference configuration and with the empty trace: no trace has been supplied
(log entries 4 and 5). -/
def State.reset : State := State.resetWith Config.reference []

end Sys2Proof.Machine
end

