-- ==== Sys2Proof/Machine/Operands.lean ====
section
/-! DEFINITION. The class predicates (spec/00_scope.md R17, spec/40_operation_classes.md R108) and the two operand forms:
a source field looked up in the map table (spec/42_dispatch.md R145) and a destination field renamed in it (R146). -/

namespace Sys2Proof

/-- `is_trap(c)` (R17, R108). -/
def OpClass.isTrap : OpClass → Bool
  | .trap => true
  | .icomp | .fcomp | .load | .store | .jump | .branch => false

/-- `is_branch(c)` (R17, R108). -/
def OpClass.isBranch : OpClass → Bool
  | .jump | .branch => true
  | .icomp | .fcomp | .load | .store | .trap => false

/-- `is_fp(c)` (R17, R108). -/
def OpClass.isFp : OpClass → Bool
  | .fcomp => true
  | .icomp | .load | .store | .jump | .branch | .trap => false

/-- `is_int(c)` (R17, R108). -/
def OpClass.isInt : OpClass → Bool
  | .icomp | .load | .store => true
  | .fcomp | .jump | .branch | .trap => false

/-- `writes_result(c)` (R17, R108). -/
def OpClass.writesResult : OpClass → Bool
  | .icomp | .fcomp | .load => true
  | .store | .jump | .branch | .trap => false

end Sys2Proof

namespace Sys2Proof.Machine

/-- `N_REGS` (R11). -/
def State.nRegs (s : State) : Nat := s.mapTable.length

/-- `map[r]` (R27). An `r` that is no register reads `NULL` (log entry 8; no well-formed record names one). -/
def State.producer (s : State) (r : Nat) : Ref := (s.mapTable[r]?).getD none

/-- What a source field captures (R145): `NULL` for `NOREG`, the register's map-table entry otherwise. -/
def State.sourceProducer (s : State) : RegId → Ref
  | .noreg => none
  | .reg r => s.producer r

/-- Renaming one destination field to instruction `h` (R146); `NOREG` updates nothing (R46). -/
def State.rename (h : Nat) (d : RegId) (s : State) : State :=
  match d with
  | .noreg => s
  | .reg r => { s with mapTable := s.mapTable.set r (some h) }

end Sys2Proof.Machine
end

