-- ==== Sys2Proof/Machine/Ops.lean ====
section
/-! DEFINITION. The named operations: the record store, the fetch queue, stations and units, the bus, reset, raising a
fatal condition, and the actions of a record that the meanings of the seven classes are made of. -/

namespace Sys2Proof.Machine

/-! ## The record store (spec/20_memory.md) -/

/-- `N`, the trace length (R61). -/
def Memory.size (m : Memory) : Nat := m.trace.length

/-- Record `i` exists in the record part. -/
abbrev Memory.holds (m : Memory) (i : Nat) : Prop := 1 ≤ i ∧ i ≤ m.recs.length

/-- The trace word of record `i`, none where `i` is no address (R67). -/
def Memory.word (m : Memory) : Nat → Option TraceWord
  | 0 => none
  | n + 1 => m.trace[n]?

/-- The mutable fields of record `i`. Where `i` is no address this is the record as reset leaves it (log entry 8; a
`Ref` is an index `1 .. N` by R14, so no rule reads there). -/
def Memory.readRec (m : Memory) : Nat → RecordState
  | 0 => RecordState.zero
  | n + 1 => (m.recs[n]?).getD RecordState.zero

/-- Writing the mutable fields of record `i` (R63). Where `i` is no address nothing is written (log entry 8). -/
def Memory.updateRec (m : Memory) (i : Nat) (f : RecordState → RecordState) : Memory :=
  match i with
  | 0 => m
  | n + 1 => { m with recs := m.recs.modify n f }

/-- The host's load of a trace word at record `c + 1` (R292): into the trace where it has that record, else behind its
end. The record's mutable fields are those of a record not yet fetched (R42). -/
def Memory.loadWord (m : Memory) (c : Nat) (w : TraceWord) : Memory :=
  if c < m.trace.length then
    { trace := m.trace.set c w, recs := m.recs.set c RecordState.zero }
  else
    { trace := m.trace ++ [w], recs := m.recs ++ [RecordState.zero] }

/-- `N` (R61). -/
def State.size (s : State) : Nat := s.mem.size

/-- The mutable fields of record `i`. -/
def State.record (s : State) (i : Nat) : RecordState := s.mem.readRec i

/-- Writing fields of record `i`. -/
def State.updateRecord (s : State) (i : Nat) (f : RecordState → RecordState) : State :=
  { s with mem := s.mem.updateRec i f }

/-- `TraceRead(i)` (R16, R61): none where `i` is no record of the trace, otherwise what the decoder reads. -/
def State.traceRead (s : State) (i : Nat) : Option (Except DecodeError Instr) :=
  (s.mem.word i).map (decode s.nRegs)

/-- The instruction of record `i`, where there is one. -/
def State.instrAt (s : State) (i : Nat) : Option Instr :=
  match s.traceRead i with
  | some (.ok instr) => some instr
  | _ => none

/-- Does record `i` exist and have a class with `P`? -/
def State.classHas (s : State) (P : OpClass → Bool) (i : Nat) : Bool :=
  match s.instrAt i with
  | some instr => P instr.cls
  | none => false

/-! ## Fatal conditions and reset -/

/-- `raise Fatal(reason)` (spec/60_exceptions.md R262): the mark is set if it was `NONE`. Every write before the raise
stands (R267); `thenStage` of Pipeline.lean abandons the rest of the cycle. There is no return from it (R268): only
`State.doReset` clears the mark. -/
def State.raiseFatal (r : FatalReason) (s : State) : State :=
  { s with fatal := match s.fatal with
      | none => some r
      | some q => some q }

/-- `reset()` (spec/70_reset_and_hazards.md R290, R291): every state element at its reset value; the trace, `N` and the
parameters are not touched. -/
def State.doReset (s : State) : State :=
  { cycle := Config.cycleInit
    fetchIndex := 0
    ifq := []
    mapTable := List.replicate s.mapTable.length none
    rsInt := List.replicate s.rsInt.length none
    rsFp := List.replicate s.rsFp.length none
    fuInt := List.replicate s.fuInt.length none
    fuFp := List.replicate s.fuFp.length none
    cdb := none
    mem := { s.mem with recs := List.replicate s.mem.trace.length RecordState.zero }
    fatal := none
    visit := .fetch }

/-! ## The fetch queue (spec/41_fetch.md section 1) -/

/-- `push(ifq, i)` (R120). -/
def push (q : List Nat) (i : Nat) : List Nat := q ++ [i]

/-- `pop(ifq)` (R121): nothing on an empty queue. -/
def pop (q : List Nat) : List Nat := q.tail

/-- `peek(ifq)` (R122): `NULL` on an empty queue. -/
def peek (q : List Nat) : Ref := q.head?

/-- `is_full(ifq)` (R123) against a bound; the hardware's is `Config.ifqBound`. -/
def isFull (bound : Nat) (q : List Nat) : Bool := bound < q.length

/-! ## Slots -/

/-- The reservation stations of a group (R29, R30). -/
def State.stations (s : State) : Group → List Ref
  | .int => s.rsInt
  | .fp => s.rsFp

/-- The functional units of a group (R32, R33). -/
def State.units (s : State) : Group → List Ref
  | .int => s.fuInt
  | .fp => s.fuFp

/-- Writing the stations of a group. -/
def State.setStations (g : Group) (l : List Ref) (s : State) : State :=
  match g with
  | .int => { s with rsInt := l }
  | .fp => { s with rsFp := l }

/-- Writing the units of a group. -/
def State.setUnits (g : Group) (l : List Ref) (s : State) : State :=
  match g with
  | .int => { s with fuInt := l }
  | .fp => { s with fuFp := l }

/-- `L`, the latency of a group (R180, R181). -/
def latency : Group → Nat
  | .int => Config.latencyInt
  | .fp => Config.latencyFp

/-- The least index of a free slot (R143, R144). -/
def firstFree : List Ref → Option Nat
  | [] => none
  | none :: _ => some 0
  | some _ :: l => (firstFree l).map (· + 1)

/-- Every entry that names `i` becomes `NULL`. -/
def clearRef (i : Nat) (l : List Ref) : List Ref :=
  l.map fun r => if r = some i then none else r

/-- The instructions a list of slots names, in slot order. -/
def occupants (l : List Ref) : List Nat := l.filterMap id

/-- `min_index S` (R16): the least index of a finite set, none for the empty set. -/
def minIndex : List Nat → Option Nat
  | [] => none
  | i :: l =>
    match minIndex l with
    | none => some i
    | some j => some (min i j)

/-- Instruction `i` leaves the stations and units of group `g` (R182, R185, R190). -/
def State.releaseSlots (g : Group) (i : Nat) (s : State) : State :=
  (s.setUnits g (clearRef i (s.units g))).setStations g (clearRef i (s.stations g))

/-! ## What a record does where a stage visits it -/

/-- The fetch cursor moves to the next record (R127); past the end of the trace there is none (R23, R129). -/
def State.advanceCursor (s : State) : State :=
  if s.fetchIndex < s.size then { s with fetchIndex := s.fetchIndex + 1 }
  else s.raiseFatal .traceOverrun

/-- A record that is no trap is consumed by fetch: the cursor advances and its index is pushed (R127). -/
def State.fetchEnqueue (s : State) : State :=
  if s.fetchIndex < s.size then
    { s with fetchIndex := s.fetchIndex + 1, ifq := push s.ifq (s.fetchIndex + 1) }
  else s.raiseFatal .traceOverrun

/-- A trap is consumed by fetch: the cursor advances, nothing is enqueued (R127, R107). -/
def State.fetchSkip (s : State) : State := s.advanceCursor

/-- Dependency capture (R145): all three source fields against the map table as it stands. -/
def State.captureDeps (h : Nat) (o : Operands) (s : State) : State :=
  s.updateRecord h fun r =>
    { r with dep0 := s.sourceProducer o.src0, dep1 := s.sourceProducer o.src1, dep2 := s.sourceProducer o.src2 }

/-- Renaming of both destination fields (R146). -/
def State.renameDests (h : Nat) (o : Operands) (s : State) : State :=
  (s.rename h o.dst0).rename h o.dst1

/-- `allocate` (R143 to R149): the head takes the first free station of group `g`, after capturing its dependencies and
then renaming its destinations (R147), and leaves the queue (R148); where no station is free it stalls and nothing is
written (R149). -/
def State.allocate (g : Group) (o : Operands) (s : State) : State :=
  match peek s.ifq with
  | none => s
  | some h =>
    match firstFree (s.stations g) with
    | none => s
    | some j =>
      let t := (s.captureDeps h o).renameDests h o
      { t.setStations g ((t.stations g).set j (some h)) with ifq := pop s.ifq }

/-- A branch at the head is discarded (R141): `pop(ifq)` and nothing else. -/
def State.discardHead (s : State) : State := { s with ifq := pop s.ifq }

/-- The winner `i` of the bus is stamped, put on the bus and removed from the slots of group `g` (R185, R190). -/
def State.broadcast (g : Group) (i : Nat) (s : State) : State :=
  let t := s.updateRecord i fun r => { r with tCdb := s.cycle }
  { t with cdb := some i }.releaseSlots g i

end Sys2Proof.Machine
end

