-- ==== Sys2Proof/Machine/Flags.lean ====
section
/-! DEFINITION. The block has no status flags and no condition codes (spec/10_state.md R41): "the only status a host can
read is the termination predicate and the `fatal` mark". The termination predicate and what a host reads after a run are
here (spec/46_driver.md R213, R214, R216). -/

namespace Sys2Proof.Machine

/-- Every slot is `NULL`. -/
def allFree (l : List Ref) : Bool := l.all fun r => r = none

/-- `done` (R213): every station, unit, the queue and the bus are empty and the cursor is at the end of the trace. The
map table is not part of it. -/
def State.done (s : State) : Bool :=
  allFree s.rsInt && allFree s.rsFp && allFree s.fuInt && allFree s.fuFp &&
    s.ifq.isEmpty && s.cdb = none && s.fetchIndex = s.size

/-- The run has ended: a cycle has run and `done` holds after it (R212, R213: the predicate "is evaluated only between
cycles", first after the first cycle). DEDUCED (log entry 2). -/
def State.ended (s : State) : Bool := s.done && s.cycle != Config.cycleInit

/-- The returned cycle count (R214), once the run has ended; a fatal run returns none (R262). -/
def State.returnedCount (s : State) : Option Nat :=
  if s.fatal = none ∧ s.ended then some s.cycle else none

/-- The four timestamps of a record, the block's output (R216), in the order of spec/95_test_vectors.md. -/
def RecordState.stamps (r : RecordState) : Nat × Nat × Nat × Nat := (r.tDisp, r.tIssue, r.tExec, r.tCdb)

/-- The timestamps of every record of the trace (R216). -/
def State.outputs (s : State) : List (Nat × Nat × Nat × Nat) := s.mem.recs.map RecordState.stamps

end Sys2Proof.Machine
end

