-- ==== Sys2Proof/Machine/Compute.lean ====
section
/-! DEFINITION. The meanings of `icomp` and `fcomp` (spec/40_operation_classes.md R101, R102): what a record of the class
does at each point of a cycle at which a stage visits it. -/

namespace Sys2Proof.Machine

/-- `icomp` (R101). Fetch: enqueued (R127). Head of the queue: allocated to an integer station with its dependencies
captured and its destinations renamed, or stalled (R144 to R149). Finished: it writes a result, so it stays in its unit
as a bus candidate (R183, R186). Winner: stamped and removed from the integer slots (R185). -/
def execIcomp (dst0 dst1 src0 src1 src2 : RegId) (s : State) : Result :=
  match s.visit with
  | .fetch => .next s.fetchEnqueue
  | .dispatch => .next (s.allocate .int ⟨dst0, dst1, src0, src1, src2⟩)
  | .complete _ _ => .next s
  | .broadcast i => .next (s.broadcast .int i)

/-- `fcomp` (R102): as `icomp` with the floating-point stations (R143) and units (R190). -/
def execFcomp (dst0 dst1 src0 src1 src2 : RegId) (s : State) : Result :=
  match s.visit with
  | .fetch => .next s.fetchEnqueue
  | .dispatch => .next (s.allocate .fp ⟨dst0, dst1, src0, src1, src2⟩)
  | .complete _ _ => .next s
  | .broadcast i => .next (s.broadcast .fp i)

end Sys2Proof.Machine
end

