-- ==== Sys2Proof/Machine/Control.lean ====
section
/-! DEFINITION. The meanings of `jump`, `branch` and `trap` (spec/40_operation_classes.md R105 to R107). None acts on its
operands and none reaches a unit in a run from reset; the completion and broadcast arms are what the stage's rules give
"any class excluded from the result-producing set" (spec/44_execute_cdb.md R182) and the `else` branch of its pseudocode
(DEDUCED, log entry 9). -/

namespace Sys2Proof.Machine

/-- `jump` (R105): enqueued; at the head of the queue discarded (R141). No target, no link register, no effect on the
fetch cursor. -/
def execJump (s : State) : Result :=
  match s.visit with
  | .fetch => .next s.fetchEnqueue
  | .dispatch => .next s.discardHead
  | .complete g i => .next (s.releaseSlots g i)
  | .broadcast i => .next (s.broadcast .int i)

/-- `branch` (R106): "identical to `jump` in every respect"; its sources are not looked up. -/
def execBranch (s : State) : Result :=
  match s.visit with
  | .fetch => .next s.fetchEnqueue
  | .dispatch => .next s.discardHead
  | .complete g i => .next (s.releaseSlots g i)
  | .broadcast i => .next (s.broadcast .int i)

/-- `trap` (R107): skipped by fetch, never enqueued (R127); no exception, no handler (spec/60_exceptions.md R261). At the
head of the queue, where it can never be, `Fatal(TrapAtHead)` (R150). -/
def execTrap (s : State) : Result :=
  match s.visit with
  | .fetch => .next s.fetchSkip
  | .dispatch => .next (s.raiseFatal .trapAtHead)
  | .complete g i => .next (s.releaseSlots g i)
  | .broadcast i => .next (s.broadcast .int i)

end Sys2Proof.Machine
end

