-- ==== Sys2Proof/Machine/LoadStore.lean ====
section
/-! DEFINITION. The meanings of `load` and `store` (spec/40_operation_classes.md R103, R104). Neither forms an address or
touches a data memory: there is none (spec/20_memory.md R69). -/

namespace Sys2Proof.Machine

/-- `load` (R103): "identical to `icomp` in every rule"; it writes a result (R108). -/
def execLoad (dst0 dst1 src0 src1 src2 : RegId) (s : State) : Result :=
  match s.visit with
  | .fetch => .next s.fetchEnqueue
  | .dispatch => .next (s.allocate .int ⟨dst0, dst1, src0, src1, src2⟩)
  | .complete _ _ => .next s
  | .broadcast i => .next (s.broadcast .int i)

/-- `store` (R104): fetched and dispatched as `icomp`, a destination field included (spec/70_reset_and_hazards.md R307).
Finished: it writes no result and leaves its slots at once, without the bus (R182). The broadcast arm is the pseudocode's
`else` branch; no store is ever a candidate (R183). -/
def execStore (dst0 dst1 src0 src1 src2 : RegId) (s : State) : Result :=
  match s.visit with
  | .fetch => .next s.fetchEnqueue
  | .dispatch => .next (s.allocate .int ⟨dst0, dst1, src0, src1, src2⟩)
  | .complete g i => .next (s.releaseSlots g i)
  | .broadcast i => .next (s.broadcast .int i)

end Sys2Proof.Machine
end

