-- ==== Sys2Proof/Machine/Dispatch.lean ====
section
/-! DEFINITION. One arm per constructor of Instr: the meaning of a record of the class where the driver visits it. -/

namespace Sys2Proof.Machine

/-- What a record does in state s, at the point of the cycle that `s.visit` names. -/
def exec (i : Instr) (s : State) : Host.Outcome State Fault Refusal :=
  match i with
  | .icomp dst0 dst1 src0 src1 src2 => Sys2Proof.Machine.execIcomp dst0 dst1 src0 src1 src2 s
  | .fcomp dst0 dst1 src0 src1 src2 => Sys2Proof.Machine.execFcomp dst0 dst1 src0 src1 src2 s
  | .load dst0 dst1 src0 src1 src2 => Sys2Proof.Machine.execLoad dst0 dst1 src0 src1 src2 s
  | .store dst0 dst1 src0 src1 src2 => Sys2Proof.Machine.execStore dst0 dst1 src0 src1 src2 s
  | .jump _ _ _ _ _ => Sys2Proof.Machine.execJump s
  | .branch _ _ _ _ _ => Sys2Proof.Machine.execBranch s
  | .trap _ _ _ _ _ => Sys2Proof.Machine.execTrap s

end Sys2Proof.Machine
end

