-- ==== Sys2Proof/Machine/Pipeline.lean ====
section
/-! DEFINITION. The five stages of a cycle (spec/41_fetch.md to spec/45_retire.md) and the cycle (spec/46_driver.md). A
stage that reads the class of a record hands the record to `exec`. -/

namespace Sys2Proof.Machine

/-! ## Running one part of a cycle after another -/

/-- `f` runs after `o`, unless `o` refused or raised a fatal condition, which abandons the rest of the cycle (R262). -/
def thenStage (o : Result) (f : State → Result) : Result :=
  match o with
  | .next s =>
    match s.fatal with
    | none => f s
    | some _ => .next s
  | .fault r => .fault r
  | .refused r => .refused r

/-- Back from a visit: `visit` at its resting value. -/
def leaveVisit (o : Result) : Result :=
  match o with
  | .next s => .next { s with visit := .fetch }
  | .fault r => .fault r
  | .refused r => .refused r

/-- A stage visits record `i`: it reads the record (`TraceRead(i)`, R16; fatal where there is none, R74; refused where
it is ill-formed, R86) and the record does what its class does there. -/
def visitRecord (v : Visit) (i : Nat) (s : State) : Result :=
  match s.traceRead i with
  | none => .next (s.raiseFatal .traceOverrun)
  | some (.error e) => .refused (.illFormedRecord i e)
  | some (.ok instr) => leaveVisit (exec instr { s with visit := v })

/-- `f` for every slot index `0 .. n-1` in ascending order, each seeing the writes of those before it (R16). -/
def forSlots (f : Nat → State → Result) (n : Nat) (s : State) : Result :=
  (List.range n).foldl (fun o k => thenStage o (f k)) (.next s)

/-! ## Stage 1: CDB to retire (spec/45_retire.md) -/

/-- R200, R201, R203: from the cycle after its broadcast on, the bus occupant is cleared from every map-table entry that
still names it, and the bus is released. No slot names it any more (R202) and dependency arrays are not touched
(R204). -/
def cdbToRetire (s : State) : State :=
  match s.cdb with
  | none => s
  | some i =>
    if (s.record i).tCdb + 1 ≤ s.cycle then
      { s with mapTable := clearRef i s.mapTable, cdb := none }
    else s

/-! ## Stage 2: execute to CDB (spec/44_execute_cdb.md) -/

/-- Occupant `i` of a unit of group `g` has finished computing (R180). -/
def State.finished (s : State) (g : Group) (i : Nat) : Bool :=
  (s.record i).tExec + latency g ≤ s.cycle

/-- One unit slot: a finished occupant is visited (R180, R182, R183). -/
def completeSlot (g : Group) (k : Nat) (s : State) : Result :=
  match (s.units g)[k]? with
  | some (some i) => if s.finished g i then visitRecord (.complete g i) i s else .next s
  | _ => .next s

/-- All unit slots of a group, in ascending order. -/
def completeGroup (g : Group) (s : State) : Result := forSlots (completeSlot g) (s.units g).length s

/-- The candidates of a group (R183): finished occupants whose class writes a result. -/
def State.candidatesOf (s : State) (g : Group) : List Nat :=
  (occupants (s.units g)).filter fun i => s.finished g i && s.classHas OpClass.writesResult i

/-- The candidate set of the cycle: one pool of both groups (R183, R184). -/
def State.candidates (s : State) : List Nat := s.candidatesOf .int ++ s.candidatesOf .fp

/-- Arbitration and broadcast: the candidate with the lowest program-order index wins (R184, R185). -/
def arbitrate (s : State) : Result :=
  match minIndex s.candidates with
  | none => .next s
  | some w => visitRecord (.broadcast w) w s

/-- The stage, in the form R191 gives: all finished non-writers leave, then the oldest finished writer broadcasts. -/
def executeToCdb (s : State) : Result :=
  thenStage (thenStage (completeGroup .int s) (completeGroup .fp)) arbitrate

/-! ## Stage 3: issue to execute (spec/43_issue.md) -/

/-- `outstanding(p)` in the current cycle (R162). -/
def State.outstanding (s : State) : Ref → Bool
  | none => false
  | some p => (s.record p).tCdb = 0 || (s.record p).tCdb = s.cycle

/-- `eligible(i)` (R161, R162). -/
def State.eligible (s : State) (i : Nat) : Bool :=
  (s.record i).tIssue ≠ 0 && (s.record i).tIssue < s.cycle && (s.record i).tExec = 0 &&
    !s.outstanding (s.record i).dep0 && !s.outstanding (s.record i).dep1 && !s.outstanding (s.record i).dep2

/-- The oldest eligible occupant of the stations of a group (R163, R169). -/
def State.selectFor (s : State) (g : Group) : Option Nat :=
  minIndex ((occupants (s.stations g)).filter s.eligible)

/-- The selected instruction enters unit slot `k` and is stamped; it keeps its station (R164). -/
def State.assignUnit (g : Group) (k i : Nat) (s : State) : State :=
  (s.setUnits g ((s.units g).set k (some i))).updateRecord i fun r => { r with tExec := s.cycle }

/-- One unit slot: if it is free, the selected instruction, if any, starts in it (R160, R163, R164). -/
def issueSlot (g : Group) (s : State) (k : Nat) : State :=
  match (s.units g)[k]? with
  | some none =>
    match s.selectFor g with
    | some i => s.assignUnit g k i
    | none => s
  | _ => s

/-- All unit slots of a group, in ascending order (R160). -/
def issueGroup (g : Group) (s : State) : State := (List.range (s.units g).length).foldl (issueSlot g) s

/-- The stage: integer slots first, then floating-point slots (R160). -/
def issueToExecute (s : State) : State := issueGroup .fp (issueGroup .int s)

/-! ## Stage 4: dispatch to issue (spec/42_dispatch.md) -/

/-- One occupant: its issue timestamp is stamped if it is still unset (R151). -/
def stampIssueOne (s : State) (i : Nat) : State :=
  s.updateRecord i fun r => if r.tIssue = 0 then { r with tIssue := s.cycle } else r

/-- Every occupant of a station is stamped (R151). -/
def stampIssue (s : State) : State :=
  (occupants s.rsInt ++ occupants s.rsFp).foldl stampIssueOne s

/-- The allocation part: only the head is examined (R140); it does what its class does at the head (R141 to R150). -/
def dispatchHead (s : State) : Result :=
  match peek s.ifq with
  | none => .next s
  | some h => visitRecord .dispatch h s

/-- The stage: the allocation part, then the stamping part (R151). -/
def dispatchToIssue (s : State) : Result := thenStage (dispatchHead s) fun t => .next (stampIssue t)

/-! ## Stage 5: fetch to dispatch (spec/41_fetch.md) -/

/-- The fetch loop (R127 to R129) with `n` records of the trace left: the next record is visited; after a trap the loop
goes on within the cycle, and with no record left that is `Fatal(TraceOverrun)`. -/
def fetchLoop : Nat → State → Result
  | 0, s => .next (s.raiseFatal .traceOverrun)
  | n + 1, s =>
    thenStage (visitRecord .fetch (s.fetchIndex + 1) s) fun t =>
      if s.classHas OpClass.isTrap (s.fetchIndex + 1) then fetchLoop n t else .next t

/-- The guard of the fetch part (R126), against a queue bound. -/
def State.fetchGuard (s : State) (bound : Nat) : Bool := !isFull bound s.ifq && s.fetchIndex < s.size

/-- The fetch part (R126, R127). -/
def fetchPart (bound : Nat) (s : State) : Result :=
  if s.fetchGuard bound then fetchLoop (s.size - s.fetchIndex) s else .next s

/-- The stamping part: the head of the queue is stamped if its dispatch timestamp is still unset (R130, R131). -/
def stampHead (s : State) : State :=
  match peek s.ifq with
  | none => s
  | some h => s.updateRecord h fun r => if r.tDisp = 0 then { r with tDisp := s.cycle } else r

/-- The stage: the fetch part, then the stamping part, which runs in every cycle (R131). -/
def fetchToDispatch (bound : Nat) (s : State) : Result :=
  thenStage (fetchPart bound s) fun t => .next (stampHead t)

/-! ## The cycle (spec/46_driver.md) -/

/-- Stages 1 to 4, in the order of R210. -/
def stagesBeforeFetch (s : State) : Result :=
  thenStage (executeToCdb (cdbToRetire s)) fun t => dispatchToIssue (issueToExecute t)

/-- The end of a cycle: the counter is incremented (R212). -/
def State.tick (s : State) : State := { s with cycle := s.cycle + 1 }

/-- One cycle (R210, R212) with a given bound of the fetch queue. -/
def cycleWith (bound : Nat) (s : State) : Result :=
  thenStage (thenStage (stagesBeforeFetch s) (fetchToDispatch bound)) fun t => .next t.tick

/-- One step with a given bound of the fetch queue. A fatal state takes no step (R39, R262). When the run has ended no
further cycle begins (R212) and the state stays as the host reads it (R216; DESIGN CHOICE, log entry 1). -/
def stepWith (bound : Nat) (s : State) : Result :=
  match s.fatal with
  | some r => .fault (.fatalState r)
  | none => if s.ended then .next s else cycleWith bound s

/-- The state in which the host has put a trace word where the fetch stage reads its next record (R292). -/
def State.loadNext (s : State) (nbits w : Nat) : State :=
  { s with mem := s.mem.loadWord s.fetchIndex (BitVec.ofNat 48 (w % 2 ^ nbits)) }

/-! ## The run (spec/46_driver.md R215) -/

/-- At most `n` steps from a state, stopping where a step does not answer a next state. -/
def runSteps (bound : Nat) : Nat → State → Result
  | 0, s => .next s
  | n + 1, s =>
    match stepWith bound s with
    | .next t => runSteps bound n t
    | .fault r => .fault r
    | .refused r => .refused r

/-- `run` (R215) from the reset state (R291), cut after `n` cycles because the block itself has no timeout (R218): the
count it returns (R214) and the timestamps (R216), or none if it has not returned. -/
def run (p : Config.Params) (trace : List TraceWord) (n : Nat) : Option (Nat × List (Nat × Nat × Nat × Nat)) :=
  match runSteps Config.ifqBound n (State.resetWith p trace) with
  | .next s => s.returnedCount.map fun c => (c, s.outputs)
  | .fault _ => none
  | .refused _ => none

end Sys2Proof.Machine
end

