-- ==== Sys2Proof/Machine/Step.lean ====
section
/-! DEFINITION. The step: one cycle of the driver (spec/00_scope.md R9, spec/46_driver.md). -/

namespace Sys2Proof.Machine

/-- One step: one cycle, with the queue bound of the hardware (`IFQ_BOUND`, R10). -/
def step (s : State) : Host.Outcome State Fault Refusal := stepWith Config.ifqBound s

/-- `s` with an instruction stored where the next fetch reads: the record behind the fetch cursor (log entry 5). -/
def State.withFetchWord (s : State) (nbits w : Nat) : State := s.loadNext nbits w

end Sys2Proof.Machine
end

