-- ==== Sys2Proof/Safety.lean ====
section
/-! DEFINITION. What counts as a safe run: well-formed traces (spec/70_reset_and_hazards.md R308) and the properties that
spec/47_invariants.md gives every state between two cycles of a run. None of them is a test of the step (R230). Each is
stated for the state after the counter's increment, so "the cycle that just ended" is `cycle - 1`. -/

namespace Sys2Proof.Machine

/-! ## Well-formed traces -/

/-- A record of a well-formed trace: well formed itself (R308 (1)) and, if a store, without a destination (R308 (3)). -/
def wordWellFormed (nRegs : Nat) (w : TraceWord) : Bool :=
  match decode nRegs w with
  | .ok i => i.cls != .store || (i.operands.dst0 == .noreg && i.operands.dst1 == .noreg)
  | .error _ => false

/-- The trace is empty or its last record is no trap (R308 (2)). -/
def lastNoTrap (nRegs : Nat) (trace : List TraceWord) : Bool :=
  match trace.getLast? with
  | none => true
  | some w =>
    match decode nRegs w with
    | .ok i => !i.cls.isTrap
    | .error _ => false

/-- A well-formed trace (R308). -/
def traceWellFormed (nRegs : Nat) (trace : List TraceWord) : Bool :=
  trace.all (wordWellFormed nRegs) && lastNoTrap nRegs trace

/-- The trace of a state is well formed. -/
def State.traceOk (s : State) : Bool := traceWellFormed s.nRegs s.mem.trace

/-! ## What a state is asked about -/

/-- Two states of one run have the same inputs (R43): the trace, its length, and the parameters, which are the lengths of
the map table and of the slot lists. -/
abbrev SameInputs (s t : State) : Prop :=
  t.mem.trace = s.mem.trace ∧ t.mem.recs.length = s.mem.recs.length ∧ t.mapTable.length = s.mapTable.length ∧
    t.rsInt.length = s.rsInt.length ∧ t.rsFp.length = s.rsFp.length ∧
    t.fuInt.length = s.fuInt.length ∧ t.fuFp.length = s.fuFp.length

/-- The occupants of both station groups. -/
def State.stationed (s : State) : List Nat := occupants s.rsInt ++ occupants s.rsFp

/-- The producers a record's dependency array names. -/
def RecordState.deps (r : RecordState) : List Nat := occupants [r.dep0, r.dep1, r.dep2]

/-- Record `p` has register `r` in a destination field. -/
def State.namesDest (s : State) (p r : Nat) : Bool :=
  match s.instrAt p with
  | some i => i.operands.dst0 = .reg r || i.operands.dst1 = .reg r
  | none => false

/-- Source field `f` of record `i` names a register. -/
def State.sourceIs (s : State) (i : Nat) (f : Operands → RegId) (r : Nat) : Bool :=
  match s.instrAt i with
  | some instr => f instr.operands = .reg r
  | none => false

/-- The latency of the unit group of record `i`'s class (R181). -/
def State.latencyOf (s : State) (i : Nat) : Nat := if s.classHas OpClass.isFp i then latency .fp else latency .int

/-! ## The invariants of spec/47_invariants.md -/

/-- The record store is in its canonical form, no visit is under way, and the counter is past 0 (R24, R42). -/
abbrev State.ShapeInv (s : State) : Prop := s.mem.wf ∧ s.visit = .fetch ∧ 1 ≤ s.cycle

/-- The shape of the fetch queue (R246, R26): strictly ascending, every element consumed by fetch and no trap, at most
`IFQ_BOUND + 1` elements, and the cursor within the trace (R23). -/
abbrev State.QueueInv (s : State) : Prop :=
  s.fetchIndex ≤ s.size ∧ s.ifq.Pairwise (· < ·) ∧
    (∀ i ∈ s.ifq, 1 ≤ i ∧ i ≤ s.fetchIndex ∧ s.classHas (fun c => !c.isTrap) i = true) ∧
    s.ifq.length ≤ Config.ifqBound + 1

/-- Timestamps at the front end (R246): a queued record is not dispatched, only the head has a dispatch stamp, and a
record behind the cursor has no timestamp. -/
abbrev State.FrontInv (s : State) : Prop :=
  (∀ i ∈ s.ifq, (s.record i).tIssue = 0 ∧ (s.record i).tExec = 0 ∧ (s.record i).tCdb = 0) ∧
    (∀ i ∈ s.ifq.head?, (s.record i).tDisp ≠ 0) ∧ (∀ i ∈ s.ifq.tail, (s.record i).tDisp = 0) ∧
    (∀ i ≤ s.size, s.fetchIndex < i → (s.record i).stamps = (0, 0, 0, 0))

/-- Station occupancy (R231): nobody is in two slots, occupants have the class of their group, are older than every
queued record, are issued and have not broadcast. -/
abbrev State.StationInv (s : State) : Prop :=
  s.stationed.Nodup ∧
    (∀ i ∈ occupants s.rsInt, s.classHas OpClass.isInt i = true) ∧
    (∀ i ∈ occupants s.rsFp, s.classHas OpClass.isFp i = true) ∧
    (∀ i ∈ s.stationed, 1 ≤ i ∧ i ≤ s.fetchIndex ∧ (∀ h ∈ s.ifq, i < h) ∧
      (s.record i).tIssue ≠ 0 ∧ (s.record i).tCdb = 0)

/-- Unit occupancy of one group (R232). -/
abbrev State.UnitInvOf (s : State) (g : Group) : Prop :=
  (occupants (s.units g)).Nodup ∧
    (∀ i ∈ occupants (s.units g), i ∈ occupants (s.stations g) ∧ (s.record i).tExec ≠ 0) ∧
    (∀ i ∈ occupants (s.stations g), (s.record i).tExec ≠ 0 → i ∈ occupants (s.units g))

/-- Unit occupancy (R232). -/
abbrev State.UnitInv (s : State) : Prop := s.UnitInvOf .int ∧ s.UnitInvOf .fp

/-- The order of the stamps of every record (R233), each of a past cycle. -/
abbrev State.StampInv (s : State) : Prop :=
  ∀ i ≤ s.size,
    (s.record i).tDisp < s.cycle ∧ (s.record i).tIssue < s.cycle ∧ (s.record i).tExec < s.cycle ∧
      (s.record i).tCdb < s.cycle ∧
      ((s.record i).tIssue ≠ 0 → 0 < (s.record i).tDisp ∧ (s.record i).tDisp < (s.record i).tIssue) ∧
      ((s.record i).tExec ≠ 0 → 0 < (s.record i).tIssue ∧ (s.record i).tIssue < (s.record i).tExec) ∧
      ((s.record i).tCdb ≠ 0 → 0 < (s.record i).tExec ∧ (s.record i).tExec + s.latencyOf i ≤ (s.record i).tCdb)

/-- Which classes get which stamps (R36): a dispatch stamp no trap, an issue stamp only the classes of a station, a
broadcast stamp only the classes that write a result. -/
abbrev State.ClassInv (s : State) : Prop :=
  ∀ i ≤ s.size,
    ((s.record i).tDisp ≠ 0 → s.classHas (fun c => !c.isTrap) i = true) ∧
      ((s.record i).tIssue ≠ 0 → s.classHas (fun c => c.isInt || c.isFp) i = true) ∧
      ((s.record i).tCdb ≠ 0 → s.classHas OpClass.writesResult i = true)

/-- The in-order front end (R243): dispatch and issue stamps rise with the index, and what is dispatched is older than
what is queued. -/
abbrev State.InOrderInv (s : State) : Prop :=
  (∀ i ≤ s.size, ∀ j ≤ s.size, i < j → (s.record i).tDisp ≠ 0 → (s.record j).tDisp ≠ 0 →
      (s.record i).tDisp < (s.record j).tDisp) ∧
    (∀ i ≤ s.size, ∀ j ≤ s.size, i < j → (s.record i).tIssue ≠ 0 → (s.record j).tIssue ≠ 0 →
      (s.record i).tIssue < (s.record j).tIssue) ∧
    (∀ i ≤ s.size, (s.record i).tIssue ≠ 0 → ∀ h ∈ s.ifq, i < h) ∧
    (∀ i ≤ s.size, (s.record i).tDisp ≠ 0 → ∀ h ∈ s.ifq, i ≤ h)

/-- Map-table well-formedness (R237): the producer of a register has it as a destination, is dispatched, and is the
youngest dispatched record that has. -/
abbrev State.MapInv (s : State) : Prop :=
  ∀ r < s.nRegs, ∀ p ∈ s.producer r,
    1 ≤ p ∧ p ≤ s.fetchIndex ∧ s.namesDest p r = true ∧ (s.record p).tIssue ≠ 0 ∧
      (∀ q ≤ s.size, p < q → (s.record q).tIssue ≠ 0 → s.namesDest q r = false)

/-- The dependency law of one source field (R249, R154). -/
abbrev State.DepInvOf (s : State) (i : Nat) (f : Operands → RegId) (dep : Ref) : Prop :=
  ∀ p ∈ dep, 1 ≤ p ∧ p < i ∧ (s.record p).tIssue ≠ 0 ∧
    s.classHas (fun c => c.writesResult || c == .store) p = true ∧
    (∃ r < s.nRegs, s.sourceIs i f r = true ∧ s.namesDest p r = true) ∧
    ((s.record i).tExec ≠ 0 → (s.record p).tCdb ≠ 0 ∧ (s.record p).tCdb < (s.record i).tExec)

/-- The dependency law (R249). -/
abbrev State.DepInv (s : State) : Prop :=
  ∀ i ≤ s.size, s.DepInvOf i Operands.src0 (s.record i).dep0 ∧ s.DepInvOf i Operands.src1 (s.record i).dep1 ∧
    s.DepInvOf i Operands.src2 (s.record i).dep2

/-- Bus consistency (R248): the occupant broadcast in the cycle that just ended and is in no slot. -/
abbrev State.BusInv (s : State) : Prop :=
  ∀ i ∈ s.cdb, 1 ≤ i ∧ i ≤ s.size ∧ (s.record i).tCdb + 1 = s.cycle ∧
    i ∉ s.stationed ∧ i ∉ occupants s.fuInt ∧ i ∉ occupants s.fuFp

/-- No two records have the same broadcast stamp (R188). -/
abbrev State.BroadcastInv (s : State) : Prop :=
  ∀ i ≤ s.size, ∀ j ≤ s.size, (s.record i).tCdb ≠ 0 → (s.record i).tCdb = (s.record j).tCdb → i = j

/-- Where a consumed record is (R246, R234): a trap nowhere and without stamps; a branch queued or discarded with its
dispatch stamp; a record of a station class queued, in a station, or finished with all the stamps of its class. -/
abbrev State.ProgressInv (s : State) : Prop :=
  ∀ i ≤ s.fetchIndex, 1 ≤ i →
    (s.classHas OpClass.isTrap i = true → (s.record i).stamps = (0, 0, 0, 0)) ∧
      (s.classHas OpClass.isBranch i = true → i ∈ s.ifq ∨ (s.record i).tDisp ≠ 0) ∧
      (s.classHas (fun c => c.isInt || c.isFp) i = true →
        i ∈ s.ifq ∨ i ∈ s.stationed ∨
          ((s.record i).tExec ≠ 0 ∧ (s.classHas OpClass.writesResult i = true → (s.record i).tCdb ≠ 0)))

/-- Every map-table producer is live: in a station or on the bus (R237, for well-formed traces). -/
abbrev State.LiveMapInv (s : State) : Prop :=
  ∀ p ∈ occupants s.mapTable, p ∈ s.stationed ∨ s.cdb = some p

/-- Everything spec/47_invariants.md says of a state between two cycles of a run, whatever the trace. -/
abbrev State.PipelineInv (s : State) : Prop :=
  s.ShapeInv ∧ s.QueueInv ∧ s.FrontInv ∧ s.StationInv ∧ s.UnitInv ∧ s.StampInv ∧ s.ClassInv ∧ s.InOrderInv ∧
    s.MapInv ∧ s.DepInv ∧ s.BusInv ∧ s.BroadcastInv ∧ s.ProgressInv

end Sys2Proof.Machine
end

