-- ==== Sys2Proof/Certificates/Slice0/Obligations.lean ====
section
/-! DEFINITION. The statements for the provers. Each docstring names the rules of spec/ it formalises; OBLIGATIONS.json
says which of them the spec marks as its own decision or as derived (such a statement has basis 'derived'). A state "between
two cycles" is one that `step` takes and answers; `State.PipelineInv` (Sys2Proof/Safety.lean) rules out states that no
run reaches, and `Obligations.StepKeepsPipelineInvariant` says that it is kept. Of a state whose fatal mark is set no statement says more
than the mark and what R129 says of the cursor (R267, log entry 3). -/

open Sys2Proof Sys2Proof.Machine

namespace Sys2Proof.Machine

/-- Every field but the ones an action of a station or unit may write: the frame of allocation, release and broadcast. -/
abbrev SameFront (s t : State) : Prop :=
  t.cycle = s.cycle ∧ t.fetchIndex = s.fetchIndex ∧ t.mem.trace = s.mem.trace ∧
    t.mem.recs.length = s.mem.recs.length ∧ t.fatal = s.fatal ∧ t.visit = s.visit

/-- The whole effect of placing the queue head `h` in station `j` of group `g` (R145 to R148), with its frame. -/
abbrev AllocationEffect (g : Group) (o : Operands) (h j : Nat) (rest : List Nat) (s t : State) : Prop :=
  t.record h =
      { s.record h with
        dep0 := s.sourceProducer o.src0, dep1 := s.sourceProducer o.src1, dep2 := s.sourceProducer o.src2 } ∧
    (∀ i, i ≠ h → t.record i = s.record i) ∧
    (∀ r < s.nRegs, t.producer r = if o.dst0 = .reg r ∨ o.dst1 = .reg r then some h else s.producer r) ∧
    t.nRegs = s.nRegs ∧ t.stations g = (s.stations g).set j (some h) ∧ (∀ k, k ≠ g → t.stations k = s.stations k) ∧
    t.ifq = rest ∧ t.fuInt = s.fuInt ∧ t.fuFp = s.fuFp ∧ t.cdb = s.cdb ∧ SameFront s t

/-- Slot `k` after `i` has left a list of slots. -/
abbrev LeftSlots (i : Nat) (before after : List Ref) : Prop :=
  ∀ k : Nat, after[k]? = (before[k]?).map fun r => if r = some i then none else r

/-- The whole effect of an instruction leaving the slots of group `g` (R182), with its frame. -/
abbrev ReleaseEffect (g : Group) (i : Nat) (s t : State) : Prop :=
  LeftSlots i (s.stations g) (t.stations g) ∧ LeftSlots i (s.units g) (t.units g) ∧
    (∀ k, k ≠ g → t.stations k = s.stations k ∧ t.units k = s.units k) ∧
    t.ifq = s.ifq ∧ t.mapTable = s.mapTable ∧ SameFront s t

/-- The whole effect of winning the bus for an instruction of group `g` (R185), with its frame. -/
abbrev BroadcastEffect (g : Group) (w : Nat) (s t : State) : Prop :=
  t.record w = { s.record w with tCdb := s.cycle } ∧ (∀ i, i ≠ w → t.record i = s.record i) ∧ t.cdb = some w ∧
    ReleaseEffect g w s t

/-- A record arrives at an idle machine: it is the last of the trace, everything is empty, every group has a station and
a unit, and its operands are ready (the premises of R109). -/
abbrev ArrivesIdle (s : State) (i : Instr) : Prop :=
  s.fatal = none ∧ s.ShapeInv ∧ s.fetchIndex + 1 = s.size ∧ s.ifq = [] ∧ s.cdb = none ∧
    allFree s.rsInt = true ∧ allFree s.rsFp = true ∧ allFree s.fuInt = true ∧ allFree s.fuFp = true ∧
    s.rsInt ≠ [] ∧ s.rsFp ≠ [] ∧ s.fuInt ≠ [] ∧ s.fuFp ≠ [] ∧
    s.record s.size = RecordState.zero ∧ s.instrAt s.size = some i ∧
    s.sourceProducer i.operands.src0 = none ∧ s.sourceProducer i.operands.src1 = none ∧
    s.sourceProducer i.operands.src2 = none

end Sys2Proof.Machine

/-! ## Encoding (spec/30_encoding.md) -/

/-- R85: decoding the word of a well-formed record gives the record back, for every class and every operand. -/
def Obligations.DecodeAfterEncodeIsIdentity : Prop :=
  ∀ (nRegs : Nat) (i : Instr), nRegs ≤ 255 → i.wellFormed nRegs = true → decode nRegs (encode i) = .ok i

/-- R85: encoding what a well-formed word decodes to gives the word back; no bit of a word is ignored. -/
def Obligations.EncodeAfterDecodeIsIdentity : Prop :=
  ∀ (nRegs : Nat) (w : TraceWord) (i : Instr), nRegs ≤ 255 → decode nRegs w = .ok i → encode i = w

/-- R86: the decoder refuses a word exactly if its class code is 7, or its zero field is not zero, or one of its five
register fields `f` has `N_REGS <= f < 0xFF`. -/
def Obligations.DecoderRefusesExactlyIllFormedWords : Prop :=
  ∀ (nRegs : Nat) (w : TraceWord),
    (∃ e, decode nRegs w = .error e) ↔
      w.extractLsb' 45 3 = 7#3 ∨ w.extractLsb' 40 5 ≠ 0#5 ∨
        ∃ k < 5, nRegs ≤ (w.extractLsb' (8 * k) 8).toNat ∧ (w.extractLsb' (8 * k) 8).toNat < 255

/-- R84: the class codes, the reserved code, and the match values under the mask `0xFF0000000000`. -/
def Obligations.ClassCodesMatchTheTable : Prop :=
  decodeClass 7#3 = none ∧
    ∀ i : Instr,
      decodeClass (encodeClass i.cls) = some i.cls ∧
      encode i &&& 0xFF0000000000#48 =
        match i.cls with
        | .icomp => 0x000000000000#48
        | .fcomp => 0x200000000000#48
        | .load => 0x400000000000#48
        | .store => 0x600000000000#48
        | .jump => 0x800000000000#48
        | .branch => 0xA00000000000#48
        | .trap => 0xC00000000000#48

/-- R81, R84, R85: words of vector V20 of spec/95_test_vectors.md, one per class, decode to the records written beside them there. -/
def Obligations.SampleWordsDecodeToTheirRecords : Prop :=
  decode 64 0x003F001F3F00#48 = .ok (.icomp (.reg 0) (.reg 63) (.reg 0) (.reg 63) (.reg 31)) ∧
  decode 64 0x20FF24FF2022#48 = .ok (.fcomp (.reg 36) .noreg (.reg 34) (.reg 32) .noreg) ∧
  decode 64 0x402805FFFF28#48 = .ok (.load (.reg 5) (.reg 40) (.reg 40) .noreg .noreg) ∧
  decode 64 0x60FFFFFF0124#48 = .ok (.store .noreg .noreg (.reg 36) (.reg 1) .noreg) ∧
  decode 64 0x80FFFFFFFFFF#48 = .ok (.jump .noreg .noreg .noreg .noreg .noreg) ∧
  decode 64 0xA0FFFFFFFF01#48 = .ok (.branch .noreg .noreg (.reg 1) .noreg .noreg) ∧
  decode 64 0xC0FFFFFFFFFF#48 = .ok (.trap .noreg .noreg .noreg .noreg .noreg)

/-! ## Reset (spec/70_reset_and_hazards.md) -/

/-- R290: every state element after reset, for every configuration and trace. -/
def Obligations.ResetLeavesEverythingEmpty : Prop :=
  ∀ (p : Config.Params) (trace : List TraceWord),
    let s := State.resetWith p trace
    s.cycle = 1 ∧ s.fetchIndex = 0 ∧ s.ifq = [] ∧ (∀ r, s.producer r = none) ∧
      (∀ r ∈ s.rsInt ++ s.rsFp ++ s.fuInt ++ s.fuFp, r = none) ∧ s.cdb = none ∧
      s.rsInt.length = p.nRsInt ∧ s.rsFp.length = p.nRsFp ∧ s.fuInt.length = p.nFuInt ∧ s.fuFp.length = p.nFuFp ∧
      s.nRegs = p.nRegs ∧ s.size = trace.length ∧ s.mem.recs.length = trace.length ∧
      (∀ i, (s.record i).stamps = (0, 0, 0, 0) ∧
        (s.record i).dep0 = none ∧ (s.record i).dep1 = none ∧ (s.record i).dep2 = none) ∧
      s.fatal = none

/-- R291, R293: whatever a run has done, reset brings back the state it started from if that was a reset state: a second
run is unaffected by the first. -/
def Obligations.ResetAfterARunIsTheResetState : Prop :=
  ∀ (b n : Nat) (p : Config.Params) (trace : List TraceWord) (s : State),
    runSteps b n (State.resetWith p trace) = .next s → s.doReset = State.resetWith p trace

/-! ## The meanings at the fetch cursor (R127, R107) -/

/-- R127, R120: an `icomp`, `fcomp`, `load`, `store`, `jump` or `branch` at the fetch cursor is consumed and its index is
appended to the queue; nothing else changes. -/
def Obligations.NonTrapRecordIsEnqueued : Prop :=
  ∀ (i : Instr) (s : State), i.cls ≠ .trap → s.visit = .fetch → s.fetchIndex < s.size →
    exec i s = .next { s with fetchIndex := s.fetchIndex + 1, ifq := s.ifq ++ [s.fetchIndex + 1] }

/-- R107, R127: a `trap` at the fetch cursor is consumed and not enqueued; nothing else changes. -/
def Obligations.TrapRecordIsSkipped : Prop :=
  ∀ (d0 d1 s0 s1 s2 : RegId) (s : State), s.visit = .fetch → s.fetchIndex < s.size →
    exec (.trap d0 d1 s0 s1 s2) s = .next { s with fetchIndex := s.fetchIndex + 1 }

/-- R23, R129: advancing the cursor past the end of the trace is `Fatal(TraceOverrun)`, for every class. -/
def Obligations.CursorPastTheTraceIsFatal : Prop :=
  ∀ (i : Instr) (s : State), s.visit = .fetch → s.fatal = none → s.size ≤ s.fetchIndex →
    ∃ t, exec i s = .next t ∧ t.fatal = some .traceOverrun

/-! ## The meanings at the queue head (spec/42_dispatch.md) -/

/-- R144 to R148: `icomp`, `load` and `store` at the queue head take the first free integer station. -/
def Obligations.IntegerRecordIsAllocated : Prop :=
  ∀ (d0 d1 s0 s1 s2 : RegId) (s : State) (h : Nat) (rest : List Nat) (j : Nat),
    s.visit = .dispatch → s.ifq = h :: rest → 1 ≤ h → h ≤ s.mem.recs.length →
    s.rsInt[j]? = some none → (∀ k < j, s.rsInt[k]? ≠ some none) →
    ∀ i ∈ [Instr.icomp d0 d1 s0 s1 s2, .load d0 d1 s0 s1 s2, .store d0 d1 s0 s1 s2],
      ∃ t, exec i s = .next t ∧ AllocationEffect .int ⟨d0, d1, s0, s1, s2⟩ h j rest s t

/-- R143, R145 to R148: `fcomp` at the queue head takes the first free floating-point station. -/
def Obligations.FloatingPointRecordIsAllocated : Prop :=
  ∀ (d0 d1 s0 s1 s2 : RegId) (s : State) (h : Nat) (rest : List Nat) (j : Nat),
    s.visit = .dispatch → s.ifq = h :: rest → 1 ≤ h → h ≤ s.mem.recs.length →
    s.rsFp[j]? = some none → (∀ k < j, s.rsFp[k]? ≠ some none) →
    ∃ t, exec (.fcomp d0 d1 s0 s1 s2) s = .next t ∧ AllocationEffect .fp ⟨d0, d1, s0, s1, s2⟩ h j rest s t

/-- R147: an allocated instruction that names register `r` as a destination and in a source field depends there on the
previous producer of `r`, and becomes the producer of `r`. -/
def Obligations.CaptureComesBeforeRenaming : Prop :=
  ∀ (i : Instr) (s t : State) (g : Group) (h : Nat) (rest : List Nat) (r : Nat),
    s.visit = .dispatch → s.ifq = h :: rest → 1 ≤ h → h ≤ s.mem.recs.length → r < s.nRegs →
    (g = .fp → i.cls.isFp = true) → (g = .int → i.cls.isInt = true) → none ∈ s.stations g →
    i.operands.dst0 = .reg r ∨ i.operands.dst1 = .reg r → exec i s = .next t →
    (i.operands.src0 = .reg r → (t.record h).dep0 = s.producer r) ∧
      (i.operands.src1 = .reg r → (t.record h).dep1 = s.producer r) ∧
      (i.operands.src2 = .reg r → (t.record h).dep2 = s.producer r) ∧ t.producer r = some h

/-- R149: with every station of its group occupied the head stalls and nothing is written. -/
def Obligations.FullStationsStallTheHead : Prop :=
  ∀ (i : Instr) (s : State), s.visit = .dispatch →
    (i.cls.isInt = true ∧ none ∉ s.rsInt) ∨ (i.cls.isFp = true ∧ none ∉ s.rsFp) → exec i s = .next s

/-- R141: a `jump` or `branch` at the queue head is popped and nothing else changes. -/
def Obligations.BranchAtTheHeadIsDiscarded : Prop :=
  ∀ (d0 d1 s0 s1 s2 : RegId) (s : State) (h : Nat) (rest : List Nat), s.visit = .dispatch → s.ifq = h :: rest →
    exec (.jump d0 d1 s0 s1 s2) s = .next { s with ifq := rest } ∧
      exec (.branch d0 d1 s0 s1 s2) s = .next { s with ifq := rest }

/-- R150: a `trap` at the queue head is `Fatal(TrapAtHead)`; the mark is set if it was `NONE` and kept if not (R262). -/
def Obligations.TrapAtTheHeadIsFatal : Prop :=
  ∀ (d0 d1 s0 s1 s2 : RegId) (s : State), s.visit = .dispatch →
    ∃ t, exec (.trap d0 d1 s0 s1 s2) s = .next t ∧ (s.fatal = none → t.fatal = some .trapAtHead) ∧
      (s.fatal ≠ none → t.fatal = s.fatal)

/-! ## The meanings on completion and on winning the bus (spec/44_execute_cdb.md) -/

/-- R183, R186: a finished `icomp`, `fcomp` or `load` keeps its unit and its station. -/
def Obligations.FinishedWriterKeepsItsSlots : Prop :=
  ∀ (i : Instr) (s : State) (g : Group) (n : Nat), i.cls.writesResult = true → s.visit = .complete g n →
    exec i s = .next s

/-- R182: a finished `store` (and any class that writes no result) leaves its station and its unit; no timestamp, no bus,
no map-table entry is written. -/
def Obligations.FinishedNonWriterLeavesItsSlots : Prop :=
  ∀ (i : Instr) (s : State) (g : Group) (n : Nat), i.cls.writesResult = false → s.visit = .complete g n →
    ∃ t, exec i s = .next t ∧ ReleaseEffect g n s t ∧ t.mem = s.mem ∧ t.cdb = s.cdb

/-- R185, R190: the winner of the bus is stamped with the current cycle, put on the bus and removed from the slots of its
class's group. -/
def Obligations.BusWinnerIsStampedAndRemoved : Prop :=
  ∀ (d0 d1 s0 s1 s2 : RegId) (s : State) (w : Nat), s.visit = .broadcast w → 1 ≤ w → w ≤ s.mem.recs.length →
    (∀ i ∈ [Instr.icomp d0 d1 s0 s1 s2, .load d0 d1 s0 s1 s2],
      ∃ t, exec i s = .next t ∧ BroadcastEffect .int w s t) ∧
      ∃ t, exec (.fcomp d0 d1 s0 s1 s2) s = .next t ∧ BroadcastEffect .fp w s t

/-! ## The stages -/

/-- R200, R201, R203: retire clears exactly the map-table entries that still name the bus occupant, and the bus, if the
cycle is past its broadcast cycle; otherwise it does nothing. That every entry is examined is the spec's decision D29. -/
def Obligations.RetireClearsOnlyItsOwnMapEntries : Prop :=
  ∀ s : State,
    (∀ i, s.cdb = some i → (s.record i).tCdb + 1 ≤ s.cycle →
      ∃ m, cdbToRetire s = { s with mapTable := m, cdb := none } ∧ m.length = s.mapTable.length ∧
        ∀ r, (cdbToRetire s).producer r = if s.producer r = some i then none else s.producer r) ∧
      (∀ i, s.cdb = some i → s.cycle < (s.record i).tCdb + 1 → cdbToRetire s = s) ∧
      (s.cdb = none → cdbToRetire s = s)

/-- R182, R191: after the completion part of a group, every finished occupant that writes no result has left its unit
and its stations, and every other occupant of the units is still there; no timestamp, bus or map-table entry is written. -/
def Obligations.CompletionReleasesExactlyTheFinishedNonWriters : Prop :=
  ∀ (s t : State) (g : Group), completeGroup g s = .next t → t.fatal = none →
    (∀ i ∈ occupants (s.units g), s.finished g i = true → s.classHas OpClass.writesResult i = false →
      i ∉ occupants (t.units g) ∧ i ∉ occupants (t.stations g)) ∧
    (∀ i ∈ occupants (s.units g), ¬(s.finished g i = true ∧ s.classHas OpClass.writesResult i = false) →
      i ∈ occupants (t.units g)) ∧
    t.mem = s.mem ∧ t.cdb = s.cdb ∧ t.mapTable = s.mapTable

/-- R183 to R186: the candidates are the finished occupants of either group whose class writes a result; the one with the
lowest program-order index wins; it is stamped, on the bus, and out of the slots of its class; every loser keeps its unit
and its station and is stamped nothing; without a candidate nothing happens. That the winner leaves its slots in this stage is
the spec's decision D35. -/
def Obligations.OldestCandidateWinsTheBus : Prop :=
  ∀ s : State,
    (∀ i, i ∈ s.candidates ↔
      ∃ g, i ∈ occupants (s.units g) ∧ (s.record i).tExec + latency g ≤ s.cycle ∧
        s.classHas OpClass.writesResult i = true) ∧
    (∀ w, s.mem.wf → s.fatal = none → w ∈ s.candidates → (∀ i ∈ s.candidates, w ≤ i) →
      ∃ t, arbitrate s = .next t ∧ t.fatal = none ∧ t.cdb = some w ∧
        t.record w = { s.record w with tCdb := s.cycle } ∧
        (∀ i, i ≠ w → t.record i = s.record i) ∧ t.mapTable = s.mapTable ∧ t.ifq = s.ifq ∧
        (∀ g, ∀ i, i ≠ w → (i ∈ occupants (t.units g) ↔ i ∈ occupants (s.units g)) ∧
          (i ∈ occupants (t.stations g) ↔ i ∈ occupants (s.stations g))) ∧
        (∀ g, (g = .fp ↔ s.classHas OpClass.isFp w = true) →
          w ∉ occupants (t.units g) ∧ w ∉ occupants (t.stations g))) ∧
    (s.candidates = [] → arbitrate s = .next s)

/-- R161, R162: an occupant is eligible exactly if it is issued in an earlier cycle, has not started, and none of its
producers is outstanding: not broadcast yet, or broadcasting in this very cycle. Condition (a) is the spec's
decision D31. -/
def Obligations.EligibilityCondition : Prop :=
  ∀ (s : State) (i : Nat),
    s.eligible i = true ↔
      (s.record i).tIssue ≠ 0 ∧ (s.record i).tIssue < s.cycle ∧ (s.record i).tExec = 0 ∧
        ∀ p ∈ (s.record i).deps, (s.record p).tCdb ≠ 0 ∧ (s.record p).tCdb ≠ s.cycle

/-- R160, R163, R164, R169: a free unit takes the oldest eligible occupant of the stations of its own group, which is
stamped and keeps its station; with none eligible, or in an occupied unit, nothing happens. -/
def Obligations.FreeUnitTakesTheOldestEligible : Prop :=
  ∀ (g : Group) (s : State) (k : Nat),
    (∀ i, (s.units g)[k]? = some none → s.mem.holds i → some i ∈ s.stations g → s.eligible i = true →
      (∀ j, some j ∈ s.stations g → s.eligible j = true → i ≤ j) →
      let t := issueSlot g s k
      t.units g = (s.units g).set k (some i) ∧ t.record i = { s.record i with tExec := s.cycle } ∧
        (∀ j, j ≠ i → t.record j = s.record j) ∧ t.rsInt = s.rsInt ∧ t.rsFp = s.rsFp ∧
        (∀ l, l ≠ g → t.units l = s.units l) ∧ t.mapTable = s.mapTable ∧ t.ifq = s.ifq ∧ t.cdb = s.cdb ∧
        SameFront s t) ∧
    ((∀ i, some i ∈ s.stations g → s.eligible i = false) → issueSlot g s k = s) ∧
    ((s.units g)[k]? ≠ some none → issueSlot g s k = s)

/-- R151: the stamping part of dispatch stamps exactly the station occupants whose issue timestamp is unset. -/
def Obligations.UnstampedOccupantsGetTheIssueStamp : Prop :=
  ∀ (s : State) (i : Nat), s.mem.holds i →
    (stampIssue s).record i =
      if i ∈ s.stationed ∧ (s.record i).tIssue = 0 then { s.record i with tIssue := s.cycle } else s.record i

/-- R127, R128: past `k` traps the fetch part pushes the first record that is no trap, and only that one, all in one
cycle. That the loop stays within the cycle is the spec's decision D9. -/
def Obligations.FetchSkipsTrapsWithinTheCycle : Prop :=
  ∀ (b : Nat) (s : State) (k : Nat), s.fatal = none → s.visit = .fetch → s.fetchGuard b = true →
    (∀ i, s.fetchIndex < i → i ≤ s.fetchIndex + k → s.classHas OpClass.isTrap i = true) →
    s.classHas (fun c => !c.isTrap) (s.fetchIndex + k + 1) = true →
    fetchPart b s =
      .next { s with fetchIndex := s.fetchIndex + k + 1, ifq := s.ifq ++ [s.fetchIndex + k + 1] }

/-- R129: if only traps are left, the skip runs off the trace: `Fatal(TraceOverrun)`, leaving
`fetch_index = N`. -/
def Obligations.TrailingTrapIsFatal : Prop :=
  ∀ (b : Nat) (s : State), s.fatal = none → s.visit = .fetch → s.fetchGuard b = true →
    (∀ i, s.fetchIndex < i → i ≤ s.size → s.classHas OpClass.isTrap i = true) →
    ∃ t, fetchToDispatch b s = .next t ∧ t.fatal = some .traceOverrun ∧ t.fetchIndex = s.size

/-- R130, R131: the stamping part of fetch stamps the head of the queue if its dispatch timestamp is unset, and nothing
else. -/
def Obligations.QueueHeadGetsTheDispatchStamp : Prop :=
  ∀ (s : State) (i : Nat), s.mem.holds i →
    (stampHead s).record i =
      (if s.ifq.head? = some i ∧ (s.record i).tDisp = 0 then { s.record i with tDisp := s.cycle } else s.record i) ∧
    ∃ m, stampHead s = { s with mem := m } ∧ m.trace = s.mem.trace ∧ m.recs.length = s.mem.recs.length

/-! ## The step (spec/46_driver.md) -/

/-- A step runs the decoded instruction: where stages 1 to 4 leave `t`, the fetch guard holds and the record at the
cursor decodes to `i`, the step is `exec i t`, then (after a trap) the rest of the fetch loop, the stamp of the head, and
the increment of the counter (R210, R212, R127, R130). -/
def Obligations.StepRunsTheFetchedInstruction : Prop :=
  ∀ (s t u : State) (i : Instr), s.fatal = none → s.ended = false → stagesBeforeFetch s = .next t →
    t.fatal = none → t.visit = .fetch → t.fetchGuard Config.ifqBound = true →
    s.traceRead (s.fetchIndex + 1) = some (.ok i) → i.wellFormed s.nRegs = true → exec i t = .next u →
    (i.cls ≠ .trap → step s = .next (stampHead u).tick) ∧
      (i.cls = .trap →
        step s =
          thenStage (thenStage (fetchLoop (u.size - u.fetchIndex) u) fun v => .next (stampHead v)) fun v =>
            .next v.tick)

/-- The dispatch stage runs the instruction at the queue head: `exec` at the visit `.dispatch`, then the stamping part
(R140, R151); a fatal condition raised there is the stage's (R262). -/
def Obligations.DispatchRunsTheHeadInstruction : Prop :=
  ∀ (s u : State) (h : Nat) (i : Instr), s.visit = .fetch → s.ifq.head? = some h →
    s.traceRead h = some (.ok i) → exec i { s with visit := .dispatch } = .next u →
    (u.fatal = none → dispatchToIssue s = .next (stampIssue { u with visit := .fetch })) ∧
      (u.fatal ≠ none → ∃ v, dispatchToIssue s = .next v ∧ v.fatal = u.fatal)

/-- R86: a step that would fetch an ill-formed word is refused. The spec says only that "a model says nothing about it";
that the refusal comes when a stage reads the word is the model's choice (log entry 7). -/
def Obligations.IllFormedRecordIsRefused : Prop :=
  ∀ (s t : State) (e : DecodeError), s.fatal = none → s.ended = false → stagesBeforeFetch s = .next t →
    t.fatal = none → t.fetchGuard Config.ifqBound = true → s.traceRead (s.fetchIndex + 1) = some (.error e) →
    step s = .refused (.illFormedRecord (s.fetchIndex + 1) e)

/-- R39, R262: a state whose fatal mark is set takes no step. -/
def Obligations.FatalStateTakesNoStep : Prop :=
  ∀ (s : State) (r : FatalReason), s.fatal = some r → step s = .fault (.fatalState r)

/-- R213: the termination predicate, exactly. -/
def Obligations.TerminationPredicate : Prop :=
  ∀ s : State,
    s.done = true ↔
      (∀ r ∈ s.rsInt, r = none) ∧ (∀ r ∈ s.rsFp, r = none) ∧ (∀ r ∈ s.fuInt, r = none) ∧
        (∀ r ∈ s.fuFp, r = none) ∧ s.ifq.length = 0 ∧ s.cdb = none ∧ s.fetchIndex = s.size

/-- R212, R214: a cycle that is not fatal increments the counter by one; when the run has ended (`done` after a cycle) the
step leaves the state as it is (the model's choice, log entry 1), and the count it returns is then `cycle`. -/
def Obligations.CycleCounterCountsCycles : Prop :=
  ∀ s t : State, step s = .next t →
    (s.ended = true → t = s ∧ s.returnedCount = some s.cycle) ∧
      (s.ended = false → t.fatal = none → t.cycle = s.cycle + 1)

/-- R214: the empty trace runs one cycle and returns 2, in every configuration. That an ended run stays as it is, so that
further steps change nothing, is the model's choice (log entry 1). -/
def Obligations.EmptyTraceReturnsTwo : Prop :=
  ∀ (p : Config.Params) (n : Nat), run p [] (n + 1) = some (2, [])

/-- R43, R72: no step changes the trace, its length or the parameters. -/
def Obligations.StepKeepsTheInputs : Prop :=
  ∀ s t : State, step s = .next t → SameInputs s t

/-- R300, R125, R128: in one step at most the head leaves the queue, at most one record enters it, behind the
others, and that record is the one the cursor has reached; the cursor never moves back. -/
def Obligations.QueueMovesInOrder : Prop :=
  ∀ s t : State, step s = .next t → t.fatal = none →
    s.fetchIndex ≤ t.fetchIndex ∧
      ∃ new : List Nat, (new = [] ∨ (new = [t.fetchIndex] ∧ s.fetchIndex < t.fetchIndex)) ∧
        (t.ifq = s.ifq ++ new ∨ t.ifq = s.ifq.tail ++ new)

/-- R189: no step gives a store a broadcast timestamp. -/
def Obligations.StoreIsNeverBroadcast : Prop :=
  ∀ (s t : State) (i : Nat), step s = .next t → t.fatal = none → s.classHas (· == .store) i = true →
    (t.record i).tCdb = (s.record i).tCdb

/-! ## Invariants (spec/47_invariants.md) -/

/-- R290, R230: every reset state has the invariant. -/
def Obligations.ResetHasPipelineInvariant : Prop :=
  ∀ (p : Config.Params) (trace : List TraceWord), (State.resetWith p trace).PipelineInv

/-- R26, R246: the shape of the fetch queue is kept by every step, and needs no other invariant. -/
def Obligations.StepKeepsQueueShape : Prop :=
  ∀ s t : State, s.QueueInv → step s = .next t → t.fatal = none → t.QueueInv

/-- R231, R232: station and unit occupancy is kept by every step. -/
def Obligations.StepKeepsSlotOccupancy : Prop :=
  ∀ s t : State, s.PipelineInv → step s = .next t → t.fatal = none → t.StationInv ∧ t.UnitInv

/-- R233: the order of the stamps of every record is kept by every step. -/
def Obligations.StepKeepsStampOrder : Prop :=
  ∀ s t : State, s.PipelineInv → step s = .next t → t.fatal = none → t.StampInv

/-- R243, R246: the in-order front end and the timestamps of queued and unfetched records are kept by every step. -/
def Obligations.StepKeepsFrontEndOrder : Prop :=
  ∀ s t : State, s.PipelineInv → step s = .next t → t.fatal = none → t.FrontInv ∧ t.InOrderInv

/-- R237, R249: map-table well-formedness and the dependency law are kept by every step. -/
def Obligations.StepKeepsMapAndDependencyLaw : Prop :=
  ∀ s t : State, s.PipelineInv → step s = .next t → t.fatal = none → t.MapInv ∧ t.DepInv

/-- R248, R188: bus consistency and the uniqueness of broadcast stamps are kept by every step. -/
def Obligations.StepKeepsBusConsistency : Prop :=
  ∀ s t : State, s.PipelineInv → step s = .next t → t.fatal = none → t.BusInv ∧ t.BroadcastInv

/-- R231, R232, R233, R237, R243, R246, R248, R249: the structural invariants and timestamp laws of
spec/47_invariants.md, as `State.PipelineInv` collects them for a trace of any kind, are kept by every step. A fatal cycle
is abandoned half-way (R267), so its state is none of them. -/
def Obligations.StepKeepsPipelineInvariant : Prop :=
  ∀ s t : State, s.PipelineInv → step s = .next t → t.fatal = none → t.PipelineInv

/-- R237: in a run of a well-formed trace every map-table producer stays live. -/
def Obligations.StepKeepsMapProducersLive : Prop :=
  ∀ s t : State, s.PipelineInv → s.traceOk = true → s.LiveMapInv → step s = .next t → t.fatal = none → t.LiveMapInv

/-! ## What follows for a step and for a run -/

/-- R187: the bus is empty when the execute-to-CDB stage runs. -/
def Obligations.BusIsEmptyAfterRetire : Prop :=
  ∀ s : State, s.PipelineInv → (cdbToRetire s).cdb = none

/-- R168: an instruction that starts execution starts at least one cycle after the broadcast of each of its producers. -/
def Obligations.NoSameCycleForwarding : Prop :=
  ∀ (s t : State) (i : Nat), s.PipelineInv → step s = .next t → t.fatal = none → (s.record i).tExec = 0 → (t.record i).tExec ≠ 0 →
    ∀ p ∈ (t.record i).deps, (t.record p).tCdb ≠ 0 ∧ (t.record p).tCdb + 1 ≤ (t.record i).tExec

/-- R262, R150, R129: the only fatal condition a step can raise from a state with the pipeline invariant is
`TraceOverrun`, and only if the last record of the trace is a trap. -/
def Obligations.OnlyATrailingTrapIsFatal : Prop :=
  ∀ s t : State, s.PipelineInv → step s = .next t → t.fatal ≠ none →
    t.fatal = some .traceOverrun ∧ s.classHas OpClass.isTrap s.size = true

/-- R217: on a trace of well-formed records the step answers a next state, from every state that is not fatal and has the
pipeline invariant. -/
def Obligations.StepAnswersOnWellFormedRecords : Prop :=
  ∀ s : State, s.PipelineInv → s.fatal = none →
    (∀ i, 1 ≤ i → i ≤ s.size → ∃ instr, s.traceRead i = some (.ok instr)) → ∃ t, step s = .next t

/-- R234: when the termination predicate holds, every record has the stamps of its class and no other. -/
def Obligations.FinalStampsByClass : Prop :=
  ∀ (s : State) (i : Nat), s.PipelineInv → s.done = true → 1 ≤ i → i ≤ s.size →
    let r := s.record i
    (s.classHas OpClass.writesResult i = true → r.tDisp ≠ 0 ∧ r.tIssue ≠ 0 ∧ r.tExec ≠ 0 ∧ r.tCdb ≠ 0) ∧
      (s.classHas (· == .store) i = true → r.tDisp ≠ 0 ∧ r.tIssue ≠ 0 ∧ r.tExec ≠ 0 ∧ r.tCdb = 0) ∧
      (s.classHas OpClass.isBranch i = true → r.tDisp ≠ 0 ∧ r.tIssue = 0 ∧ r.tExec = 0 ∧ r.tCdb = 0) ∧
      (s.classHas OpClass.isTrap i = true → r.stamps = (0, 0, 0, 0))

/-- R236: at the end of a run of a well-formed trace the map table is all `NULL`. -/
def Obligations.MapTableConverges : Prop :=
  ∀ (p : Config.Params) (trace : List TraceWord) (n : Nat) (s : State), traceWellFormed p.nRegs trace = true →
    runSteps Config.ifqBound n (State.resetWith p trace) = .next s → s.done = true → ∀ r, s.producer r = none

/-- R307, R170: a record that has captured a store as producer never starts and never leaves its station, and the run
never ends. -/
def Obligations.ReaderOfAStoreDestinationHangs : Prop :=
  ∀ (s : State) (i p : Nat), s.PipelineInv → i ∈ s.stationed → p ∈ (s.record i).deps →
    s.classHas (· == .store) p = true →
    ∀ (n : Nat) (t : State), runSteps Config.ifqBound n s = .next t → t.fatal = none →
      i ∈ t.stationed ∧ (t.record i).tExec = 0 ∧ t.ended = false

/-- R133: on a trace of well-formed records whose last is no trap, the bound of the fetch queue shows in no timestamp, no
dependency array, not in the cycle counter and not in the returned count, after any number of steps. -/
def Obligations.QueueDepthIsUnobservable : Prop :=
  ∀ (p : Config.Params) (trace : List TraceWord) (b c n : Nat) (s t : State),
    (∀ w ∈ trace, ∃ i, decode p.nRegs w = .ok i) → lastNoTrap p.nRegs trace = true →
    runSteps b n (State.resetWith p trace) = .next s → runSteps c n (State.resetWith p trace) = .next t →
    s.mem = t.mem ∧ s.cycle = t.cycle ∧ s.returnedCount = t.returnedCount

/-- R244: every run of a well-formed trace from reset terminates and is not fatal. -/
def Obligations.WellFormedTraceTerminates : Prop :=
  ∀ (p : Config.Params) (trace : List TraceWord), p.wellFormed = true → traceWellFormed p.nRegs trace = true →
    ∃ (n : Nat) (s : State), runSteps Config.ifqBound n (State.resetWith p trace) = .next s ∧ s.fatal = none ∧
      s.ended = true

/-- R109, R101 to R103: an `icomp`, `fcomp` or `load` that arrives at an idle machine in cycle `f` is stamped
`f, f+1, f+2, f+2+L`, and the run ends with the count `f+4+L`. -/
def Obligations.UnobstructedTimelineOfAResultWriter : Prop :=
  ∀ (s : State) (i : Instr), ArrivesIdle s i → i.cls.writesResult = true →
    let L := if i.cls.isFp = true then 9 else 4
    ∃ t, runSteps Config.ifqBound (4 + L) s = .next t ∧ t.returnedCount = some (s.cycle + 4 + L) ∧
      (t.record s.size).stamps = (s.cycle, s.cycle + 1, s.cycle + 2, s.cycle + 2 + L)

/-- R109, R104: a `store` that arrives at an idle machine in cycle `f` is stamped `f, f+1, f+2`, never broadcast, and
the run ends with the count `f+7`. -/
def Obligations.UnobstructedTimelineOfAStore : Prop :=
  ∀ (s : State) (i : Instr), ArrivesIdle s i → i.cls = .store →
    ∃ t, runSteps Config.ifqBound 7 s = .next t ∧ t.returnedCount = some (s.cycle + 7) ∧
      (t.record s.size).stamps = (s.cycle, s.cycle + 1, s.cycle + 2, 0)

/-- R105, R106: a `jump` or `branch` that arrives at an idle machine in cycle `f` is stamped `f` and
nothing else, and the run ends with the count `f+2`. -/
def Obligations.UnobstructedTimelineOfABranch : Prop :=
  ∀ (s : State) (i : Instr), ArrivesIdle s i → i.cls.isBranch = true →
    ∃ t, runSteps Config.ifqBound 2 s = .next t ∧ t.returnedCount = some (s.cycle + 2) ∧
      (t.record s.size).stamps = (s.cycle, 0, 0, 0)
end

