-- ==== Sys2Proof/Laws/State.lean ====
section
/-! SUPPORT. One lemma per field and update: what each named operation on the state leaves as it was. -/

namespace Sys2Proof.Machine

/-! ### setStations -/

@[simp] theorem setStations_cycle (s : State) (g : Group) (l : List Ref) : (s.setStations g l).cycle = s.cycle := by cases g <;> rfl

@[simp] theorem setStations_fetchIndex (s : State) (g : Group) (l : List Ref) : (s.setStations g l).fetchIndex = s.fetchIndex := by cases g <;> rfl

@[simp] theorem setStations_ifq (s : State) (g : Group) (l : List Ref) : (s.setStations g l).ifq = s.ifq := by cases g <;> rfl

@[simp] theorem setStations_mapTable (s : State) (g : Group) (l : List Ref) : (s.setStations g l).mapTable = s.mapTable := by cases g <;> rfl

@[simp] theorem setStations_fuInt (s : State) (g : Group) (l : List Ref) : (s.setStations g l).fuInt = s.fuInt := by cases g <;> rfl

@[simp] theorem setStations_fuFp (s : State) (g : Group) (l : List Ref) : (s.setStations g l).fuFp = s.fuFp := by cases g <;> rfl

@[simp] theorem setStations_cdb (s : State) (g : Group) (l : List Ref) : (s.setStations g l).cdb = s.cdb := by cases g <;> rfl

@[simp] theorem setStations_fatal (s : State) (g : Group) (l : List Ref) : (s.setStations g l).fatal = s.fatal := by cases g <;> rfl

@[simp] theorem setStations_visit (s : State) (g : Group) (l : List Ref) : (s.setStations g l).visit = s.visit := by cases g <;> rfl

@[simp] theorem setStations_mem (s : State) (g : Group) (l : List Ref) : (s.setStations g l).mem = s.mem := by cases g <;> rfl

/-! ### setUnits -/

@[simp] theorem setUnits_cycle (s : State) (g : Group) (l : List Ref) : (s.setUnits g l).cycle = s.cycle := by cases g <;> rfl

@[simp] theorem setUnits_fetchIndex (s : State) (g : Group) (l : List Ref) : (s.setUnits g l).fetchIndex = s.fetchIndex := by cases g <;> rfl

@[simp] theorem setUnits_ifq (s : State) (g : Group) (l : List Ref) : (s.setUnits g l).ifq = s.ifq := by cases g <;> rfl

@[simp] theorem setUnits_mapTable (s : State) (g : Group) (l : List Ref) : (s.setUnits g l).mapTable = s.mapTable := by cases g <;> rfl

@[simp] theorem setUnits_rsInt (s : State) (g : Group) (l : List Ref) : (s.setUnits g l).rsInt = s.rsInt := by cases g <;> rfl

@[simp] theorem setUnits_rsFp (s : State) (g : Group) (l : List Ref) : (s.setUnits g l).rsFp = s.rsFp := by cases g <;> rfl

@[simp] theorem setUnits_cdb (s : State) (g : Group) (l : List Ref) : (s.setUnits g l).cdb = s.cdb := by cases g <;> rfl

@[simp] theorem setUnits_fatal (s : State) (g : Group) (l : List Ref) : (s.setUnits g l).fatal = s.fatal := by cases g <;> rfl

@[simp] theorem setUnits_visit (s : State) (g : Group) (l : List Ref) : (s.setUnits g l).visit = s.visit := by cases g <;> rfl

@[simp] theorem setUnits_mem (s : State) (g : Group) (l : List Ref) : (s.setUnits g l).mem = s.mem := by cases g <;> rfl

/-! ### updateRecord -/

@[simp] theorem updateRecord_cycle (s : State) (i : Nat) (f : RecordState → RecordState) : (s.updateRecord i f).cycle = s.cycle := rfl

@[simp] theorem updateRecord_fetchIndex (s : State) (i : Nat) (f : RecordState → RecordState) : (s.updateRecord i f).fetchIndex = s.fetchIndex := rfl

@[simp] theorem updateRecord_ifq (s : State) (i : Nat) (f : RecordState → RecordState) : (s.updateRecord i f).ifq = s.ifq := rfl

@[simp] theorem updateRecord_mapTable (s : State) (i : Nat) (f : RecordState → RecordState) : (s.updateRecord i f).mapTable = s.mapTable := rfl

@[simp] theorem updateRecord_rsInt (s : State) (i : Nat) (f : RecordState → RecordState) : (s.updateRecord i f).rsInt = s.rsInt := rfl

@[simp] theorem updateRecord_rsFp (s : State) (i : Nat) (f : RecordState → RecordState) : (s.updateRecord i f).rsFp = s.rsFp := rfl

@[simp] theorem updateRecord_fuInt (s : State) (i : Nat) (f : RecordState → RecordState) : (s.updateRecord i f).fuInt = s.fuInt := rfl

@[simp] theorem updateRecord_fuFp (s : State) (i : Nat) (f : RecordState → RecordState) : (s.updateRecord i f).fuFp = s.fuFp := rfl

@[simp] theorem updateRecord_cdb (s : State) (i : Nat) (f : RecordState → RecordState) : (s.updateRecord i f).cdb = s.cdb := rfl

@[simp] theorem updateRecord_fatal (s : State) (i : Nat) (f : RecordState → RecordState) : (s.updateRecord i f).fatal = s.fatal := rfl

@[simp] theorem updateRecord_visit (s : State) (i : Nat) (f : RecordState → RecordState) : (s.updateRecord i f).visit = s.visit := rfl

/-! ### rename -/

@[simp] theorem rename_cycle (s : State) (h : Nat) (d : RegId) : (s.rename h d).cycle = s.cycle := by cases d <;> rfl

@[simp] theorem rename_fetchIndex (s : State) (h : Nat) (d : RegId) : (s.rename h d).fetchIndex = s.fetchIndex := by cases d <;> rfl

@[simp] theorem rename_ifq (s : State) (h : Nat) (d : RegId) : (s.rename h d).ifq = s.ifq := by cases d <;> rfl

@[simp] theorem rename_rsInt (s : State) (h : Nat) (d : RegId) : (s.rename h d).rsInt = s.rsInt := by cases d <;> rfl

@[simp] theorem rename_rsFp (s : State) (h : Nat) (d : RegId) : (s.rename h d).rsFp = s.rsFp := by cases d <;> rfl

@[simp] theorem rename_fuInt (s : State) (h : Nat) (d : RegId) : (s.rename h d).fuInt = s.fuInt := by cases d <;> rfl

@[simp] theorem rename_fuFp (s : State) (h : Nat) (d : RegId) : (s.rename h d).fuFp = s.fuFp := by cases d <;> rfl

@[simp] theorem rename_cdb (s : State) (h : Nat) (d : RegId) : (s.rename h d).cdb = s.cdb := by cases d <;> rfl

@[simp] theorem rename_fatal (s : State) (h : Nat) (d : RegId) : (s.rename h d).fatal = s.fatal := by cases d <;> rfl

@[simp] theorem rename_visit (s : State) (h : Nat) (d : RegId) : (s.rename h d).visit = s.visit := by cases d <;> rfl

@[simp] theorem rename_mem (s : State) (h : Nat) (d : RegId) : (s.rename h d).mem = s.mem := by cases d <;> rfl

/-! ### raiseFatal -/

@[simp] theorem raiseFatal_cycle (s : State) (r : FatalReason) : (s.raiseFatal r).cycle = s.cycle := rfl

@[simp] theorem raiseFatal_fetchIndex (s : State) (r : FatalReason) : (s.raiseFatal r).fetchIndex = s.fetchIndex := rfl

@[simp] theorem raiseFatal_ifq (s : State) (r : FatalReason) : (s.raiseFatal r).ifq = s.ifq := rfl

@[simp] theorem raiseFatal_mapTable (s : State) (r : FatalReason) : (s.raiseFatal r).mapTable = s.mapTable := rfl

@[simp] theorem raiseFatal_rsInt (s : State) (r : FatalReason) : (s.raiseFatal r).rsInt = s.rsInt := rfl

@[simp] theorem raiseFatal_rsFp (s : State) (r : FatalReason) : (s.raiseFatal r).rsFp = s.rsFp := rfl

@[simp] theorem raiseFatal_fuInt (s : State) (r : FatalReason) : (s.raiseFatal r).fuInt = s.fuInt := rfl

@[simp] theorem raiseFatal_fuFp (s : State) (r : FatalReason) : (s.raiseFatal r).fuFp = s.fuFp := rfl

@[simp] theorem raiseFatal_cdb (s : State) (r : FatalReason) : (s.raiseFatal r).cdb = s.cdb := rfl

@[simp] theorem raiseFatal_visit (s : State) (r : FatalReason) : (s.raiseFatal r).visit = s.visit := rfl

@[simp] theorem raiseFatal_mem (s : State) (r : FatalReason) : (s.raiseFatal r).mem = s.mem := rfl

/-! ### captureDeps -/

@[simp] theorem captureDeps_cycle (s : State) (h : Nat) (o : Operands) : (s.captureDeps h o).cycle = s.cycle := rfl

@[simp] theorem captureDeps_fetchIndex (s : State) (h : Nat) (o : Operands) : (s.captureDeps h o).fetchIndex = s.fetchIndex := rfl

@[simp] theorem captureDeps_ifq (s : State) (h : Nat) (o : Operands) : (s.captureDeps h o).ifq = s.ifq := rfl

@[simp] theorem captureDeps_mapTable (s : State) (h : Nat) (o : Operands) : (s.captureDeps h o).mapTable = s.mapTable := rfl

@[simp] theorem captureDeps_rsInt (s : State) (h : Nat) (o : Operands) : (s.captureDeps h o).rsInt = s.rsInt := rfl

@[simp] theorem captureDeps_rsFp (s : State) (h : Nat) (o : Operands) : (s.captureDeps h o).rsFp = s.rsFp := rfl

@[simp] theorem captureDeps_fuInt (s : State) (h : Nat) (o : Operands) : (s.captureDeps h o).fuInt = s.fuInt := rfl

@[simp] theorem captureDeps_fuFp (s : State) (h : Nat) (o : Operands) : (s.captureDeps h o).fuFp = s.fuFp := rfl

@[simp] theorem captureDeps_cdb (s : State) (h : Nat) (o : Operands) : (s.captureDeps h o).cdb = s.cdb := rfl

@[simp] theorem captureDeps_fatal (s : State) (h : Nat) (o : Operands) : (s.captureDeps h o).fatal = s.fatal := rfl

@[simp] theorem captureDeps_visit (s : State) (h : Nat) (o : Operands) : (s.captureDeps h o).visit = s.visit := rfl

/-! ### renameDests -/

@[simp] theorem renameDests_cycle (s : State) (h : Nat) (o : Operands) : (s.renameDests h o).cycle = s.cycle := by simp [State.renameDests]

@[simp] theorem renameDests_fetchIndex (s : State) (h : Nat) (o : Operands) : (s.renameDests h o).fetchIndex = s.fetchIndex := by simp [State.renameDests]

@[simp] theorem renameDests_ifq (s : State) (h : Nat) (o : Operands) : (s.renameDests h o).ifq = s.ifq := by simp [State.renameDests]

@[simp] theorem renameDests_rsInt (s : State) (h : Nat) (o : Operands) : (s.renameDests h o).rsInt = s.rsInt := by simp [State.renameDests]

@[simp] theorem renameDests_rsFp (s : State) (h : Nat) (o : Operands) : (s.renameDests h o).rsFp = s.rsFp := by simp [State.renameDests]

@[simp] theorem renameDests_fuInt (s : State) (h : Nat) (o : Operands) : (s.renameDests h o).fuInt = s.fuInt := by simp [State.renameDests]

@[simp] theorem renameDests_fuFp (s : State) (h : Nat) (o : Operands) : (s.renameDests h o).fuFp = s.fuFp := by simp [State.renameDests]

@[simp] theorem renameDests_cdb (s : State) (h : Nat) (o : Operands) : (s.renameDests h o).cdb = s.cdb := by simp [State.renameDests]

@[simp] theorem renameDests_fatal (s : State) (h : Nat) (o : Operands) : (s.renameDests h o).fatal = s.fatal := by simp [State.renameDests]

@[simp] theorem renameDests_visit (s : State) (h : Nat) (o : Operands) : (s.renameDests h o).visit = s.visit := by simp [State.renameDests]

@[simp] theorem renameDests_mem (s : State) (h : Nat) (o : Operands) : (s.renameDests h o).mem = s.mem := by simp [State.renameDests]

/-! ### releaseSlots -/

@[simp] theorem releaseSlots_cycle (s : State) (g : Group) (i : Nat) : (s.releaseSlots g i).cycle = s.cycle := by simp [State.releaseSlots]

@[simp] theorem releaseSlots_fetchIndex (s : State) (g : Group) (i : Nat) : (s.releaseSlots g i).fetchIndex = s.fetchIndex := by simp [State.releaseSlots]

@[simp] theorem releaseSlots_ifq (s : State) (g : Group) (i : Nat) : (s.releaseSlots g i).ifq = s.ifq := by simp [State.releaseSlots]

@[simp] theorem releaseSlots_mapTable (s : State) (g : Group) (i : Nat) : (s.releaseSlots g i).mapTable = s.mapTable := by simp [State.releaseSlots]

@[simp] theorem releaseSlots_cdb (s : State) (g : Group) (i : Nat) : (s.releaseSlots g i).cdb = s.cdb := by simp [State.releaseSlots]

@[simp] theorem releaseSlots_fatal (s : State) (g : Group) (i : Nat) : (s.releaseSlots g i).fatal = s.fatal := by simp [State.releaseSlots]

@[simp] theorem releaseSlots_visit (s : State) (g : Group) (i : Nat) : (s.releaseSlots g i).visit = s.visit := by simp [State.releaseSlots]

@[simp] theorem releaseSlots_mem (s : State) (g : Group) (i : Nat) : (s.releaseSlots g i).mem = s.mem := by simp [State.releaseSlots]

/-! ### discardHead -/

@[simp] theorem discardHead_cycle (s : State) : (s.discardHead).cycle = s.cycle := rfl

@[simp] theorem discardHead_fetchIndex (s : State) : (s.discardHead).fetchIndex = s.fetchIndex := rfl

@[simp] theorem discardHead_mapTable (s : State) : (s.discardHead).mapTable = s.mapTable := rfl

@[simp] theorem discardHead_rsInt (s : State) : (s.discardHead).rsInt = s.rsInt := rfl

@[simp] theorem discardHead_rsFp (s : State) : (s.discardHead).rsFp = s.rsFp := rfl

@[simp] theorem discardHead_fuInt (s : State) : (s.discardHead).fuInt = s.fuInt := rfl

@[simp] theorem discardHead_fuFp (s : State) : (s.discardHead).fuFp = s.fuFp := rfl

@[simp] theorem discardHead_cdb (s : State) : (s.discardHead).cdb = s.cdb := rfl

@[simp] theorem discardHead_fatal (s : State) : (s.discardHead).fatal = s.fatal := rfl

@[simp] theorem discardHead_visit (s : State) : (s.discardHead).visit = s.visit := rfl

@[simp] theorem discardHead_mem (s : State) : (s.discardHead).mem = s.mem := rfl

/-! ### broadcast -/

@[simp] theorem broadcast_cycle (s : State) (g : Group) (i : Nat) : (s.broadcast g i).cycle = s.cycle := by simp [State.broadcast]

@[simp] theorem broadcast_fetchIndex (s : State) (g : Group) (i : Nat) : (s.broadcast g i).fetchIndex = s.fetchIndex := by simp [State.broadcast]

@[simp] theorem broadcast_ifq (s : State) (g : Group) (i : Nat) : (s.broadcast g i).ifq = s.ifq := by simp [State.broadcast]

@[simp] theorem broadcast_mapTable (s : State) (g : Group) (i : Nat) : (s.broadcast g i).mapTable = s.mapTable := by simp [State.broadcast]

@[simp] theorem broadcast_fatal (s : State) (g : Group) (i : Nat) : (s.broadcast g i).fatal = s.fatal := by simp [State.broadcast]

@[simp] theorem broadcast_visit (s : State) (g : Group) (i : Nat) : (s.broadcast g i).visit = s.visit := by simp [State.broadcast]

/-! ### assignUnit -/

@[simp] theorem assignUnit_cycle (s : State) (g : Group) (k i : Nat) : (s.assignUnit g k i).cycle = s.cycle := by simp [State.assignUnit]

@[simp] theorem assignUnit_fetchIndex (s : State) (g : Group) (k i : Nat) : (s.assignUnit g k i).fetchIndex = s.fetchIndex := by simp [State.assignUnit]

@[simp] theorem assignUnit_ifq (s : State) (g : Group) (k i : Nat) : (s.assignUnit g k i).ifq = s.ifq := by simp [State.assignUnit]

@[simp] theorem assignUnit_mapTable (s : State) (g : Group) (k i : Nat) : (s.assignUnit g k i).mapTable = s.mapTable := by simp [State.assignUnit]

@[simp] theorem assignUnit_rsInt (s : State) (g : Group) (k i : Nat) : (s.assignUnit g k i).rsInt = s.rsInt := by simp [State.assignUnit]

@[simp] theorem assignUnit_rsFp (s : State) (g : Group) (k i : Nat) : (s.assignUnit g k i).rsFp = s.rsFp := by simp [State.assignUnit]

@[simp] theorem assignUnit_cdb (s : State) (g : Group) (k i : Nat) : (s.assignUnit g k i).cdb = s.cdb := by simp [State.assignUnit]

@[simp] theorem assignUnit_fatal (s : State) (g : Group) (k i : Nat) : (s.assignUnit g k i).fatal = s.fatal := by simp [State.assignUnit]

@[simp] theorem assignUnit_visit (s : State) (g : Group) (k i : Nat) : (s.assignUnit g k i).visit = s.visit := by simp [State.assignUnit]

/-! ### tick -/

@[simp] theorem tick_fetchIndex (s : State) : (s.tick).fetchIndex = s.fetchIndex := rfl

@[simp] theorem tick_ifq (s : State) : (s.tick).ifq = s.ifq := rfl

@[simp] theorem tick_mapTable (s : State) : (s.tick).mapTable = s.mapTable := rfl

@[simp] theorem tick_rsInt (s : State) : (s.tick).rsInt = s.rsInt := rfl

@[simp] theorem tick_rsFp (s : State) : (s.tick).rsFp = s.rsFp := rfl

@[simp] theorem tick_fuInt (s : State) : (s.tick).fuInt = s.fuInt := rfl

@[simp] theorem tick_fuFp (s : State) : (s.tick).fuFp = s.fuFp := rfl

@[simp] theorem tick_cdb (s : State) : (s.tick).cdb = s.cdb := rfl

@[simp] theorem tick_fatal (s : State) : (s.tick).fatal = s.fatal := rfl

@[simp] theorem tick_visit (s : State) : (s.tick).visit = s.visit := rfl

@[simp] theorem tick_mem (s : State) : (s.tick).mem = s.mem := rfl

/-! ### Reading back the slots of a group -/

@[simp] theorem setStations_stations_self (s : State) (g : Group) (l : List Ref) : (s.setStations g l).stations g = l := by
  cases g <;> rfl

theorem setStations_stations_other (s : State) {g k : Group} (h : g ≠ k) (l : List Ref) :
    (s.setStations g l).stations k = s.stations k := by
  cases g <;> cases k <;> first | rfl | exact absurd rfl h

@[simp] theorem setStations_units (s : State) (g k : Group) (l : List Ref) : (s.setStations g l).units k = s.units k := by
  cases g <;> cases k <;> rfl

@[simp] theorem setUnits_units_self (s : State) (g : Group) (l : List Ref) : (s.setUnits g l).units g = l := by
  cases g <;> rfl

theorem setUnits_units_other (s : State) {g k : Group} (h : g ≠ k) (l : List Ref) :
    (s.setUnits g l).units k = s.units k := by
  cases g <;> cases k <;> first | rfl | exact absurd rfl h

@[simp] theorem setUnits_stations (s : State) (g k : Group) (l : List Ref) :
    (s.setUnits g l).stations k = s.stations k := by
  cases g <;> cases k <;> rfl

@[simp] theorem updateRecord_stations (s : State) (i : Nat) (f : RecordState → RecordState) (g : Group) :
    (s.updateRecord i f).stations g = s.stations g := by
  cases g <;> rfl

@[simp] theorem updateRecord_units (s : State) (i : Nat) (f : RecordState → RecordState) (g : Group) :
    (s.updateRecord i f).units g = s.units g := by
  cases g <;> rfl

/-! ### The record a state reads depends on the record store alone -/

theorem record_of_mem_eq {s t : State} (h : t.mem = s.mem) (i : Nat) : t.record i = s.record i := by
  simp [State.record, h]

/-- What `TraceRead` answers depends on the inputs alone. -/
theorem traceRead_of_inputs {s t : State} (ht : t.mem.trace = s.mem.trace) (hn : t.mapTable.length = s.mapTable.length)
    (i : Nat) : t.traceRead i = s.traceRead i := by
  cases i <;> simp [State.traceRead, Memory.word, State.nRegs, ht, hn]

theorem instrAt_of_inputs {s t : State} (ht : t.mem.trace = s.mem.trace) (hn : t.mapTable.length = s.mapTable.length)
    (i : Nat) : t.instrAt i = s.instrAt i := by
  simp [State.instrAt, traceRead_of_inputs ht hn]

theorem classHas_of_inputs {s t : State} (ht : t.mem.trace = s.mem.trace) (hn : t.mapTable.length = s.mapTable.length)
    (P : OpClass → Bool) (i : Nat) : t.classHas P i = s.classHas P i := by
  simp [State.classHas, instrAt_of_inputs ht hn]

theorem SameInputs.refl (s : State) : SameInputs s s := by simp [SameInputs]

theorem SameInputs.trans {s t u : State} (h : SameInputs s t) (k : SameInputs t u) : SameInputs s u := by
  simp_all [SameInputs]

theorem SameInputs.classHas {s t : State} (h : SameInputs s t) (P : OpClass → Bool) (i : Nat) :
    t.classHas P i = s.classHas P i :=
  classHas_of_inputs h.1 h.2.2.1 P i

theorem SameInputs.size {s t : State} (h : SameInputs s t) : t.size = s.size := by
  simp [State.size, Memory.size, h.1]

end Sys2Proof.Machine
end

