-- ==== Sys2Proof/Laws/Memory.lean ====
section
/-! SUPPORT. The record store: reading after writing, and the canonical form under every operation. -/

namespace Sys2Proof.Machine

theorem readRec_updateRec (m : Memory) (i j : Nat) (f : RecordState → RecordState) :
    (m.updateRec i f).readRec j = if i = j ∧ m.holds i then f (m.readRec j) else m.readRec j := by
  cases i with
  | zero => simp [Memory.updateRec]
  | succ n =>
    cases j with
    | zero => simp [Memory.readRec]
    | succ k =>
      simp only [Memory.updateRec, Memory.readRec, List.getElem?_modify]
      by_cases hnk : n = k
      · subst hnk
        by_cases hn : n < m.recs.length
        · simp [hn, Nat.succ_le_of_lt hn]
        · simp [hn]
      · simp [hnk]

/-- A record reads as written. -/
theorem readRec_updateRec_self {m : Memory} {i : Nat} (h : m.holds i) (f : RecordState → RecordState) :
    (m.updateRec i f).readRec i = f (m.readRec i) := by
  simp [readRec_updateRec, h]

/-- Every other record reads as before. -/
theorem readRec_updateRec_other {m : Memory} {i j : Nat} (h : i ≠ j) (f : RecordState → RecordState) :
    (m.updateRec i f).readRec j = m.readRec j := by
  simp [readRec_updateRec, h]

/-- Writing back what a record holds changes nothing that can be read. -/
theorem readRec_updateRec_id (m : Memory) (i j : Nat) : (m.updateRec i id).readRec j = m.readRec j := by
  simp [readRec_updateRec]

@[simp] theorem updateRec_trace (m : Memory) (i : Nat) (f : RecordState → RecordState) :
    (m.updateRec i f).trace = m.trace := by
  cases i <;> rfl

@[simp] theorem updateRec_length (m : Memory) (i : Nat) (f : RecordState → RecordState) :
    (m.updateRec i f).recs.length = m.recs.length := by
  cases i <;> simp [Memory.updateRec]

/-- Writing a record keeps the canonical form. -/
theorem updateRec_wf {m : Memory} (h : m.wf) (i : Nat) (f : RecordState → RecordState) : (m.updateRec i f).wf := by
  simpa [Memory.wf] using h

/-- Loading a word keeps the canonical form. -/
theorem loadWord_wf {m : Memory} (h : m.wf) (c : Nat) (w : TraceWord) : (m.loadWord c w).wf := by
  unfold Memory.loadWord
  split <;> simpa [Memory.wf] using h

theorem resetWith_wf (p : Config.Params) (trace : List TraceWord) : (State.resetWith p trace).mem.wf := by
  simp [State.resetWith, Memory.wf]

theorem reset_wf : State.reset.mem.wf := resetWith_wf _ _

theorem doReset_wf (s : State) : s.doReset.mem.wf := by
  simp [State.doReset, Memory.wf]

/-- In canonical form the records of the record part are those of the trace. -/
theorem holds_iff_of_wf {m : Memory} (h : m.wf) (i : Nat) : m.holds i ↔ 1 ≤ i ∧ i ≤ m.size := by
  simp only [Memory.wf] at h
  simp [Memory.holds, Memory.size, h]

/-- A record that `TraceRead` finds is a record of the trace. -/
theorem traceRead_isSome_iff (s : State) (i : Nat) : (s.traceRead i).isSome ↔ 1 ≤ i ∧ i ≤ s.size := by
  cases i with
  | zero => simp [State.traceRead, Memory.word]
  | succ n => simp [State.traceRead, Memory.word, State.size, Memory.size]

theorem record_updateRecord (s : State) (i j : Nat) (f : RecordState → RecordState) :
    (s.updateRecord i f).record j = if i = j ∧ s.mem.holds i then f (s.record j) else s.record j :=
  readRec_updateRec s.mem i j f

theorem record_updateRecord_self {s : State} {i : Nat} (h : s.mem.holds i) (f : RecordState → RecordState) :
    (s.updateRecord i f).record i = f (s.record i) :=
  readRec_updateRec_self h f

theorem record_updateRecord_other {s : State} {i j : Nat} (h : i ≠ j) (f : RecordState → RecordState) :
    (s.updateRecord i f).record j = s.record j :=
  readRec_updateRec_other h f

theorem updateRecord_sameInputs (s : State) (i : Nat) (f : RecordState → RecordState) :
    SameInputs s (s.updateRecord i f) := by
  refine ⟨updateRec_trace _ _ _, updateRec_length _ _ _, ?_⟩
  simp

/-- Every record of a reset state is as reset leaves it (R42). -/
@[simp] theorem record_resetWith (p : Config.Params) (trace : List TraceWord) (i : Nat) :
    (State.resetWith p trace).record i = RecordState.zero := by
  cases i with
  | zero => rfl
  | succ n =>
    simp only [State.record, State.resetWith, Memory.readRec, List.getElem?_replicate]
    split <;> rfl

end Sys2Proof.Machine
end

