-- ==== Sys2Proof/Laws/Ops.lean ====
section
/-! SUPPORT. What each named operation can do, said once: slots, the map table, and the actions of a record. -/

namespace Sys2Proof.Machine

/-! ### Slot lists -/

@[simp] theorem mem_occupants {i : Nat} {l : List Ref} : i ∈ occupants l ↔ some i ∈ l := by
  simp [occupants]

@[simp] theorem occupants_nil : occupants [] = [] := rfl

@[simp] theorem occupants_cons_none (l : List Ref) : occupants (none :: l) = occupants l := rfl

@[simp] theorem occupants_cons_some (i : Nat) (l : List Ref) : occupants (some i :: l) = i :: occupants l := rfl

theorem occupants_append (l m : List Ref) : occupants (l ++ m) = occupants l ++ occupants m := by
  simp [occupants]

@[simp] theorem occupants_replicate_none (n : Nat) : occupants (List.replicate n none) = [] := by
  induction n with
  | zero => rfl
  | succ n ih => simpa [List.replicate_succ] using ih

/-- No occupant exactly when every slot is free. -/
theorem allFree_iff {l : List Ref} : allFree l = true ↔ occupants l = [] := by
  induction l with
  | nil => simp [allFree]
  | cons r l ih => cases r <;> simp_all [allFree]

@[simp] theorem length_clearRef (i : Nat) (l : List Ref) : (clearRef i l).length = l.length := by
  simp [clearRef]

theorem getElem?_clearRef (i : Nat) (l : List Ref) (k : Nat) :
    (clearRef i l)[k]? = (l[k]?).map fun r => if r = some i then none else r := by
  simp [clearRef]

/-- After clearing `i`, a slot names `j` exactly when it did before and `j` is not `i`. -/
theorem some_mem_clearRef {i j : Nat} {l : List Ref} : some j ∈ clearRef i l ↔ some j ∈ l ∧ j ≠ i := by
  simp only [clearRef, List.mem_map]
  constructor
  · rintro ⟨r, hr, h⟩
    split at h
    · cases h
    · subst h
      rename_i hne
      exact ⟨hr, fun e => hne (by rw [e])⟩
  · rintro ⟨hj, hne⟩
    exact ⟨some j, hj, by simp [hne]⟩

theorem occupants_clearRef (i : Nat) (l : List Ref) : occupants (clearRef i l) = (occupants l).filter (· ≠ i) := by
  induction l with
  | nil => rfl
  | cons r l ih =>
    cases r with
    | none => simpa [clearRef] using ih
    | some j =>
      by_cases h : j = i
      · simpa [clearRef, h] using ih
      · simpa [clearRef, h] using ih

/-- The first free slot is free and every slot before it is occupied (R143, R144). -/
theorem firstFree_eq_some {l : List Ref} {j : Nat} :
    firstFree l = some j ↔ l[j]? = some none ∧ ∀ k < j, ∃ i, l[k]? = some (some i) := by
  induction l generalizing j with
  | nil => simp [firstFree]
  | cons r l ih =>
    cases r with
    | none =>
      constructor
      · intro h
        simp only [firstFree, Option.some.injEq] at h
        subst h
        simp
      · rintro ⟨-, h⟩
        cases j with
        | zero => rfl
        | succ j =>
          obtain ⟨i, hi⟩ := h 0 (Nat.succ_pos j)
          simp at hi
    | some x =>
      cases j with
      | zero => simp [firstFree]
      | succ j =>
        simp only [firstFree, Option.map_eq_some_iff, Nat.add_right_cancel_iff, exists_eq_right, ih,
          List.getElem?_cons_succ]
        refine and_congr_right fun _ => ⟨fun h k hk => ?_, fun h k hk => ?_⟩
        · cases k with
          | zero => exact ⟨x, by simp⟩
          | succ k => simpa using h k (Nat.lt_of_succ_lt_succ hk)
        · simpa using h (k + 1) (Nat.succ_lt_succ hk)

/-- No slot is free exactly when every slot is occupied. -/
theorem firstFree_eq_none {l : List Ref} : firstFree l = none ↔ none ∉ l := by
  induction l with
  | nil => simp [firstFree]
  | cons r l ih => cases r <;> simp [firstFree, ih]

/-- `min_index` is a least element (R16). -/
theorem minIndex_eq_some {l : List Nat} {w : Nat} : minIndex l = some w ↔ w ∈ l ∧ ∀ i ∈ l, w ≤ i := by
  induction l generalizing w with
  | nil => simp [minIndex]
  | cons a l ih =>
    unfold minIndex
    cases h : minIndex l with
    | none =>
      have hl : l = [] := by
        cases l with
        | nil => rfl
        | cons b l =>
          unfold minIndex at h
          split at h <;> cases h
      subst hl
      simp only [Option.some.injEq, List.mem_singleton, forall_eq]
      exact ⟨fun h => ⟨h.symm, h.ge⟩, fun h => h.1.symm⟩
    | some m =>
      obtain ⟨hm, hle⟩ := ih.mp h
      simp only [Option.some.injEq, List.mem_cons, forall_eq_or_imp]
      constructor
      · rintro rfl
        refine ⟨?_, Nat.min_le_left _ _, fun i hi => (Nat.min_le_right _ _).trans (hle i hi)⟩
        rcases Nat.le_total a m with h' | h'
        · exact .inl (Nat.min_eq_left h')
        · exact .inr (by rwa [Nat.min_eq_right h'])
      · rintro ⟨hw, ha, hl⟩
        have h2 := hl m hm
        rcases hw with rfl | hw
        · exact Nat.min_eq_left h2
        · have := hle w hw
          omega

theorem minIndex_eq_none {l : List Nat} : minIndex l = none ↔ l = [] := by
  cases l with
  | nil => simp [minIndex]
  | cons a l =>
    unfold minIndex
    split <;> simp

/-! ### The map table -/

@[simp] theorem producer_clear (s : State) (i r : Nat) (c : Ref) :
    State.producer { s with mapTable := clearRef i s.mapTable, cdb := c } r =
      if s.producer r = some i then none else s.producer r := by
  simp only [State.producer, getElem?_clearRef]
  by_cases hr : r < s.mapTable.length <;> simp [hr]

@[simp] theorem length_rename_mapTable (s : State) (h : Nat) (d : RegId) :
    (s.rename h d).mapTable.length = s.mapTable.length := by
  cases d <;> simp [State.rename]

theorem producer_rename {s : State} {r : Nat} (hr : r < s.nRegs) (h : Nat) (d : RegId) :
    (s.rename h d).producer r = if d = .reg r then some h else s.producer r := by
  cases d with
  | noreg => simp [State.rename]
  | reg q =>
    simp only [State.rename, State.producer, List.getElem?_set, RegId.reg.injEq]
    by_cases hq : q = r
    · subst hq
      simp [show q < s.mapTable.length from hr]
    · simp [hq]

/-- Renaming both destinations (R146): each register named becomes the instruction's, every other keeps its producer. -/
theorem producer_renameDests {s : State} {r : Nat} (hr : r < s.nRegs) (h : Nat) (o : Operands) :
    (s.renameDests h o).producer r = if o.dst0 = .reg r ∨ o.dst1 = .reg r then some h else s.producer r := by
  have hr' : r < (s.rename h o.dst0).nRegs := by simpa [State.nRegs] using hr
  rw [State.renameDests, producer_rename hr', producer_rename hr]
  by_cases h1 : o.dst1 = .reg r <;> by_cases h0 : o.dst0 = .reg r <;> simp [h0, h1]

@[simp] theorem length_renameDests_mapTable (s : State) (h : Nat) (o : Operands) :
    (s.renameDests h o).mapTable.length = s.mapTable.length := by
  simp [State.renameDests]

/-! ### Group access of the record actions -/

@[simp] theorem captureDeps_stations (s : State) (h : Nat) (o : Operands) (g : Group) :
    (s.captureDeps h o).stations g = s.stations g := by
  cases g <;> rfl

@[simp] theorem captureDeps_units (s : State) (h : Nat) (o : Operands) (g : Group) :
    (s.captureDeps h o).units g = s.units g := by
  cases g <;> rfl

@[simp] theorem renameDests_stations (s : State) (h : Nat) (o : Operands) (g : Group) :
    (s.renameDests h o).stations g = s.stations g := by
  cases g <;> simp [State.stations]

@[simp] theorem renameDests_units (s : State) (h : Nat) (o : Operands) (g : Group) :
    (s.renameDests h o).units g = s.units g := by
  cases g <;> simp [State.units]

/-! ### Allocation (R143 to R149) -/

/-- Everything an allocation can do: nothing on an empty queue, nothing without a free station (R149), or place the head
in the first free one (R145 to R148). -/
theorem allocate_cases (s : State) (g : Group) (o : Operands) :
    (s.ifq = [] ∧ s.allocate g o = s) ∨
      (∃ h q, s.ifq = h :: q ∧ none ∉ s.stations g ∧ s.allocate g o = s) ∨
      (∃ h q j, s.ifq = h :: q ∧ firstFree (s.stations g) = some j ∧
        s.allocate g o =
          { ((s.captureDeps h o).renameDests h o).setStations g ((s.stations g).set j (some h)) with ifq := q }) := by
  unfold State.allocate
  cases hq : s.ifq with
  | nil => exact .inl ⟨rfl, by simp [peek]⟩
  | cons h q =>
    right
    simp only [peek, List.head?_cons]
    cases hf : firstFree (s.stations g) with
    | none => exact .inl ⟨h, q, rfl, firstFree_eq_none.mp hf, rfl⟩
    | some j => exact .inr ⟨h, q, j, rfl, rfl, by simp [pop]⟩

theorem captureDeps_sameInputs (s : State) (h : Nat) (o : Operands) : SameInputs s (s.captureDeps h o) :=
  updateRecord_sameInputs _ _ _

theorem setStations_sameInputs {s : State} {g : Group} {l : List Ref} (h : l.length = (s.stations g).length) :
    SameInputs s (s.setStations g l) := by
  cases g <;> simpa [SameInputs, State.setStations, State.stations] using h

theorem setUnits_sameInputs {s : State} {g : Group} {l : List Ref} (h : l.length = (s.units g).length) :
    SameInputs s (s.setUnits g l) := by
  cases g <;> simpa [SameInputs, State.setUnits, State.units] using h

theorem renameDests_sameInputs (s : State) (h : Nat) (o : Operands) : SameInputs s (s.renameDests h o) := by
  simp [SameInputs]

theorem releaseSlots_sameInputs (s : State) (g : Group) (i : Nat) : SameInputs s (s.releaseSlots g i) :=
  (setUnits_sameInputs (by simp)).trans (setStations_sameInputs (by simp))

theorem broadcast_sameInputs (s : State) (g : Group) (i : Nat) : SameInputs s (s.broadcast g i) :=
  (updateRecord_sameInputs s i _).trans (releaseSlots_sameInputs _ g i)

theorem raiseFatal_sameInputs (s : State) (r : FatalReason) : SameInputs s (s.raiseFatal r) := by
  simp [SameInputs]

theorem fetchEnqueue_sameInputs (s : State) : SameInputs s s.fetchEnqueue := by
  unfold State.fetchEnqueue
  split
  · simp [SameInputs]
  · exact raiseFatal_sameInputs _ _

theorem fetchSkip_sameInputs (s : State) : SameInputs s s.fetchSkip := by
  unfold State.fetchSkip State.advanceCursor
  split
  · simp [SameInputs]
  · exact raiseFatal_sameInputs _ _

theorem allocate_sameInputs (s : State) (g : Group) (o : Operands) : SameInputs s (s.allocate g o) := by
  obtain ⟨-, h⟩ | ⟨h, q, -, -, e⟩ | ⟨h, q, j, -, -, e⟩ := allocate_cases s g o
  · rw [h]; exact SameInputs.refl s
  · rw [e]; exact SameInputs.refl s
  · rw [e]
    have h1 := captureDeps_sameInputs s h o
    have h2 := renameDests_sameInputs (s.captureDeps h o) h o
    have h3 : SameInputs ((s.captureDeps h o).renameDests h o)
        (((s.captureDeps h o).renameDests h o).setStations g ((s.stations g).set j (some h))) :=
      setStations_sameInputs (by simp)
    exact (h1.trans h2).trans h3

/-! ### Release and broadcast (R182, R185) -/

theorem releaseSlots_stations_self (s : State) (g : Group) (i : Nat) :
    (s.releaseSlots g i).stations g = clearRef i (s.stations g) := by
  simp [State.releaseSlots]

theorem releaseSlots_units_self (s : State) (g : Group) (i : Nat) :
    (s.releaseSlots g i).units g = clearRef i (s.units g) := by
  simp [State.releaseSlots]

theorem releaseSlots_stations_other (s : State) {g k : Group} (h : g ≠ k) (i : Nat) :
    (s.releaseSlots g i).stations k = s.stations k := by
  simp [State.releaseSlots, setStations_stations_other _ h]

theorem releaseSlots_units_other (s : State) {g k : Group} (h : g ≠ k) (i : Nat) :
    (s.releaseSlots g i).units k = s.units k := by
  simp [State.releaseSlots, setUnits_units_other _ h]

theorem releaseSlots_record (s : State) (g : Group) (i j : Nat) : (s.releaseSlots g i).record j = s.record j :=
  record_of_mem_eq (releaseSlots_mem s g i) j

@[simp] theorem broadcast_cdb (s : State) (g : Group) (i : Nat) : (s.broadcast g i).cdb = some i := by
  simp [State.broadcast]

theorem broadcast_record (s : State) (g : Group) (i j : Nat) :
    (s.broadcast g i).record j =
      if i = j ∧ s.mem.holds i then { s.record j with tCdb := s.cycle } else s.record j := by
  rw [State.broadcast, releaseSlots_record]
  exact record_updateRecord s i j _

theorem broadcast_stations_self (s : State) (g : Group) (i : Nat) :
    (s.broadcast g i).stations g = clearRef i (s.stations g) := by
  rw [State.broadcast, releaseSlots_stations_self]
  cases g <;> rfl

theorem broadcast_units_self (s : State) (g : Group) (i : Nat) :
    (s.broadcast g i).units g = clearRef i (s.units g) := by
  rw [State.broadcast, releaseSlots_units_self]
  cases g <;> rfl

end Sys2Proof.Machine
end

