-- ==== Sys2Proof/Laws/PerInstr.lean ====
section
/-! SUPPORT. Statements about every instruction, made per constructor of `Instr`. -/

namespace Sys2Proof.Laws

/-- Each field of a concatenation of seven fields of the widths of a trace word (R81) reads back. -/
theorem fields_of_concat (c : BitVec 3) (z : BitVec 5) (d1 d0 s2 s1 s0 : RegField) :
    classField (c ++ z ++ d1 ++ d0 ++ s2 ++ s1 ++ s0) = c ∧ zeroField (c ++ z ++ d1 ++ d0 ++ s2 ++ s1 ++ s0) = z ∧
      dst1Field (c ++ z ++ d1 ++ d0 ++ s2 ++ s1 ++ s0) = d1 ∧ dst0Field (c ++ z ++ d1 ++ d0 ++ s2 ++ s1 ++ s0) = d0 ∧
      src2Field (c ++ z ++ d1 ++ d0 ++ s2 ++ s1 ++ s0) = s2 ∧ src1Field (c ++ z ++ d1 ++ d0 ++ s2 ++ s1 ++ s0) = s1 ∧
      src0Field (c ++ z ++ d1 ++ d0 ++ s2 ++ s1 ++ s0) = s0 := by
  refine ⟨?_, ?_, ?_, ?_, ?_, ?_, ?_⟩ <;> ext i hi <;>
    simp only [classField, zeroField, dst1Field, dst0Field, src2Field, src1Field, src0Field, BitVec.getElem_extractLsb',
      BitVec.getLsbD_append] <;>
    grind

/-- Every field of the word of record `i` reads back as it was written (R81, R84, R85). -/
def EncodedFields.Statement (i : Instr) : Prop :=
  classField (encode i) = encodeClass i.cls ∧ zeroField (encode i) = 0#5 ∧
    dst1Field (encode i) = encodeReg i.operands.dst1 ∧ dst0Field (encode i) = encodeReg i.operands.dst0 ∧
    src2Field (encode i) = encodeReg i.operands.src2 ∧ src1Field (encode i) = encodeReg i.operands.src1 ∧
    src0Field (encode i) = encodeReg i.operands.src0

theorem EncodedFields.icomp (d0 d1 s0 s1 s2 : RegId) : EncodedFields.Statement (.icomp d0 d1 s0 s1 s2) :=
  fields_of_concat _ _ _ _ _ _ _

theorem EncodedFields.fcomp (d0 d1 s0 s1 s2 : RegId) : EncodedFields.Statement (.fcomp d0 d1 s0 s1 s2) :=
  fields_of_concat _ _ _ _ _ _ _

theorem EncodedFields.load (d0 d1 s0 s1 s2 : RegId) : EncodedFields.Statement (.load d0 d1 s0 s1 s2) :=
  fields_of_concat _ _ _ _ _ _ _

theorem EncodedFields.store (d0 d1 s0 s1 s2 : RegId) : EncodedFields.Statement (.store d0 d1 s0 s1 s2) :=
  fields_of_concat _ _ _ _ _ _ _

theorem EncodedFields.jump (d0 d1 s0 s1 s2 : RegId) : EncodedFields.Statement (.jump d0 d1 s0 s1 s2) :=
  fields_of_concat _ _ _ _ _ _ _

theorem EncodedFields.branch (d0 d1 s0 s1 s2 : RegId) : EncodedFields.Statement (.branch d0 d1 s0 s1 s2) :=
  fields_of_concat _ _ _ _ _ _ _

theorem EncodedFields.trap (d0 d1 s0 s1 s2 : RegId) : EncodedFields.Statement (.trap d0 d1 s0 s1 s2) :=
  fields_of_concat _ _ _ _ _ _ _

end Sys2Proof.Laws
end

