-- ==== Sys2Proof/Laws/Pipeline.lean ====
section
/-! SUPPORT. What `exec`, the combinators of a cycle and each stage can do, said once, for proofs to cite instead of
unfolding them; and that no stage changes the inputs of a run (R43). -/

namespace Sys2Proof.Machine

/-! ### exec -/

/-- Every meaning answers a next state. -/
theorem exec_answers_next (i : Instr) (s : State) : ∃ t, exec i s = .next t := by
  cases i <;> simp only [exec, execIcomp, execFcomp, execLoad, execStore, execJump, execBranch, execTrap] <;>
    cases s.visit <;> exact ⟨_, rfl⟩

/-- Everything a record does at the fetch cursor: a trap is skipped, any other class is enqueued (R127). -/
theorem exec_at_fetch {i : Instr} {s : State} (h : s.visit = .fetch) :
    exec i s = .next (if i.cls.isTrap then s.fetchSkip else s.fetchEnqueue) := by
  cases i <;> simp [exec, execIcomp, execFcomp, execLoad, execStore, execJump, execBranch, execTrap, h, Instr.cls,
    OpClass.isTrap]

/-- Everything a record does at the head of the queue (R141, R143, R144, R150). -/
theorem exec_at_dispatch {i : Instr} {s : State} (h : s.visit = .dispatch) :
    exec i s =
      .next (if i.cls.isBranch then s.discardHead else if i.cls.isFp then s.allocate .fp i.operands
        else if i.cls.isInt then s.allocate .int i.operands else s.raiseFatal .trapAtHead) := by
  cases i <;> simp [exec, execIcomp, execFcomp, execLoad, execStore, execJump, execBranch, execTrap, h, Instr.cls,
    Instr.operands, OpClass.isBranch, OpClass.isFp, OpClass.isInt]

/-- Everything a finished record does in its unit: a result writer waits for the bus, any other leaves (R182, R183). -/
theorem exec_at_complete {i : Instr} {s : State} {g : Group} {n : Nat} (h : s.visit = .complete g n) :
    exec i s = .next (if i.cls.writesResult then s else s.releaseSlots g n) := by
  cases i <;> simp [exec, execIcomp, execFcomp, execLoad, execStore, execJump, execBranch, execTrap, h, Instr.cls,
    OpClass.writesResult]

/-- Everything the winner of the bus does (R185, R190). -/
theorem exec_at_broadcast {i : Instr} {s : State} {w : Nat} (h : s.visit = .broadcast w) :
    exec i s = .next (s.broadcast (if i.cls.isFp then .fp else .int) w) := by
  cases i <;> simp [exec, execIcomp, execFcomp, execLoad, execStore, execJump, execBranch, execTrap, h, Instr.cls,
    OpClass.isFp]

/-- No meaning changes the inputs of the run. -/
theorem exec_sameInputs {i : Instr} {s t : State} (h : exec i s = .next t) : SameInputs s t := by
  cases i <;> simp only [exec, execIcomp, execFcomp, execLoad, execStore, execJump, execBranch, execTrap] at h <;>
    cases hv : s.visit <;> simp only [hv, Host.Outcome.next.injEq] at h <;> subst h <;>
    first
      | exact SameInputs.refl s
      | exact fetchEnqueue_sameInputs s
      | exact fetchSkip_sameInputs s
      | exact allocate_sameInputs s _ _
      | exact releaseSlots_sameInputs s _ _
      | exact broadcast_sameInputs s _ _

/-! ### One part of a cycle after another -/

@[simp] theorem thenStage_next_none {s : State} (h : s.fatal = none) (f : State → Result) :
    thenStage (.next s) f = f s := by
  simp [thenStage, h]

@[simp] theorem thenStage_next_some {s : State} (h : s.fatal ≠ none) (f : State → Result) :
    thenStage (.next s) f = .next s := by
  unfold thenStage
  cases hf : s.fatal with
  | none => exact absurd hf h
  | some r => simp [hf]

/-- A sequence answers a next state in two ways: its first part raised a fatal condition, which abandons the rest, or
both parts ran. -/
theorem thenStage_eq_next {o : Result} {f : State → Result} {t : State} :
    thenStage o f = .next t ↔ (o = .next t ∧ t.fatal ≠ none) ∨ ∃ s, o = .next s ∧ s.fatal = none ∧ f s = .next t := by
  cases o with
  | next s =>
    by_cases h : s.fatal = none
    · rw [thenStage_next_none h]
      constructor
      · exact fun e => .inr ⟨s, rfl, h, e⟩
      · rintro (⟨e, ht⟩ | ⟨u, e, -, hu⟩)
        · cases e; exact absurd h ht
        · cases e; exact hu
    · rw [thenStage_next_some h]
      constructor
      · rintro e
        cases e
        exact .inl ⟨rfl, h⟩
      · rintro (⟨e, -⟩ | ⟨u, e, hu, -⟩)
        · exact e
        · cases e; exact absurd hu h
  | fault r => simp [thenStage]
  | refused r => simp [thenStage]

theorem thenStage_assoc (o : Result) (f g : State → Result) :
    thenStage (thenStage o f) g = thenStage o fun s => thenStage (f s) g := by
  cases o with
  | next s =>
    by_cases h : s.fatal = none
    · simp [h]
    · simp [h]
  | fault r => rfl
  | refused r => rfl

/-- Everything a visit can answer as a next state: there is no such record (R74), or its class acted. -/
theorem visitRecord_eq_next {v : Visit} {i : Nat} {s t : State} :
    visitRecord v i s = .next t ↔
      (s.traceRead i = none ∧ t = s.raiseFatal .traceOverrun) ∨
        ∃ instr u, s.traceRead i = some (.ok instr) ∧ exec instr { s with visit := v } = .next u ∧
          t = { u with visit := .fetch } := by
  unfold visitRecord
  rcases h : s.traceRead i with _ | ⟨e | instr⟩
  · simp [eq_comm]
  · simp
  · obtain ⟨u, hu⟩ := exec_answers_next instr { s with visit := v }
    simp [hu, leaveVisit, eq_comm]

theorem visitRecord_sameInputs {v : Visit} {i : Nat} {s t : State} (h : visitRecord v i s = .next t) :
    SameInputs s t := by
  obtain ⟨-, rfl⟩ | ⟨instr, u, -, hu, rfl⟩ := visitRecord_eq_next.mp h
  · exact raiseFatal_sameInputs s _
  · have := exec_sameInputs hu
    simpa [SameInputs] using this

/-! ### Slot loops -/

theorem forSlots_succ (f : Nat → State → Result) (n : Nat) (s : State) :
    forSlots f (n + 1) s = thenStage (forSlots f n s) (f n) := by
  simp [forSlots, List.range_succ]

/-- What holds at the start of a slot loop and is kept by every slot holds at its end. -/
theorem forSlots_induct {f : Nat → State → Result} {P : State → Prop}
    (hf : ∀ k u t, P u → u.fatal = none → f k u = .next t → P t) {n : Nat} {s t : State} (hs : P s)
    (h : forSlots f n s = .next t) : P t := by
  induction n generalizing t with
  | zero =>
    simp only [forSlots, List.range_zero, List.foldl_nil, Host.Outcome.next.injEq] at h
    exact h ▸ hs
  | succ n ih =>
    rw [forSlots_succ, thenStage_eq_next] at h
    obtain ⟨h, -⟩ | ⟨u, hu, hfat, ht⟩ := h
    · exact ih h
    · exact hf n u t (ih hu) hfat ht

/-- What holds before the unit slots of a group are served and is kept by each holds after them. -/
theorem issueGroup_induct {g : Group} {P : State → Prop} (hP : ∀ u k, P u → P (issueSlot g u k)) {s : State}
    (hs : P s) : P (issueGroup g s) := by
  unfold issueGroup
  generalize List.range (s.units g).length = l
  induction l generalizing s with
  | nil => exact hs
  | cons k l ih => exact ih (hP s k hs)

/-- Everything serving one unit slot can do (R160, R163, R164). -/
theorem issueSlot_cases (g : Group) (s : State) (k : Nat) :
    issueSlot g s k = s ∨
      ∃ i, (s.units g)[k]? = some none ∧ s.selectFor g = some i ∧ issueSlot g s k = s.assignUnit g k i := by
  unfold issueSlot
  split
  · split
    · exact .inr ⟨_, ‹_›, ‹_›, rfl⟩
    · exact .inl rfl
  · exact .inl rfl

/-- The selected instruction is the oldest eligible occupant of the group's stations (R163). -/
theorem selectFor_eq_some {s : State} {g : Group} {i : Nat} :
    s.selectFor g = some i ↔
      (some i ∈ s.stations g ∧ s.eligible i = true) ∧
        ∀ j, some j ∈ s.stations g → s.eligible j = true → i ≤ j := by
  simp [State.selectFor, minIndex_eq_some]

/-! ### Retire, stamps -/

/-- Everything the retire stage can do (R200 to R203). -/
theorem cdbToRetire_cases (s : State) :
    ((s.cdb = none ∨ ∃ i, s.cdb = some i ∧ s.cycle ≤ (s.record i).tCdb) ∧ cdbToRetire s = s) ∨
      ∃ i, s.cdb = some i ∧ (s.record i).tCdb + 1 ≤ s.cycle ∧
        cdbToRetire s = { s with mapTable := clearRef i s.mapTable, cdb := none } := by
  unfold cdbToRetire
  cases hc : s.cdb with
  | none => exact .inl ⟨.inl rfl, rfl⟩
  | some i =>
    by_cases h : (s.record i).tCdb + 1 ≤ s.cycle
    · exact .inr ⟨i, rfl, h, by simp [h]⟩
    · exact .inl ⟨.inr ⟨i, rfl, by omega⟩, by simp [h]⟩

theorem stampIssueOne_record (s : State) (i j : Nat) :
    (stampIssueOne s i).record j =
      if i = j ∧ s.mem.holds i ∧ (s.record j).tIssue = 0 then { s.record j with tIssue := s.cycle }
      else s.record j := by
  rw [stampIssueOne, record_updateRecord]
  by_cases h1 : i = j ∧ s.mem.holds i
  · by_cases h2 : (s.record j).tIssue = 0 <;> simp [h1, h2]
  · rw [if_neg h1, if_neg fun h => h1 ⟨h.1, h.2.1⟩]

theorem stampHead_record (s : State) (j : Nat) :
    (stampHead s).record j =
      if s.ifq.head? = some j ∧ s.mem.holds j ∧ (s.record j).tDisp = 0 then { s.record j with tDisp := s.cycle }
      else s.record j := by
  unfold stampHead peek
  cases s.ifq.head? with
  | none => simp
  | some h =>
    simp only [record_updateRecord, Option.some.injEq]
    by_cases hj : h = j
    · subst hj
      by_cases h1 : s.mem.holds h <;> by_cases h2 : (s.record h).tDisp = 0 <;> simp [h1, h2]
    · simp [hj]

/-! ### The stages that visit records -/

/-- Everything serving one unit slot on completion can do: nothing, or visit the finished occupant (R180). -/
theorem completeSlot_cases (g : Group) (k : Nat) (s : State) :
    ((∀ i, (s.units g)[k]? = some (some i) → s.finished g i = false) ∧ completeSlot g k s = .next s) ∨
      ∃ i, (s.units g)[k]? = some (some i) ∧ s.finished g i = true ∧
        completeSlot g k s = visitRecord (.complete g i) i s := by
  unfold completeSlot
  split
  · rename_i i hi
    cases hf : s.finished g i with
    | true => exact .inr ⟨i, hi, hf, by simp⟩
    | false => exact .inl ⟨by simp [hi, hf], by simp⟩
  · rename_i hne
    exact .inl ⟨fun i hi => absurd hi (hne i), rfl⟩

/-- Everything arbitration can do: nothing without a candidate, or visit the least one (R184). -/
theorem arbitrate_cases (s : State) :
    (s.candidates = [] ∧ arbitrate s = .next s) ∨
      ∃ w ∈ s.candidates, (∀ i ∈ s.candidates, w ≤ i) ∧ arbitrate s = visitRecord (.broadcast w) w s := by
  unfold arbitrate
  cases h : minIndex s.candidates with
  | none => exact .inl ⟨minIndex_eq_none.mp h, rfl⟩
  | some w =>
    obtain ⟨hw, hle⟩ := minIndex_eq_some.mp h
    exact .inr ⟨w, hw, hle, rfl⟩

/-- The candidates of the cycle (R183). -/
theorem mem_candidatesOf {s : State} {g : Group} {i : Nat} :
    i ∈ s.candidatesOf g ↔ some i ∈ s.units g ∧ s.finished g i = true ∧ s.classHas OpClass.writesResult i = true := by
  simp [State.candidatesOf]

/-- Everything the allocation part can do: nothing on an empty queue, or visit the head (R140). -/
theorem dispatchHead_cases (s : State) :
    (s.ifq = [] ∧ dispatchHead s = .next s) ∨
      ∃ h q, s.ifq = h :: q ∧ dispatchHead s = visitRecord .dispatch h s := by
  unfold dispatchHead peek
  cases hq : s.ifq with
  | nil => exact .inl ⟨rfl, rfl⟩
  | cons h q => exact .inr ⟨h, q, rfl, rfl⟩

/-- Everything the dispatch stage can answer as a next state. -/
theorem dispatchToIssue_eq_next {s t : State} :
    dispatchToIssue s = .next t ↔
      (dispatchHead s = .next t ∧ t.fatal ≠ none) ∨
        ∃ u, dispatchHead s = .next u ∧ u.fatal = none ∧ t = stampIssue u := by
  rw [dispatchToIssue, thenStage_eq_next]
  simp only [Host.Outcome.next.injEq, eq_comm (a := stampIssue _)]

/-- Everything the fetch stage can answer as a next state. -/
theorem fetchToDispatch_eq_next {b : Nat} {s t : State} :
    fetchToDispatch b s = .next t ↔
      (fetchPart b s = .next t ∧ t.fatal ≠ none) ∨ ∃ u, fetchPart b s = .next u ∧ u.fatal = none ∧ t = stampHead u := by
  rw [fetchToDispatch, thenStage_eq_next]
  simp only [Host.Outcome.next.injEq, eq_comm (a := stampHead _)]

/-- One turn of the fetch loop at a record that exists (R127). -/
theorem fetchLoop_succ {n : Nat} {s : State} {i : Instr} (hv : s.visit = .fetch)
    (hr : s.traceRead (s.fetchIndex + 1) = some (.ok i)) :
    fetchLoop (n + 1) s =
      thenStage (.next (if i.cls.isTrap then s.fetchSkip else s.fetchEnqueue)) fun t =>
        if i.cls.isTrap then fetchLoop n t else .next t := by
  have hs : { s with visit := Visit.fetch } = s := by rw [← hv]
  have hc : s.classHas OpClass.isTrap (s.fetchIndex + 1) = i.cls.isTrap := by
    simp [State.classHas, State.instrAt, hr]
  have hl : visitRecord .fetch (s.fetchIndex + 1) s =
      .next (if i.cls.isTrap then s.fetchSkip else s.fetchEnqueue) := by
    simp only [visitRecord, hr, hs, exec_at_fetch hv, leaveVisit, Host.Outcome.next.injEq]
    cases i.cls.isTrap <;> simp only [if_true, if_false, Bool.false_eq_true] <;>
      simp only [State.fetchEnqueue, State.fetchSkip, State.advanceCursor] <;> split <;> simp [← hv, State.raiseFatal]
  simp only [fetchLoop, hl, hc]

/-! ### No stage changes the inputs (R43) -/

theorem cdbToRetire_sameInputs (s : State) : SameInputs s (cdbToRetire s) := by
  obtain ⟨-, h⟩ | ⟨i, -, -, h⟩ := cdbToRetire_cases s <;> rw [h] <;> simp [SameInputs]

theorem completeSlot_sameInputs {g : Group} {k : Nat} {s t : State} (h : completeSlot g k s = .next t) :
    SameInputs s t := by
  unfold completeSlot at h
  split at h
  · split at h
    · exact visitRecord_sameInputs h
    · cases h; exact SameInputs.refl s
  · cases h; exact SameInputs.refl s

theorem completeGroup_sameInputs {g : Group} {s t : State} (h : completeGroup g s = .next t) : SameInputs s t :=
  forSlots_induct (P := SameInputs s) (fun _ _ _ hu _ ht => hu.trans (completeSlot_sameInputs ht)) (SameInputs.refl s) h

theorem arbitrate_sameInputs {s t : State} (h : arbitrate s = .next t) : SameInputs s t := by
  unfold arbitrate at h
  split at h
  · cases h; exact SameInputs.refl s
  · exact visitRecord_sameInputs h

theorem thenStage_sameInputs {o : Result} {f : State → Result} {s t : State} (ho : ∀ u, o = .next u → SameInputs s u)
    (hf : ∀ u v, f u = .next v → SameInputs u v) (h : thenStage o f = .next t) : SameInputs s t := by
  obtain ⟨h, -⟩ | ⟨u, hu, -, ht⟩ := thenStage_eq_next.mp h
  · exact ho t h
  · exact (ho u hu).trans (hf u t ht)

theorem executeToCdb_sameInputs {s t : State} (h : executeToCdb s = .next t) : SameInputs s t :=
  thenStage_sameInputs
    (fun _ hu => thenStage_sameInputs (fun _ h => completeGroup_sameInputs h) (fun _ _ h => completeGroup_sameInputs h) hu)
    (fun _ _ h => arbitrate_sameInputs h) h

theorem assignUnit_sameInputs (s : State) (g : Group) (k i : Nat) : SameInputs s (s.assignUnit g k i) :=
  (setUnits_sameInputs (by simp)).trans (updateRecord_sameInputs _ _ _)

theorem issueToExecute_sameInputs (s : State) : SameInputs s (issueToExecute s) := by
  have one : ∀ g u k, SameInputs s u → SameInputs s (issueSlot g u k) := by
    intro g u k hu
    obtain h | ⟨i, -, -, h⟩ := issueSlot_cases g u k
    · rwa [h]
    · rw [h]; exact hu.trans (assignUnit_sameInputs _ _ _ _)
  exact issueGroup_induct (one .fp) (issueGroup_induct (one .int) (SameInputs.refl s))

theorem stampIssue_sameInputs (s : State) : SameInputs s (stampIssue s) := by
  unfold stampIssue
  generalize occupants s.rsInt ++ occupants s.rsFp = l
  induction l generalizing s with
  | nil => exact SameInputs.refl s
  | cons i l ih => exact (updateRecord_sameInputs s i _).trans (ih _)

theorem dispatchToIssue_sameInputs {s t : State} (h : dispatchToIssue s = .next t) : SameInputs s t := by
  refine thenStage_sameInputs (fun u hu => ?_) (fun u v huv => ?_) h
  · unfold dispatchHead at hu
    split at hu
    · cases hu; exact SameInputs.refl s
    · exact visitRecord_sameInputs hu
  · cases huv; exact stampIssue_sameInputs u

theorem fetchLoop_sameInputs {n : Nat} {s t : State} (h : fetchLoop n s = .next t) : SameInputs s t := by
  induction n generalizing s t with
  | zero =>
    simp only [fetchLoop, Host.Outcome.next.injEq] at h
    exact h ▸ raiseFatal_sameInputs s _
  | succ n ih =>
    refine thenStage_sameInputs (fun u hu => visitRecord_sameInputs hu) (fun u v huv => ?_) h
    split at huv
    · exact ih huv
    · cases huv; exact SameInputs.refl u

theorem stampHead_sameInputs (s : State) : SameInputs s (stampHead s) := by
  unfold stampHead
  split
  · exact SameInputs.refl s
  · exact updateRecord_sameInputs s _ _

theorem fetchToDispatch_sameInputs {b : Nat} {s t : State} (h : fetchToDispatch b s = .next t) : SameInputs s t := by
  refine thenStage_sameInputs (fun u hu => ?_) (fun u v huv => ?_) h
  · unfold fetchPart at hu
    split at hu
    · exact fetchLoop_sameInputs hu
    · cases hu; exact SameInputs.refl s
  · cases huv; exact stampHead_sameInputs u

/-! ### The cycle -/

/-- Everything a cycle can do (R210, R212, R262): it ends in the stage that raised a fatal condition, or all five stages
ran and the counter is incremented. -/
theorem cycleWith_eq_next {b : Nat} {s t : State} (h : cycleWith b s = .next t) :
    (executeToCdb (cdbToRetire s) = .next t ∧ t.fatal ≠ none) ∨
      ∃ s2, executeToCdb (cdbToRetire s) = .next s2 ∧ s2.fatal = none ∧
        ((dispatchToIssue (issueToExecute s2) = .next t ∧ t.fatal ≠ none) ∨
          ∃ s4, dispatchToIssue (issueToExecute s2) = .next s4 ∧ s4.fatal = none ∧
            ((fetchToDispatch b s4 = .next t ∧ t.fatal ≠ none) ∨
              ∃ s5, fetchToDispatch b s4 = .next s5 ∧ s5.fatal = none ∧ t = s5.tick)) := by
  simp only [cycleWith, stagesBeforeFetch, thenStage_assoc] at h
  obtain ⟨h, ht⟩ | ⟨s2, h2, hf2, h⟩ := thenStage_eq_next.mp h
  · exact .inl ⟨h, ht⟩
  · refine .inr ⟨s2, h2, hf2, ?_⟩
    obtain ⟨h, ht⟩ | ⟨s4, h4, hf4, h⟩ := thenStage_eq_next.mp h
    · exact .inl ⟨h, ht⟩
    · refine .inr ⟨s4, h4, hf4, ?_⟩
      obtain ⟨h, ht⟩ | ⟨s5, h5, hf5, h⟩ := thenStage_eq_next.mp h
      · exact .inl ⟨h, ht⟩
      · cases h
        exact .inr ⟨s5, h5, hf5, rfl⟩

/-- Everything a step can do. -/
theorem stepWith_eq_next {b : Nat} {s t : State} (h : stepWith b s = .next t) :
    s.fatal = none ∧ ((s.ended = true ∧ t = s) ∨ (s.ended = false ∧ cycleWith b s = .next t)) := by
  unfold stepWith at h
  split at h
  · cases h
  · rename_i hf
    refine ⟨hf, ?_⟩
    split at h
    · rename_i he
      cases h
      exact .inl ⟨he, rfl⟩
    · rename_i he
      exact .inr ⟨by simpa using he, h⟩

end Sys2Proof.Machine
end

