-- ==== Sys2Proof/Tests/Slice0.lean ====
section
/-! SUPPORT. The author's own tests. Expected values are from spec/30_encoding.md, spec/40_operation_classes.md and the
vectors of spec/95_test_vectors.md named in each comment. The `witness_…` theorems show for each statement of
Certificates/Slice0/Obligations.lean a state and operands that meet its hypotheses together. -/

set_option synthInstance.maxSize 4000
set_option synthInstance.maxHeartbeats 400000
set_option maxRecDepth 20000

namespace Sys2Proof.Machine.Tests

/-! ## Helpers -/

/-- Two integer stations and one of everything else, four registers. -/
def tiny : Config.Params := { nRsInt := 2, nRsFp := 1, nFuInt := 1, nFuFp := 1, nRegs := 4 }

/-- The reset state of `tiny` with a trace. -/
def start (trace : List TraceWord) : State := State.resetWith tiny trace

/-- The state after a few steps. -/
def after (n : Nat) (trace : List TraceWord) : State :=
  match runSteps Config.ifqBound n (start trace) with
  | .next s => s
  | .fault _ => start trace
  | .refused _ => start trace

/-- What a step answers, seen through `f`. -/
def seen {α : Type} (f : State → α) (o : Result) : Option α :=
  match o with
  | .next s => some (f s)
  | .fault _ => none
  | .refused _ => none

/-- `icomp r1, -, r2, -, -` -/
def wInt : TraceWord := 0x00FF01FFFF02#48

/-- `icomp r1, -, r1, -, -` -/
def wSelf : TraceWord := 0x00FF01FFFF01#48

/-- `fcomp r2, -, r1, -, -` -/
def wFp : TraceWord := 0x20FF02FFFF01#48

/-- `load r3, -, -, -, -` -/
def wLoad : TraceWord := 0x40FF03FFFFFF#48

/-- `store -, -, r2, -, -` -/
def wStore : TraceWord := 0x60FFFFFFFF02#48

/-- `store r1, -, -, -, -`: a store with a destination (R307). -/
def wStoreDst : TraceWord := 0x60FF01FFFFFF#48

/-- `jump -, -, -, -, -` -/
def wJump : TraceWord := 0x80FFFFFFFFFF#48

/-- `branch -, -, r1, -, -` -/
def wBranch : TraceWord := 0xA0FFFFFFFF01#48

/-- `trap -, -, -, -, -` -/
def wTrap : TraceWord := 0xC0FFFFFFFFFF#48

/-- A word of the reserved class (R84). -/
def wBad : TraceWord := 0xE0FFFFFFFFFF#48

/-! ## Well-formedness: each of the five fields is checked (R86, R308) -/

theorem test_wf_accepts : (Instr.icomp (.reg 0) .noreg (.reg 3) (.reg 3) .noreg).wellFormed 4 = true := by decide
theorem test_wf_dst0 : (Instr.icomp (.reg 4) .noreg .noreg .noreg .noreg).wellFormed 4 = false := by decide
theorem test_wf_dst1 : (Instr.fcomp .noreg (.reg 4) .noreg .noreg .noreg).wellFormed 4 = false := by decide
theorem test_wf_src0 : (Instr.branch .noreg .noreg (.reg 4) .noreg .noreg).wellFormed 4 = false := by decide
theorem test_wf_src1 : (Instr.store .noreg .noreg .noreg (.reg 4) .noreg).wellFormed 4 = false := by decide
theorem test_wf_src2 : (Instr.trap .noreg .noreg .noreg .noreg (.reg 4)).wellFormed 4 = false := by decide

/-! ## Decoding: words written field by field, from bit 47 down: class, zero, dst1, dst0, src2, src1, src0 (R81, R84, R85) -/

theorem test_decode_icomp :
    decode 64 (0b000#3 ++ 0b00000#5 ++ 0b00000001#8 ++ 0b00000010#8 ++ 0b00000011#8 ++ 0b00000100#8 ++ 0b00000101#8) =
      .ok (.icomp (.reg 2) (.reg 1) (.reg 5) (.reg 4) (.reg 3)) := by rfl

theorem test_decode_fcomp :
    decode 64 (0b001#3 ++ 0b00000#5 ++ 0b11111111#8 ++ 0b00100100#8 ++ 0b11111111#8 ++ 0b00100000#8 ++ 0b00100010#8) =
      .ok (.fcomp (.reg 36) .noreg (.reg 34) (.reg 32) .noreg) := by rfl

theorem test_decode_load :
    decode 64 (0b010#3 ++ 0b00000#5 ++ 0b00101000#8 ++ 0b00000101#8 ++ 0b11111111#8 ++ 0b11111111#8 ++ 0b00101000#8) =
      .ok (.load (.reg 5) (.reg 40) (.reg 40) .noreg .noreg) := by rfl

theorem test_decode_store :
    decode 64 (0b011#3 ++ 0b00000#5 ++ 0b11111111#8 ++ 0b11111111#8 ++ 0b11111111#8 ++ 0b00000001#8 ++ 0b00100100#8) =
      .ok (.store .noreg .noreg (.reg 36) (.reg 1) .noreg) := by rfl

theorem test_decode_jump :
    decode 64 (0b100#3 ++ 0b00000#5 ++ 0b11111111#8 ++ 0b11111111#8 ++ 0b11111111#8 ++ 0b11111111#8 ++ 0b11111111#8) =
      .ok (.jump .noreg .noreg .noreg .noreg .noreg) := by rfl

theorem test_decode_branch :
    decode 64 (0b101#3 ++ 0b00000#5 ++ 0b11111111#8 ++ 0b11111111#8 ++ 0b11111111#8 ++ 0b11111111#8 ++ 0b00000001#8) =
      .ok (.branch .noreg .noreg (.reg 1) .noreg .noreg) := by rfl

theorem test_decode_trap :
    decode 64 (0b110#3 ++ 0b00000#5 ++ 0b11111111#8 ++ 0b11111111#8 ++ 0b11111111#8 ++ 0b11111111#8 ++ 0b11111111#8) =
      .ok (.trap .noreg .noreg .noreg .noreg .noreg) := by rfl

/-- V20: the encoder writes the same word. -/
theorem test_encode_store : encode (.store .noreg .noreg (.reg 36) (.reg 1) .noreg) = 0x60FFFFFF0124#48 := by decide

/-- R84: the reserved class. -/
theorem test_decode_reserved_class : decode 64 0xE0FFFFFFFFFF#48 = .error .reservedClass := by rfl

/-- R86: a bit of the zero field. -/
theorem test_decode_zero_field : decode 64 0x01FFFFFFFFFF#48 = .error .zeroFieldSet := by rfl

/-- R86: the first register that is none, and the last code before `NOREG`. -/
theorem test_decode_register_range :
    decode 64 0x00FFFFFFFF40#48 = .error .registerOutOfRange ∧ decode 64 0x00FFFFFFFFFE#48 = .error .registerOutOfRange ∧
      decode 64 0x00FFFFFFFF3F#48 = .ok (.icomp .noreg .noreg (.reg 63) .noreg .noreg) := ⟨rfl, rfl, rfl⟩

theorem test_decodeTableWord :
    decodeTableWord 48 0x60FFFFFF0124 = some (.store .noreg .noreg (.reg 36) (.reg 1) .noreg) ∧
      decodeTableWord 48 0xE0FFFFFFFFFF = none := by decide

/-- R88: a listing line. -/
theorem test_listing :
    Instr.toListing 3 (.store .noreg .noreg (.reg 36) (.reg 1) .noreg) = "3: store -, -, r36, r1, -" := by decide

/-! ## One step of each class -/

/-- Cursor, queue, cycle, bus and stamps of record 1. -/
def view (s : State) : Nat × List Nat × Nat × Ref × (Nat × Nat × Nat × Nat) :=
  (s.fetchIndex, s.ifq, s.cycle, s.cdb, (s.record 1).stamps)

/-- V1: cycle 1 of an `icomp`: fetched, queued, stamped. -/
theorem test_icomp_fetch :
    seen view (step (State.reset.withFetchWord 48 0x00FF01FFFF02)) = some (1, [1], 2, none, (1, 0, 0, 0)) := by decide

/-- V1: cycle 7 of an `icomp`: broadcast four cycles after the start. -/
theorem test_icomp_broadcast : seen view (step (after 6 [wInt])) = some (1, [], 8, some 1, (1, 2, 3, 7)) := by decide

/-- R145 to R147: the map entry a source captures is the older producer, then the register is renamed. -/
theorem test_fcomp_dispatch :
    seen (fun t => ((t.record 2).dep0, t.producer 1, t.producer 2, t.rsFp)) (step (after 2 [wInt, wFp])) =
      some (some 1, some 1, some 2, [some 2]) := by decide

theorem test_fcomp_fetch :
    seen view (step (State.reset.withFetchWord 48 0x20FF02FFFF01)) = some (1, [1], 2, none, (1, 0, 0, 0)) := by decide

theorem test_load_dispatch :
    seen (fun t => (t.ifq, t.rsInt, t.producer 3, (t.record 1).stamps)) (step (after 1 [wLoad])) =
      some ([], [some 1, none], some 1, (1, 2, 0, 0)) := by decide

/-- R104, R189: a store starts at cycle 3 and leaves its slots in cycle 7 without the bus. -/
theorem test_store_leaves :
    seen (fun t => (t.rsInt, t.fuInt, view t)) (step (after 6 [wStore])) =
      some ([none, none], [none], 1, [], 8, none, (1, 2, 3, 0)) := by decide

/-- R105, R141: a jump is discarded in the cycle after its dispatch stamp; nothing else is stamped. -/
theorem test_jump_discarded : seen view (step (after 1 [wJump])) = some (1, [], 3, none, (1, 0, 0, 0)) := by decide

/-- R106: the sources of a branch are not looked up. -/
theorem test_branch_discarded :
    seen (fun t => (t.ifq, (t.record 2).dep0, (t.record 2).stamps)) (step (after 2 [wInt, wBranch])) =
      some ([], none, (2, 0, 0, 0)) := by decide

/-- R127, R128: a trap is skipped and the next record is fetched in the same cycle. -/
theorem test_trap_skipped :
    seen (fun t => (view t, (t.record 2).stamps)) (step (start [wTrap, wInt])) =
      some ((2, [2], 2, none, (0, 0, 0, 0)), (1, 0, 0, 0)) := by decide

/-- V5: a trailing trap is `Fatal(TraceOverrun)`; the cycle is not counted. -/
theorem test_trap_last :
    seen (fun t => (t.fatal, view t)) (step (start [wTrap])) =
      some (some .traceOverrun, 1, [], 1, none, (0, 0, 0, 0)) := by decide

/-! ## The hypotheses of the statements can be met -/

theorem witness_DecodeAfterEncodeIsIdentity :
    255 ≤ 255 ∧ (Instr.store .noreg (.reg 254) (.reg 0) .noreg (.reg 254)).wellFormed 255 = true := by decide

theorem witness_EncodeAfterDecodeIsIdentity :
    255 ≤ 255 ∧ decode 255 0xC0FE00FFFF80#48 = .ok (.trap (.reg 0) (.reg 254) (.reg 128) .noreg .noreg) := ⟨by decide, rfl⟩

theorem witness_ResetAfterARunIsTheResetState :
    ∃ s, runSteps 16 3 (State.resetWith tiny [wInt]) = .next s := ⟨_, rfl⟩

theorem witness_NonTrapRecordIsEnqueued :
    (∀ c ∈ [OpClass.icomp, .fcomp, .load, .store, .jump, .branch],
      (Instr.ofClass c ⟨.noreg, .noreg, .noreg, .noreg, .noreg⟩).cls ≠ .trap) ∧
      (start [wInt]).visit = .fetch ∧ (start [wInt]).fetchIndex < (start [wInt]).size := by decide

theorem witness_TrapRecordIsSkipped :
    (start [wTrap]).visit = .fetch ∧ (start [wTrap]).fetchIndex < (start [wTrap]).size := by decide

theorem witness_CursorPastTheTraceIsFatal :
    (start []).visit = .fetch ∧ (start []).fatal = none ∧ (start []).size ≤ (start []).fetchIndex := by decide

/-- The state in which the head of the queue is visited. -/
def atHead (s : State) : State := { s with visit := .dispatch }

/-- The last integer station. -/
theorem witness_IntegerRecordIsAllocated :
    (atHead (after 2 [wInt, wSelf])).visit = .dispatch ∧ (atHead (after 2 [wInt, wSelf])).ifq = [2] ∧
      2 ≤ (atHead (after 2 [wInt, wSelf])).mem.recs.length ∧ (atHead (after 2 [wInt, wSelf])).rsInt[1]? = some none ∧
      ∀ k < 1, (atHead (after 2 [wInt, wSelf])).rsInt[k]? ≠ some none := by decide

/-- The first integer station. -/
theorem witness_IntegerRecordIsAllocated_first :
    (atHead (after 1 [wInt])).visit = .dispatch ∧ (atHead (after 1 [wInt])).ifq = [1] ∧
      (atHead (after 1 [wInt])).rsInt[0]? = some none ∧ 1 ≤ (atHead (after 1 [wInt])).mem.recs.length := by decide

theorem witness_FloatingPointRecordIsAllocated :
    (atHead (after 1 [wFp])).visit = .dispatch ∧ (atHead (after 1 [wFp])).ifq = [1] ∧
      (atHead (after 1 [wFp])).rsFp[0]? = some none ∧ 1 ≤ (atHead (after 1 [wFp])).mem.recs.length ∧
      ∀ k < 0, (atHead (after 1 [wFp])).rsFp[k]? ≠ some none := by decide

theorem witness_CaptureComesBeforeRenaming :
    ∃ t, exec (.icomp (.reg 1) .noreg (.reg 1) .noreg .noreg) (atHead (after 2 [wInt, wSelf])) = .next t ∧
      (atHead (after 2 [wInt, wSelf])).ifq = [2] ∧ 2 ≤ (atHead (after 2 [wInt, wSelf])).mem.recs.length ∧
      1 < (atHead (after 2 [wInt, wSelf])).nRegs ∧ none ∈ (atHead (after 2 [wInt, wSelf])).stations .int := ⟨_, rfl, by decide, by decide, by decide, by decide⟩

theorem witness_FullStationsStallTheHead :
    none ∉ ({ start [] with rsInt := [some 1, some 2], rsFp := [some 3], visit := .dispatch } : State).rsInt ∧
      none ∉ ({ start [] with rsInt := [some 1, some 2], rsFp := [some 3], visit := .dispatch } : State).rsFp := by decide

theorem witness_BranchAtTheHeadIsDiscarded :
    (atHead (after 1 [wJump])).visit = .dispatch ∧ (atHead (after 1 [wJump])).ifq = 1 :: [] := by decide

theorem witness_TrapAtTheHeadIsFatal :
    (atHead (start [])).visit = .dispatch ∧ (atHead (start [])).fatal = none ∧
      ({ atHead (start []) with fatal := some .traceOverrun } : State).fatal ≠ none := by decide

theorem witness_FinishedWriterKeepsItsSlots :
    ∀ c ∈ [OpClass.icomp, .fcomp, .load],
      (Instr.ofClass c ⟨.noreg, .noreg, .noreg, .noreg, .noreg⟩).cls.writesResult = true ∧
        ({ start [] with visit := .complete .fp 1 } : State).visit = .complete .fp 1 := by decide

theorem witness_FinishedNonWriterLeavesItsSlots :
    ∀ c ∈ [OpClass.store, .jump, .branch, .trap],
      (Instr.ofClass c ⟨.noreg, .noreg, .noreg, .noreg, .noreg⟩).cls.writesResult = false ∧
        ({ start [] with visit := .complete .int 1 } : State).visit = .complete .int 1 := by decide

theorem witness_BusWinnerIsStampedAndRemoved :
    ({ after 6 [wInt] with visit := .broadcast 1 } : State).visit = .broadcast 1 ∧ 1 ≤ (after 6 [wInt]).mem.recs.length := by decide

/-- The cycle after the broadcast, the broadcast cycle itself, and an empty bus. -/
theorem witness_RetireClearsOnlyItsOwnMapEntries :
    ((after 7 [wInt]).cdb = some 1 ∧ ((after 7 [wInt]).record 1).tCdb + 1 ≤ (after 7 [wInt]).cycle) ∧
      (({ after 7 [wInt] with cycle := 7 } : State).cdb = some 1 ∧
        7 < (({ after 7 [wInt] with cycle := 7 } : State).record 1).tCdb + 1) ∧ (start []).cdb = none := by decide

/-- Records 1 (`icomp`) and 2 (`fcomp`) and 3 (`store`) in units, all finished at cycle 20. -/
def finishedThree : State :=
  { start [wInt, wFp, wStore] with
    cycle := 20, fetchIndex := 3, rsInt := [some 1, some 3], rsFp := [some 2], fuInt := [some 3, some 1], fuFp := [some 2] }

theorem witness_CompletionReleasesExactlyTheFinishedNonWriters :
    seen (fun t => (t.fatal, t.fuInt)) (completeGroup .int finishedThree) = some (none, [none, some 1]) ∧
      (3 ∈ occupants (finishedThree.units .int) ∧ finishedThree.finished .int 3 = true ∧
        finishedThree.classHas OpClass.writesResult 3 = false) ∧
      1 ∈ occupants (finishedThree.units .int) ∧ finishedThree.classHas OpClass.writesResult 1 = true := by decide

theorem witness_OldestCandidateWinsTheBus :
    finishedThree.mem.wf ∧ finishedThree.fatal = none ∧ finishedThree.candidates = [1, 2] ∧
      ∀ i ∈ finishedThree.candidates, 1 ≤ i := by decide

/-- No candidate: no unit occupied, and an occupant in the last cycle before it has finished. -/
theorem witness_OldestCandidateWinsTheBus_none :
    (start [wInt, wFp]).candidates = [] ∧ (after 5 [wInt]).candidates = [] ∧ occupants ((after 5 [wInt]).units .int) = [1] := by decide

/-- A free unit with an eligible occupant; an occupied unit; nothing eligible. -/
theorem witness_FreeUnitTakesTheOldestEligible :
    ((after 2 [wInt]).units .int)[0]? = some none ∧ (after 2 [wInt]).mem.holds 1 ∧
      some 1 ∈ (after 2 [wInt]).stations .int ∧ (after 2 [wInt]).eligible 1 = true ∧
      occupants ((after 2 [wInt]).stations .int) = [1] ∧
      ((after 3 [wInt]).units .int)[0]? ≠ some none ∧ (after 3 [wInt]).eligible 1 = false := by decide

theorem witness_UnstampedOccupantsGetTheIssueStamp :
    finishedThree.mem.holds 1 ∧ 1 ∈ finishedThree.stationed ∧ (finishedThree.record 1).tIssue = 0 ∧
      (start [wInt]).mem.holds 1 ∧ 1 ∉ (start [wInt]).stationed := by decide

theorem witness_FetchSkipsTrapsWithinTheCycle :
    (start [wTrap, wInt]).fatal = none ∧ (start [wTrap, wInt]).visit = .fetch ∧ (start [wTrap, wInt]).fetchGuard 16 = true ∧
      (∀ i ≤ 0 + 1, 0 < i → (start [wTrap, wInt]).classHas OpClass.isTrap i = true) ∧
      (start [wTrap, wInt]).classHas (fun c => !c.isTrap) (0 + 1 + 1) = true := by decide

/-- No trap to skip. -/
theorem witness_FetchSkipsTrapsWithinTheCycle_none :
    (start [wInt]).fatal = none ∧ (start [wInt]).visit = .fetch ∧ (start [wInt]).fetchGuard 16 = true ∧
      (start [wInt]).classHas (fun c => !c.isTrap) (0 + 0 + 1) = true := by decide

/-- Two traps, and the record behind them is the last of the trace. -/
theorem witness_FetchSkipsTrapsWithinTheCycle_last :
    (after 1 [wInt, wTrap, wTrap, wStore]).fatal = none ∧ (after 1 [wInt, wTrap, wTrap, wStore]).visit = .fetch ∧
      (after 1 [wInt, wTrap, wTrap, wStore]).fetchGuard 16 = true ∧ (after 1 [wInt, wTrap, wTrap, wStore]).fetchIndex = 1 ∧
      (∀ i ≤ 1 + 2, 1 < i → (after 1 [wInt, wTrap, wTrap, wStore]).classHas OpClass.isTrap i = true) ∧
      (after 1 [wInt, wTrap, wTrap, wStore]).classHas (fun c => !c.isTrap) (1 + 2 + 1) = true ∧
      (after 1 [wInt, wTrap, wTrap, wStore]).size = 1 + 2 + 1 := by decide

theorem witness_TrailingTrapIsFatal :
    (start [wTrap, wTrap]).fatal = none ∧ (start [wTrap, wTrap]).visit = .fetch ∧ (start [wTrap, wTrap]).fetchGuard 16 = true ∧
      ∀ i ≤ (start [wTrap, wTrap]).size, 0 < i → (start [wTrap, wTrap]).classHas OpClass.isTrap i = true := by decide

theorem witness_QueueHeadGetsTheDispatchStamp :
    ({ start [wInt] with ifq := [1] } : State).mem.holds 1 ∧ ({ start [wInt] with ifq := [1] } : State).ifq.head? = some 1 ∧
      (({ start [wInt] with ifq := [1] } : State).record 1).tDisp = 0 := by decide

theorem witness_StepRunsTheFetchedInstruction :
    ∃ t u i, stagesBeforeFetch (after 1 [wInt, wFp]) = .next t ∧
      (after 1 [wInt, wFp]).traceRead ((after 1 [wInt, wFp]).fetchIndex + 1) = some (.ok i) ∧ exec i t = .next u ∧
      (after 1 [wInt, wFp]).fatal = none ∧ (after 1 [wInt, wFp]).ended = false ∧ t.fatal = none ∧ t.visit = .fetch ∧
      t.fetchGuard Config.ifqBound = true ∧ i.wellFormed (after 1 [wInt, wFp]).nRegs = true ∧ i.cls ≠ .trap := ⟨_, _, _, rfl, rfl, rfl, by decide, by decide, by decide, by decide, by decide, by decide, by decide⟩

theorem witness_StepRunsTheFetchedInstruction_trap :
    ∃ t u i, stagesBeforeFetch (start [wTrap, wFp]) = .next t ∧
      (start [wTrap, wFp]).traceRead ((start [wTrap, wFp]).fetchIndex + 1) = some (.ok i) ∧ exec i t = .next u ∧
      (start [wTrap, wFp]).fatal = none ∧ (start [wTrap, wFp]).ended = false ∧ t.fatal = none ∧ t.visit = .fetch ∧
      t.fetchGuard Config.ifqBound = true ∧ i.wellFormed (start [wTrap, wFp]).nRegs = true ∧ i.cls = .trap := ⟨_, _, _, rfl, rfl, rfl, by decide, by decide, by decide, by decide, by decide, by decide, by decide⟩

theorem witness_DispatchRunsTheHeadInstruction :
    ∃ i u, (after 1 [wInt]).traceRead 1 = some (.ok i) ∧ exec i (atHead (after 1 [wInt])) = .next u ∧
      (after 1 [wInt]).visit = .fetch ∧ (after 1 [wInt]).ifq.head? = some 1 ∧ u.fatal = none := ⟨_, _, rfl, rfl, by decide, by decide, by decide⟩

theorem witness_DispatchRunsTheHeadInstruction_fatal :
    ∃ i u, ({ start [wTrap] with ifq := [1] } : State).traceRead 1 = some (.ok i) ∧
      exec i (atHead { start [wTrap] with ifq := [1] }) = .next u ∧ u.fatal = some .trapAtHead := ⟨_, _, rfl, rfl, by decide⟩

theorem witness_IllFormedRecordIsRefused :
    ∃ t, stagesBeforeFetch (start [wBad]) = .next t ∧ t.fatal = none ∧ t.fetchGuard Config.ifqBound = true ∧
      (start [wBad]).traceRead ((start [wBad]).fetchIndex + 1) = some (.error .reservedClass) ∧ (start [wBad]).ended = false := ⟨_, rfl, by decide, by decide, rfl, by decide⟩

theorem witness_FatalStateTakesNoStep :
    (after 1 [wTrap]).fatal = some .traceOverrun := by decide

/-- A step of an ended run, an ordinary cycle. -/
theorem witness_CycleCounterCountsCycles :
    (∃ t, step (after 1 []) = .next t ∧ (after 1 []).ended = true) ∧
      ∃ t, step (start [wInt]) = .next t ∧ (start [wInt]).ended = false ∧ t.fatal = none := ⟨⟨_, rfl, by decide⟩, _, rfl, by decide, by decide⟩

theorem witness_StepKeepsTheInputs :
    ∃ t, step (start [wInt, wTrap]) = .next t := ⟨_, rfl⟩

theorem witness_QueueMovesInOrder :
    ∃ t, step (after 1 [wInt, wFp]) = .next t ∧ t.fatal = none := ⟨_, rfl, by decide⟩

theorem witness_StoreIsNeverBroadcast :
    (∃ t, step (after 6 [wStore]) = .next t ∧ t.fatal = none) ∧ (after 6 [wStore]).classHas (· == .store) 1 = true := ⟨⟨_, rfl, by decide⟩, by decide⟩

/-- The state before the cycle in which record 2 starts: its producer, record 1, is on the bus. -/
def handover : State := after 7 [wInt, wSelf, wBranch]

theorem handover_pipelineInv : handover.PipelineInv := by
  refine ⟨?_, ?_, ?_, ?_, ?_, ?_, ?_, ?_, ?_, ?_, ?_, ?_, ?_⟩ <;> decide

theorem handover_step : ∃ t, step handover = .next t ∧ t.fatal = none := ⟨_, rfl, by decide⟩

theorem witness_StepKeepsQueueShape :
    (∃ t, step handover = .next t ∧ t.fatal = none) ∧ handover.QueueInv := ⟨handover_step, by decide⟩

theorem witness_StepKeepsSlotOccupancy :
    handover.PipelineInv ∧ ∃ t, step handover = .next t ∧ t.fatal = none := ⟨handover_pipelineInv, handover_step⟩

theorem witness_StepKeepsStampOrder :
    handover.PipelineInv ∧ ∃ t, step handover = .next t ∧ t.fatal = none := ⟨handover_pipelineInv, handover_step⟩

theorem witness_StepKeepsFrontEndOrder :
    handover.PipelineInv ∧ ∃ t, step handover = .next t ∧ t.fatal = none := ⟨handover_pipelineInv, handover_step⟩

theorem witness_StepKeepsMapAndDependencyLaw :
    handover.PipelineInv ∧ ∃ t, step handover = .next t ∧ t.fatal = none := ⟨handover_pipelineInv, handover_step⟩

theorem witness_StepKeepsBusConsistency :
    handover.PipelineInv ∧ ∃ t, step handover = .next t ∧ t.fatal = none := ⟨handover_pipelineInv, handover_step⟩

theorem witness_StepKeepsPipelineInvariant :
    handover.PipelineInv ∧ ∃ t, step handover = .next t ∧ t.fatal = none := ⟨handover_pipelineInv, handover_step⟩

theorem witness_StepKeepsMapProducersLive :
    handover.PipelineInv ∧ handover.traceOk = true ∧ handover.LiveMapInv ∧ ∃ t, step handover = .next t ∧ t.fatal = none := ⟨handover_pipelineInv, by decide, by decide, handover_step⟩

theorem witness_BusIsEmptyAfterRetire :
    handover.PipelineInv ∧ handover.cdb = some 1 := ⟨handover_pipelineInv, by decide⟩

theorem witness_NoSameCycleForwarding :
    handover.PipelineInv ∧ ∃ t, step handover = .next t ∧ t.fatal = none ∧ (handover.record 2).tExec = 0 ∧ (t.record 2).tExec ≠ 0 ∧
      1 ∈ (t.record 2).deps := ⟨handover_pipelineInv, _, rfl, by decide, by decide, by decide, by decide⟩

theorem witness_OnlyATrailingTrapIsFatal :
    (after 1 [wInt, wTrap]).PipelineInv ∧ ∃ t, step (after 1 [wInt, wTrap]) = .next t ∧ t.fatal ≠ none := ⟨by refine ⟨?_, ?_, ?_, ?_, ?_, ?_, ?_, ?_, ?_, ?_, ?_, ?_, ?_⟩ <;> decide, _, rfl, by decide⟩

theorem witness_StepAnswersOnWellFormedRecords :
    handover.PipelineInv ∧ handover.fatal = none ∧ (handover.instrAt 1).isSome = true ∧ (handover.instrAt 2).isSome = true ∧
      (handover.instrAt 3).isSome = true ∧ handover.size = 3 := ⟨handover_pipelineInv, by decide, by decide, by decide, by decide, by decide⟩

/-- A run of one record of each kind, ended: `trap`, `branch`, `store`, `load`. -/
def endedRun : State :=
  { start [wTrap, wBranch, wStore, wLoad] with
    cycle := 14, fetchIndex := 4,
    mem :=
      { trace := [wTrap, wBranch, wStore, wLoad],
        recs :=
          [.zero, { RecordState.zero with tDisp := 1 }, { RecordState.zero with tDisp := 2, tIssue := 3, tExec := 4 },
            { RecordState.zero with tDisp := 3, tIssue := 4, tExec := 8, tCdb := 12 }] } }

theorem witness_FinalStampsByClass :
    endedRun.PipelineInv ∧ endedRun.done = true ∧ endedRun.size = 4 ∧
      endedRun.classHas OpClass.isTrap 1 = true ∧ endedRun.classHas OpClass.isBranch 2 = true ∧
      endedRun.classHas (· == .store) 3 = true ∧ endedRun.classHas OpClass.writesResult 4 = true := ⟨by refine ⟨?_, ?_, ?_, ?_, ?_, ?_, ?_, ?_, ?_, ?_, ?_, ?_, ?_⟩ <;> decide, by decide, by decide, by decide, by decide, by decide, by decide⟩

theorem witness_MapTableConverges :
    traceWellFormed tiny.nRegs [wInt] = true ∧ ∃ s, runSteps Config.ifqBound 8 (State.resetWith tiny [wInt]) = .next s ∧ s.done = true := ⟨by decide, _, rfl, by decide⟩

theorem witness_ReaderOfAStoreDestinationHangs :
    (after 3 [wStoreDst, wSelf]).PipelineInv ∧ 2 ∈ (after 3 [wStoreDst, wSelf]).stationed ∧
      1 ∈ ((after 3 [wStoreDst, wSelf]).record 2).deps ∧ (after 3 [wStoreDst, wSelf]).classHas (· == .store) 1 = true ∧
      ∃ t, runSteps Config.ifqBound 2 (after 3 [wStoreDst, wSelf]) = .next t ∧ t.fatal = none := ⟨by refine ⟨?_, ?_, ?_, ?_, ?_, ?_, ?_, ?_, ?_, ?_, ?_, ?_, ?_⟩ <;> decide, by decide, by decide, by decide, _, rfl, by decide⟩

theorem witness_QueueDepthIsUnobservable :
    lastNoTrap tiny.nRegs [wInt, wJump] = true ∧ decode tiny.nRegs wInt = .ok (.icomp (.reg 1) .noreg (.reg 2) .noreg .noreg) ∧
      decode tiny.nRegs wJump = .ok (.jump .noreg .noreg .noreg .noreg .noreg) ∧
      (∃ s, runSteps 0 3 (State.resetWith tiny [wInt, wJump]) = .next s) ∧
      ∃ t, runSteps 16 3 (State.resetWith tiny [wInt, wJump]) = .next t := ⟨by decide, rfl, rfl, ⟨_, rfl⟩, ⟨_, rfl⟩⟩

theorem witness_WellFormedTraceTerminates :
    tiny.wellFormed = true ∧ traceWellFormed tiny.nRegs [wTrap, wStore, wFp] = true := by decide

/-- The premises of the timelines hold in a reset state with one record of the class. -/
theorem arrives_idle (w : TraceWord) (i : Instr) (h : decode 4 w = .ok i) (h0 : i.operands.src0 = .noreg ∨ i.operands.src0 = .reg 2)
    (h1 : i.operands.src1 = .noreg) (h2 : i.operands.src2 = .noreg) : ArrivesIdle (start [w]) i := by
  refine ⟨rfl, ⟨rfl, rfl, Nat.le_refl 1⟩, rfl, rfl, rfl, rfl, rfl, rfl, rfl, nofun, nofun, nofun, nofun, rfl, ?_, ?_, ?_, ?_⟩
  · have : (start [w]).traceRead (start [w]).size = some (decode 4 w) := rfl
    simp [State.instrAt, this, h]
  · obtain h0 | h0 := h0 <;> rw [h0] <;> rfl
  · rw [h1]; rfl
  · rw [h2]; rfl

theorem witness_UnobstructedTimelineOfAResultWriter :
    ArrivesIdle (start [wInt]) (.icomp (.reg 1) .noreg (.reg 2) .noreg .noreg) ∧
      ArrivesIdle (start [0x20FF01FFFF02#48]) (.fcomp (.reg 1) .noreg (.reg 2) .noreg .noreg) ∧
      ArrivesIdle (start [wLoad]) (.load (.reg 3) .noreg .noreg .noreg .noreg) := 
  ⟨arrives_idle _ _ rfl (.inr rfl) rfl rfl, arrives_idle _ _ rfl (.inr rfl) rfl rfl, arrives_idle _ _ rfl (.inl rfl) rfl rfl⟩

theorem witness_UnobstructedTimelineOfAStore :
    ArrivesIdle (start [wStore]) (.store .noreg .noreg (.reg 2) .noreg .noreg) := arrives_idle _ _ rfl (.inr rfl) rfl rfl

theorem witness_UnobstructedTimelineOfABranch :
    ArrivesIdle (start [wJump]) (.jump .noreg .noreg .noreg .noreg .noreg) := arrives_idle _ _ rfl (.inl rfl) rfl rfl

end Sys2Proof.Machine.Tests
end

section

/-! # Proofs: the stamping part of the fetch stage (spec/41_fetch.md) -/

namespace Sys2Proof.Machine

/-- The frame of the stamping part: it writes the record store and nothing else, and keeps the trace and the number of
records (R130). -/
theorem stampHead_frame (s : State) :
    ∃ m, stampHead s = { s with mem := m } ∧ m.trace = s.mem.trace ∧ m.recs.length = s.mem.recs.length := by
  unfold stampHead
  split
  case h_1 => exact ⟨s.mem, rfl, rfl, rfl⟩
  case h_2 h _ => exact ⟨s.mem.updateRec h _, rfl, updateRec_trace .., updateRec_length ..⟩

/-- Settles O28: the record of the head is `stampHead_record` where the store holds it, the rest is the frame. -/
theorem queueHeadGetsTheDispatchStamp : Obligations.QueueHeadGetsTheDispatchStamp := by
  intro s i hi
  refine ⟨?_, stampHead_frame s⟩
  simp only [stampHead_record, and_iff_right hi]

end Sys2Proof.Machine
end

section

/-! # Proofs: the dispatch stage (spec/42_dispatch.md) -/

namespace Sys2Proof.Machine

/-- On a queue that is not empty, the pop of a discard leaves the records behind the head. -/
theorem discardHead_eq_of_ifq_cons {s : State} {h : Nat} {rest : List Nat} (hq : s.ifq = h :: rest) :
    s.discardHead = { s with ifq := rest } := by
  simp only [State.discardHead, pop, hq, List.tail_cons]

/-- The dispatch action of any record of a branch class, whatever its register fields hold (R141). -/
theorem exec_eq_of_isBranch_at_dispatch {i : Instr} {s : State} {h : Nat} {rest : List Nat}
    (hi : i.cls.isBranch = true) (hv : s.visit = .dispatch) (hq : s.ifq = h :: rest) :
    exec i s = .next { s with ifq := rest } := by
  rw [exec_at_dispatch hv, if_pos hi, discardHead_eq_of_ifq_cons hq]

/-- Settles O15: `jump` and `branch` are the two branch classes. -/
theorem branchAtTheHeadIsDiscarded : Obligations.BranchAtTheHeadIsDiscarded := by
  intro d0 d1 s0 s1 s2 s h rest hv hq
  exact ⟨exec_eq_of_isBranch_at_dispatch rfl hv hq, exec_eq_of_isBranch_at_dispatch rfl hv hq⟩

end Sys2Proof.Machine
end

section

/-! # Proofs: the issue stage (spec/43_issue.md) -/

namespace Sys2Proof.Machine

/-! ### What entering a unit writes (R164) -/

@[simp] theorem assignUnit_units_self (s : State) (g : Group) (k i : Nat) :
    (s.assignUnit g k i).units g = (s.units g).set k (some i) := by
  simp [State.assignUnit]

theorem assignUnit_units_other (s : State) {g l : Group} (h : g ≠ l) (k i : Nat) :
    (s.assignUnit g k i).units l = s.units l := by
  simp [State.assignUnit, setUnits_units_other s h]

theorem assignUnit_record_self {s : State} {i : Nat} (h : s.mem.holds i) (g : Group) (k : Nat) :
    (s.assignUnit g k i).record i = { s.record i with tExec := s.cycle } := by
  rw [State.assignUnit, record_updateRecord_self (by rwa [setUnits_mem]), record_of_mem_eq (setUnits_mem ..)]

theorem assignUnit_record_other {i j : Nat} (h : i ≠ j) (s : State) (g : Group) (k : Nat) :
    (s.assignUnit g k i).record j = s.record j := by
  rw [State.assignUnit, record_updateRecord_other h, record_of_mem_eq (setUnits_mem ..)]

theorem assignUnit_sameFront (s : State) (g : Group) (k i : Nat) : SameFront s (s.assignUnit g k i) := by
  obtain ⟨htrace, hlen, -⟩ := assignUnit_sameInputs s g k i
  exact ⟨assignUnit_cycle .., assignUnit_fetchIndex .., htrace, hlen, assignUnit_fatal .., assignUnit_visit ..⟩

/-! ### Which instruction a unit slot takes, if any (R160, R163) -/

/-- Nothing is selected when the stations of the group hold nothing eligible. -/
theorem selectFor_eq_none {s : State} {g : Group} :
    s.selectFor g = none ↔ ∀ i, some i ∈ s.stations g → s.eligible i = false := by
  simp [State.selectFor, minIndex_eq_none]

theorem issueSlot_eq_assignUnit {g : Group} {s : State} {k i : Nat} (hk : (s.units g)[k]? = some none)
    (hi : s.selectFor g = some i) : issueSlot g s k = s.assignUnit g k i := by
  simp [issueSlot, hk, hi]

theorem issueSlot_eq_self_of_selectFor_eq_none {g : Group} {s : State} (h : s.selectFor g = none) (k : Nat) :
    issueSlot g s k = s := by
  obtain hs | ⟨i, -, hi, -⟩ := issueSlot_cases g s k
  · exact hs
  · rw [h] at hi
    cases hi

theorem issueSlot_eq_self_of_not_free {g : Group} {s : State} {k : Nat} (h : (s.units g)[k]? ≠ some none) :
    issueSlot g s k = s := by
  obtain hs | ⟨i, hk, -, -⟩ := issueSlot_cases g s k
  · exact hs
  · exact absurd hk h

/-- Settles O24: the oldest eligible occupant is the selected one, so a free slot is an `assignUnit`; where nothing is
selected, or the slot is not free, `issueSlot` keeps the state. -/
theorem freeUnitTakesTheOldestEligible : Obligations.FreeUnitTakesTheOldestEligible := by
  intro g s k
  refine ⟨fun i hk hheld hstation heligible holdest => ?starts,
    fun hnone => issueSlot_eq_self_of_selectFor_eq_none (selectFor_eq_none.mpr hnone) k,
    issueSlot_eq_self_of_not_free⟩
  case starts =>
    have hselected : s.selectFor g = some i := selectFor_eq_some.mpr ⟨⟨hstation, heligible⟩, holdest⟩
    rw [issueSlot_eq_assignUnit hk hselected]
    exact ⟨assignUnit_units_self .., assignUnit_record_self hheld g k, fun j hj => assignUnit_record_other hj.symm s g k,
      assignUnit_rsInt .., assignUnit_rsFp .., fun l hl => assignUnit_units_other s hl.symm k i,
      assignUnit_mapTable .., assignUnit_ifq .., assignUnit_cdb .., assignUnit_sameFront s g k i⟩

end Sys2Proof.Machine
end

section

/-! # Proofs: the reset state (spec/70_reset_and_hazards.md) -/

namespace Sys2Proof.Machine

/-- The map table of a reset state names no producer, for a register number outside the table too. -/
theorem producer_resetWith (p : Config.Params) (trace : List TraceWord) (r : Nat) :
    (State.resetWith p trace).producer r = none := by
  simp only [State.producer, State.resetWith, List.getElem?_replicate]
  split <;> rfl

/-- Every station and unit of a reset state is free. -/
theorem slots_resetWith (p : Config.Params) (trace : List TraceWord) {r : Ref}
    (hr : r ∈ (State.resetWith p trace).rsInt ++ (State.resetWith p trace).rsFp ++
      (State.resetWith p trace).fuInt ++ (State.resetWith p trace).fuFp) : r = none := by
  simp only [State.resetWith, List.mem_append] at hr
  obtain ((hr | hr) | hr) | hr := hr <;> exact List.eq_of_mem_replicate hr

/-- Settles O6: the scalars hold by definition; the map table, the slots and the records each by the lemma on it, and
the counts are the lengths of replicated lists. -/
theorem resetLeavesEverythingEmpty : Obligations.ResetLeavesEverythingEmpty := by
  intro p trace s
  have hrecord (i : Nat) : s.record i = RecordState.zero := record_resetWith p trace i
  refine ⟨rfl, rfl, rfl, producer_resetWith p trace, fun r => slots_resetWith p trace, rfl,
    List.length_replicate, List.length_replicate, List.length_replicate, List.length_replicate,
    List.length_replicate, rfl, List.length_replicate, fun i => ?records, rfl⟩
  case records =>
    rw [hrecord i]
    exact ⟨rfl, rfl, rfl, rfl⟩

end Sys2Proof.Machine
end

section

/-! # Proofs: the order of the fetch queue (spec/41_fetch.md, spec/42_dispatch.md)

Stages 1 to 3 and both stamping parts leave the queue and the cursor alone; the allocation part takes at most the head;
the fetch part appends at most the record at the cursor. -/

namespace Sys2Proof.Machine

/-- The fetch queue and the fetch cursor are the same in both states. -/
def SameQueue (s t : State) : Prop := t.ifq = s.ifq ∧ t.fetchIndex = s.fetchIndex

theorem SameQueue.refl (s : State) : SameQueue s s := ⟨rfl, rfl⟩

theorem SameQueue.trans {s t u : State} (h : SameQueue s t) (k : SameQueue t u) : SameQueue s u :=
  ⟨k.1.trans h.1, k.2.trans h.2⟩

/-! ### Stages 1 to 3 leave the queue alone -/

theorem cdbToRetire_sameQueue (s : State) : SameQueue s (cdbToRetire s) := by
  obtain ⟨-, h⟩ | ⟨i, -, -, h⟩ := cdbToRetire_cases s <;> rw [h] <;> exact ⟨rfl, rfl⟩

theorem visitRecord_complete_sameQueue {g : Group} {i : Nat} {s t : State}
    (h : visitRecord (.complete g i) i s = .next t) : SameQueue s t := by
  obtain ⟨-, rfl⟩ | ⟨instr, u, -, hu, rfl⟩ := visitRecord_eq_next.mp h
  · exact ⟨rfl, rfl⟩
  · rw [exec_at_complete rfl] at hu
    cases hu
    split
    · exact ⟨rfl, rfl⟩
    · exact ⟨releaseSlots_ifq .., releaseSlots_fetchIndex ..⟩

theorem visitRecord_broadcast_sameQueue {w : Nat} {s t : State}
    (h : visitRecord (.broadcast w) w s = .next t) : SameQueue s t := by
  obtain ⟨-, rfl⟩ | ⟨instr, u, -, hu, rfl⟩ := visitRecord_eq_next.mp h
  · exact ⟨rfl, rfl⟩
  · rw [exec_at_broadcast rfl] at hu
    cases hu
    exact ⟨broadcast_ifq .., broadcast_fetchIndex ..⟩

theorem completeSlot_sameQueue {g : Group} {k : Nat} {s t : State} (h : completeSlot g k s = .next t) :
    SameQueue s t := by
  obtain ⟨-, hs⟩ | ⟨i, -, -, hs⟩ := completeSlot_cases g k s <;> rw [hs] at h
  · cases h
    exact .refl s
  · exact visitRecord_complete_sameQueue h

theorem completeGroup_sameQueue {g : Group} {s t : State} (h : completeGroup g s = .next t) : SameQueue s t :=
  forSlots_induct (P := SameQueue s) (fun _ _ _ hu _ ht => hu.trans (completeSlot_sameQueue ht)) (.refl s) h

theorem arbitrate_sameQueue {s t : State} (h : arbitrate s = .next t) : SameQueue s t := by
  obtain ⟨-, hs⟩ | ⟨w, -, -, hs⟩ := arbitrate_cases s <;> rw [hs] at h
  · cases h
    exact .refl s
  · exact visitRecord_broadcast_sameQueue h

theorem executeToCdb_sameQueue {s t : State} (h : executeToCdb s = .next t) : SameQueue s t := by
  have groups {u : State} (hu : thenStage (completeGroup .int s) (completeGroup .fp) = .next u) : SameQueue s u := by
    obtain ⟨hint, -⟩ | ⟨v, hint, -, hfp⟩ := thenStage_eq_next.mp hu
    · exact completeGroup_sameQueue hint
    · exact (completeGroup_sameQueue hint).trans (completeGroup_sameQueue hfp)
  obtain ⟨hu, -⟩ | ⟨u, hu, -, ht⟩ := thenStage_eq_next.mp h
  · exact groups hu
  · exact (groups hu).trans (arbitrate_sameQueue ht)

theorem issueSlot_sameQueue (g : Group) (s : State) (k : Nat) : SameQueue s (issueSlot g s k) := by
  obtain h | ⟨i, -, -, h⟩ := issueSlot_cases g s k <;> rw [h]
  · exact .refl s
  · exact ⟨assignUnit_ifq .., assignUnit_fetchIndex ..⟩

theorem issueGroup_sameQueue (g : Group) (s : State) : SameQueue s (issueGroup g s) :=
  issueGroup_induct (P := SameQueue s) (fun u k hu => hu.trans (issueSlot_sameQueue g u k)) (.refl s)

theorem issueToExecute_sameQueue (s : State) : SameQueue s (issueToExecute s) :=
  (issueGroup_sameQueue .int s).trans (issueGroup_sameQueue .fp _)

/-! ### The stamping parts leave the queue alone -/

theorem stampIssue_sameQueue (s : State) : SameQueue s (stampIssue s) := by
  unfold stampIssue
  generalize occupants s.rsInt ++ occupants s.rsFp = l
  induction l generalizing s with
  | nil => exact .refl s
  | cons i l ih => exact ih (stampIssueOne s i)

theorem stampHead_sameQueue (s : State) : SameQueue s (stampHead s) := by
  obtain ⟨m, h, -, -⟩ := stampHead_frame s
  rw [h]
  exact ⟨rfl, rfl⟩

/-! ### Stage 4: at most the head leaves (R140, R141, R148) -/

theorem allocate_ifq (s : State) (g : Group) (o : Operands) :
    (s.allocate g o).ifq = s.ifq ∨ (s.allocate g o).ifq = s.ifq.tail := by
  obtain ⟨-, e⟩ | ⟨h, q, -, -, e⟩ | ⟨h, q, j, hq, -, e⟩ := allocate_cases s g o
  · exact .inl (by rw [e])
  · exact .inl (by rw [e])
  · exact .inr (by rw [e, hq, List.tail_cons])

theorem allocate_fetchIndex (s : State) (g : Group) (o : Operands) : (s.allocate g o).fetchIndex = s.fetchIndex := by
  obtain ⟨-, e⟩ | ⟨h, q, -, -, e⟩ | ⟨h, q, j, -, -, e⟩ := allocate_cases s g o <;> rw [e]
  simp only [setStations_fetchIndex, renameDests_fetchIndex, captureDeps_fetchIndex]

/-- The head leaves or the queue stays; nothing behind the head moves, and the cursor stands still. -/
def OnlyHeadLeaves (s t : State) : Prop := (t.ifq = s.ifq ∨ t.ifq = s.ifq.tail) ∧ t.fetchIndex = s.fetchIndex

theorem SameQueue.onlyHeadLeaves {s t : State} (h : SameQueue s t) : OnlyHeadLeaves s t := ⟨.inl h.1, h.2⟩

theorem SameQueue.trans_onlyHeadLeaves {s t u : State} (h : SameQueue s t) (k : OnlyHeadLeaves t u) :
    OnlyHeadLeaves s u := by
  obtain ⟨hq, hf⟩ := h
  simpa only [OnlyHeadLeaves, hq, hf] using k

theorem OnlyHeadLeaves.trans_sameQueue {s t u : State} (h : OnlyHeadLeaves s t) (k : SameQueue t u) :
    OnlyHeadLeaves s u := by
  obtain ⟨hq, hf⟩ := k
  simpa only [OnlyHeadLeaves, hq, hf] using h

theorem visitRecord_dispatch_onlyHeadLeaves {h : Nat} {s t : State} (ht : visitRecord .dispatch h s = .next t) :
    OnlyHeadLeaves s t := by
  obtain ⟨-, rfl⟩ | ⟨instr, u, -, hu, rfl⟩ := visitRecord_eq_next.mp ht
  · exact ⟨.inl rfl, rfl⟩
  · rw [exec_at_dispatch rfl] at hu
    cases hu
    split
    case isTrue => exact ⟨.inr rfl, rfl⟩
    case isFalse =>
      split
      case isTrue => exact ⟨allocate_ifq .., allocate_fetchIndex ..⟩
      case isFalse =>
        split
        case isTrue => exact ⟨allocate_ifq .., allocate_fetchIndex ..⟩
        case isFalse => exact ⟨.inl rfl, rfl⟩

theorem dispatchHead_onlyHeadLeaves {s t : State} (ht : dispatchHead s = .next t) : OnlyHeadLeaves s t := by
  obtain ⟨-, hs⟩ | ⟨h, q, -, hs⟩ := dispatchHead_cases s <;> rw [hs] at ht
  · cases ht
    exact (SameQueue.refl s).onlyHeadLeaves
  · exact visitRecord_dispatch_onlyHeadLeaves ht

theorem dispatchToIssue_onlyHeadLeaves {s t : State} (ht : dispatchToIssue s = .next t) : OnlyHeadLeaves s t := by
  obtain ⟨h, -⟩ | ⟨u, hu, -, rfl⟩ := dispatchToIssue_eq_next.mp ht
  · exact dispatchHead_onlyHeadLeaves h
  · exact (dispatchHead_onlyHeadLeaves hu).trans_sameQueue (stampIssue_sameQueue u)

/-! ### Stage 5: at most the record at the cursor enters, behind the others (R125, R127, R128) -/

/-- A raised condition leaves a mark, whether there was one before or not (R262). -/
theorem raiseFatal_fatal_ne_none (s : State) (r : FatalReason) : (s.raiseFatal r).fatal ≠ none := by
  cases h : s.fatal <;> simp [State.raiseFatal, h]

theorem fetchSkip_queue {s : State} (h : s.fetchSkip.fatal = none) :
    s.fetchSkip.fetchIndex = s.fetchIndex + 1 ∧ s.fetchSkip.ifq = s.ifq := by
  unfold State.fetchSkip State.advanceCursor at h ⊢
  split at h
  case isTrue hlt => simp only [hlt, if_true, and_self]
  case isFalse => exact absurd h (raiseFatal_fatal_ne_none _ _)

theorem fetchEnqueue_queue {s : State} (h : s.fetchEnqueue.fatal = none) :
    s.fetchEnqueue.fetchIndex = s.fetchIndex + 1 ∧ s.fetchEnqueue.ifq = s.ifq ++ [s.fetchIndex + 1] := by
  unfold State.fetchEnqueue at h ⊢
  split at h
  case isTrue hlt => simp only [hlt, if_true, push, and_self]
  case isFalse => exact absurd h (raiseFatal_fatal_ne_none _ _)

/-- A fetch visit that is not fatal consumes the next record, and enqueues it unless it is a trap (R127). -/
theorem visitRecord_fetch_queue {i : Nat} {s t : State} (ht : visitRecord .fetch i s = .next t)
    (hfat : t.fatal = none) :
    t.fetchIndex = s.fetchIndex + 1 ∧
      t.ifq = if s.classHas OpClass.isTrap i then s.ifq else s.ifq ++ [s.fetchIndex + 1] := by
  obtain ⟨-, rfl⟩ | ⟨instr, u, hr, hu, rfl⟩ := visitRecord_eq_next.mp ht
  · exact absurd hfat (raiseFatal_fatal_ne_none _ _)
  · have hclass : s.classHas OpClass.isTrap i = instr.cls.isTrap := by
      simp only [State.classHas, State.instrAt, hr]
    rw [hclass]
    rw [exec_at_fetch rfl] at hu
    cases hu
    cases hc : instr.cls.isTrap <;> simp only [hc, if_true, if_false, Bool.false_eq_true] at hfat ⊢
    case true => exact fetchSkip_queue hfat
    case false => exact fetchEnqueue_queue hfat

/-- One record has entered the queue, behind the others: the one the cursor has moved on to. -/
def CursorRecordEnters (s t : State) : Prop := s.fetchIndex < t.fetchIndex ∧ t.ifq = s.ifq ++ [t.fetchIndex]

/-- By induction on the records left: a trap only moves the cursor on, and the first record that is no trap enters. -/
theorem fetchLoop_cursorRecordEnters {n : Nat} {s t : State} (h : fetchLoop n s = .next t) (hfat : t.fatal = none) :
    CursorRecordEnters s t := by
  induction n generalizing s with
  | zero =>
    cases h
    exact absurd hfat (raiseFatal_fatal_ne_none _ _)
  | succ n ih =>
    obtain ⟨-, hne⟩ | ⟨u, hu, hufat, hrest⟩ := thenStage_eq_next.mp h
    · exact absurd hfat hne
    · obtain ⟨hindex, hifq⟩ := visitRecord_fetch_queue hu hufat
      split at hrest
      case isTrue htrap =>
        obtain ⟨hlt, hq⟩ := ih hrest
        rw [if_pos htrap] at hifq
        exact ⟨by omega, by rw [hq, hifq]⟩
      case isFalse htrap =>
        cases hrest
        rw [if_neg htrap] at hifq
        exact ⟨by omega, by rw [hifq, hindex]⟩

theorem fetchPart_queue {b : Nat} {s t : State} (h : fetchPart b s = .next t) (hfat : t.fatal = none) :
    SameQueue s t ∨ CursorRecordEnters s t := by
  unfold fetchPart at h
  split at h
  · exact .inr (fetchLoop_cursorRecordEnters h hfat)
  · cases h
    exact .inl (.refl s)

theorem fetchToDispatch_queue {b : Nat} {s t : State} (h : fetchToDispatch b s = .next t) (hfat : t.fatal = none) :
    SameQueue s t ∨ CursorRecordEnters s t := by
  obtain ⟨-, hne⟩ | ⟨u, hu, hufat, rfl⟩ := fetchToDispatch_eq_next.mp h
  · exact absurd hfat hne
  · obtain ⟨hq, hf⟩ := stampHead_sameQueue u
    simpa only [SameQueue, CursorRecordEnters, hq, hf] using fetchPart_queue hu hufat

/-! ### The step -/

/-- Everything a step that is not fatal does to the queue and the cursor, whatever the bound: at most the head leaves,
then at most one record enters. -/
theorem stepWith_queue {b : Nat} {s t : State} (h : stepWith b s = .next t) (hfat : t.fatal = none) :
    ∃ u, OnlyHeadLeaves s u ∧ (SameQueue u t ∨ CursorRecordEnters u t) := by
  obtain ⟨-, ⟨-, rfl⟩ | ⟨-, hcycle⟩⟩ := stepWith_eq_next h
  · exact ⟨t, (SameQueue.refl t).onlyHeadLeaves, .inl (.refl t)⟩
  obtain ⟨-, hne⟩ | ⟨s2, h2, -, hcycle⟩ := cycleWith_eq_next hcycle
  · exact absurd hfat hne
  obtain ⟨-, hne⟩ | ⟨s4, h4, -, hcycle⟩ := hcycle
  · exact absurd hfat hne
  obtain ⟨-, hne⟩ | ⟨s5, h5, hfat5, rfl⟩ := hcycle
  · exact absurd hfat hne
  have before : SameQueue s (issueToExecute s2) :=
    ((cdbToRetire_sameQueue s).trans (executeToCdb_sameQueue h2)).trans (issueToExecute_sameQueue s2)
  have fetched : SameQueue s4 s5 ∨ CursorRecordEnters s4 s5 := fetchToDispatch_queue h5 hfat5
  exact ⟨s4, before.trans_onlyHeadLeaves (dispatchToIssue_onlyHeadLeaves h4), fetched⟩

/-- Settles O37: what leaves is the allocation part's, what enters is the fetch part's (`stepWith_queue`). -/
theorem queueMovesInOrder : Obligations.QueueMovesInOrder := by
  intro s t hstep hfat
  obtain ⟨u, ⟨hleaves, hcursor⟩, ⟨hq, hf⟩ | ⟨hlt, hq⟩⟩ := stepWith_queue hstep hfat
  · refine ⟨by omega, [], .inl rfl, ?_⟩
    rw [hq, List.append_nil, List.append_nil]
    exact hleaves
  · rw [hcursor] at hlt
    refine ⟨hlt.le, [t.fetchIndex], .inr ⟨rfl, hlt⟩, ?_⟩
    rw [hq]
    exact hleaves.imp (congrArg (· ++ _)) (congrArg (· ++ _))

end Sys2Proof.Machine
end

section

/-! # Proofs: the trace word (spec/30_encoding.md section 2) -/

namespace Sys2Proof

/-! ### Classes, records and register fields -/

@[simp] theorem Instr.ofClass_cls_operands (i : Instr) : Instr.ofClass i.cls i.operands = i := by cases i <;> rfl

@[simp] theorem Instr.cls_ofClass (c : OpClass) (o : Operands) : (Instr.ofClass c o).cls = c := by cases c <;> rfl

@[simp] theorem Instr.operands_ofClass (c : OpClass) (o : Operands) : (Instr.ofClass c o).operands = o := by
  cases c <;> rfl

@[simp] theorem decodeClass_encodeClass (c : OpClass) : decodeClass (encodeClass c) = some c := by cases c <;> rfl

/-- The class codes below 7 are the codes of the classes (R84). -/
theorem decodeClass_eq_some {f : BitVec 3} {c : OpClass} : decodeClass f = some c ↔ f = encodeClass c := by
  revert f
  cases c <;> decide

/-- Code 7 is the reserved one (R84). -/
theorem decodeClass_eq_none {f : BitVec 3} : decodeClass f = none ↔ f = 7#3 := by
  revert f
  decide

theorem decodeReg_encodeReg {n : Nat} {r : RegId} (hn : n ≤ 255) (hr : r.wellFormed n = true) :
    decodeReg n (encodeReg r) = some r := by
  cases r with
  | noreg => rfl
  | reg r =>
    have hlt : r < n := by simpa [RegId.wellFormed] using hr
    have htoNat : (BitVec.ofNat 8 r).toNat = r := by
      rw [BitVec.toNat_ofNat]
      omega
    have hne : BitVec.ofNat 8 r ≠ Config.noregCode := by
      intro h
      have : r = 255 := by rw [← htoNat, h]; rfl
      omega
    simp only [decodeReg, encodeReg, hne, htoNat, hlt, if_true, if_false]

theorem encodeReg_of_decodeReg {n : Nat} {f : RegField} {r : RegId} (h : decodeReg n f = some r) :
    encodeReg r = f := by
  unfold decodeReg at h
  split at h
  case isTrue hf =>
    cases h
    exact hf.symm
  case isFalse =>
    split at h
    · cases h
      simp [encodeReg]
    · cases h

/-- The reserved register fields (R86). -/
theorem decodeReg_eq_none {n : Nat} {f : RegField} : decodeReg n f = none ↔ n ≤ f.toNat ∧ f.toNat < 255 := by
  have hlt := f.isLt
  unfold decodeReg
  split
  case isTrue h =>
    have : f.toNat = 255 := congrArg BitVec.toNat h
    simp only [reduceCtorEq, false_iff]
    omega
  case isFalse h =>
    have : f.toNat ≠ 255 := fun e => h (BitVec.eq_of_toNat_eq e)
    split
    · simp only [reduceCtorEq, false_iff]
      omega
    · simp only [true_iff]
      omega

/-! ### The fields of a word -/

theorem encodedFields (i : Instr) : Laws.EncodedFields.Statement i := by
  cases i with
  | icomp => exact Laws.EncodedFields.icomp ..
  | fcomp => exact Laws.EncodedFields.fcomp ..
  | load => exact Laws.EncodedFields.load ..
  | store => exact Laws.EncodedFields.store ..
  | jump => exact Laws.EncodedFields.jump ..
  | branch => exact Laws.EncodedFields.branch ..
  | trap => exact Laws.EncodedFields.trap ..

/-- The seven fields are the whole word (R81). -/
theorem concat_fields (w : TraceWord) :
    classField w ++ zeroField w ++ dst1Field w ++ dst0Field w ++ src2Field w ++ src1Field w ++ src0Field w = w := by
  ext i hi
  simp only [classField, zeroField, dst1Field, dst0Field, src2Field, src1Field, src0Field, BitVec.getElem_append,
    BitVec.getElem_extractLsb']
  grind

theorem decodeOperands_eq_some {n : Nat} {w : TraceWord} {o : Operands} :
    decodeOperands n w = some o ↔
      decodeReg n (dst0Field w) = some o.dst0 ∧ decodeReg n (dst1Field w) = some o.dst1 ∧
        decodeReg n (src0Field w) = some o.src0 ∧ decodeReg n (src1Field w) = some o.src1 ∧
        decodeReg n (src2Field w) = some o.src2 := by
  cases o
  unfold decodeOperands
  split <;> simp_all

theorem decodeOperands_eq_none {n : Nat} {w : TraceWord} :
    decodeOperands n w = none ↔
      decodeReg n (src0Field w) = none ∨ decodeReg n (src1Field w) = none ∨ decodeReg n (src2Field w) = none ∨
        decodeReg n (dst0Field w) = none ∨ decodeReg n (dst1Field w) = none := by
  unfold decodeOperands
  split
  · simp_all
  case h_2 hsome =>
    simp only [true_iff, Option.eq_none_iff_forall_ne_some]
    grind

theorem decode_eq_ok {n : Nat} {w : TraceWord} {i : Instr} :
    decode n w = .ok i ↔
      classField w = encodeClass i.cls ∧ zeroField w = 0#5 ∧ decodeOperands n w = some i.operands := by
  unfold decode
  rw [← decodeClass_eq_some]
  cases hc : decodeClass (classField w) with
  | none => simp
  | some c =>
    by_cases hz : zeroField w = 0#5
    · cases ho : decodeOperands n w with
      | none => simp [hz]
      | some o =>
        simp only [hz, if_true, Except.ok.injEq, Option.some.injEq, true_and]
        constructor
        · rintro rfl
          simp
        · rintro ⟨rfl, rfl⟩
          simp
    · simp [hz]

theorem decode_eq_error {n : Nat} {w : TraceWord} :
    (∃ e, decode n w = .error e) ↔ classField w = 7#3 ∨ zeroField w ≠ 0#5 ∨ decodeOperands n w = none := by
  unfold decode
  rw [← decodeClass_eq_none]
  cases hc : decodeClass (classField w) with
  | none => simp
  | some c =>
    by_cases hz : zeroField w = 0#5
    · cases ho : decodeOperands n w with
      | none => simp [hz]
      | some o => simp [hz]
    · simp [hz]

/-! ### Settled -/

/-- Settles O1: each field of the encoded word reads back (`encodedFields`), and each register field decodes. -/
theorem decodeAfterEncodeIsIdentity : Obligations.DecodeAfterEncodeIsIdentity := by
  intro nRegs i hn hwf
  obtain ⟨hclass, hzero, hd1, hd0, hs2, hs1, hs0⟩ := encodedFields i
  simp only [Instr.wellFormed, Operands.wellFormed, Bool.and_eq_true] at hwf
  obtain ⟨⟨⟨⟨wd0, wd1⟩, ws0⟩, ws1⟩, ws2⟩ := hwf
  refine decode_eq_ok.mpr ⟨hclass, hzero, decodeOperands_eq_some.mpr ?_⟩
  rw [hd0, hd1, hs0, hs1, hs2]
  exact ⟨decodeReg_encodeReg hn wd0, decodeReg_encodeReg hn wd1, decodeReg_encodeReg hn ws0,
    decodeReg_encodeReg hn ws1, decodeReg_encodeReg hn ws2⟩

/-- Settles O2: every field is the code of what it decodes to, and the fields are the whole word. -/
theorem encodeAfterDecodeIsIdentity : Obligations.EncodeAfterDecodeIsIdentity := by
  intro nRegs w i _ hdecode
  obtain ⟨hclass, hzero, hoperands⟩ := decode_eq_ok.mp hdecode
  obtain ⟨hd0, hd1, hs0, hs1, hs2⟩ := decodeOperands_eq_some.mp hoperands
  rw [encode, encodeFields, encodeReg_of_decodeReg hd0, encodeReg_of_decodeReg hd1, encodeReg_of_decodeReg hs0,
    encodeReg_of_decodeReg hs1, encodeReg_of_decodeReg hs2, ← hclass, ← hzero, concat_fields]

/-- Settles O3: the three reasons of `decode_eq_error`, the last one field by field. -/
theorem decoderRefusesExactlyIllFormedWords : Obligations.DecoderRefusesExactlyIllFormedWords := by
  intro nRegs w
  have hfields : (∃ k < 5, nRegs ≤ (w.extractLsb' (8 * k) 8).toNat ∧ (w.extractLsb' (8 * k) 8).toNat < 255) ↔
      decodeOperands nRegs w = none := by
    simp only [decodeOperands_eq_none, decodeReg_eq_none]
    simp only [Nat.exists_lt_succ_left, Nat.not_lt_zero, false_and, exists_const, or_false, Nat.mul_zero, Nat.reduceAdd,
      Nat.reduceMul]
    rfl
  rw [hfields, decode_eq_error]
  rfl

/-- The mask of R84 keeps the class and the zero field, and clears the register fields. -/
theorem encode_and_mask (i : Instr) :
    encode i &&& 0xFF0000000000#48 = encodeClass i.cls ++ 0#45 := by
  have hmask : 0xFF0000000000#48 = BitVec.allOnes 8 ++ 0#40 := rfl
  rw [hmask, encode, encodeFields]
  ext k hk
  simp only [BitVec.getElem_and, BitVec.getElem_append, BitVec.getElem_zero, BitVec.getElem_allOnes]
  grind

/-- Settles O4: the masked word depends on the class alone, so the table is one equation per class. -/
theorem classCodesMatchTheTable : Obligations.ClassCodesMatchTheTable := by
  refine ⟨rfl, fun i => ⟨decodeClass_encodeClass _, ?_⟩⟩
  rw [encode_and_mask]
  cases i.cls <;> rfl

/-- Settles O5: both sides of each equation evaluate. -/
theorem sampleWordsDecodeToTheirRecords : Obligations.SampleWordsDecodeToTheirRecords :=
  ⟨rfl, rfl, rfl, rfl, rfl, rfl, rfl⟩

end Sys2Proof
end

section

/-! # Proofs: the meanings of the seven classes (spec/40_operation_classes.md) -/

namespace Sys2Proof.Machine

/-! ### At the fetch cursor (R127) -/

theorem fetchEnqueue_of_lt {s : State} (h : s.fetchIndex < s.size) :
    s.fetchEnqueue = { s with fetchIndex := s.fetchIndex + 1, ifq := s.ifq ++ [s.fetchIndex + 1] } := by
  simp only [State.fetchEnqueue, h, if_true, push]

theorem fetchSkip_of_lt {s : State} (h : s.fetchIndex < s.size) :
    s.fetchSkip = { s with fetchIndex := s.fetchIndex + 1 } := by
  simp only [State.fetchSkip, State.advanceCursor, h, if_true]

/-- Past the end of the trace both fetch actions raise the overrun (R23). -/
theorem fetch_of_size_le {s : State} (h : s.size ≤ s.fetchIndex) :
    s.fetchEnqueue = s.raiseFatal .traceOverrun ∧ s.fetchSkip = s.raiseFatal .traceOverrun := by
  simp only [State.fetchEnqueue, State.fetchSkip, State.advanceCursor, h.not_gt, if_false, and_self]

theorem raiseFatal_fatal_of_none {s : State} (h : s.fatal = none) (r : FatalReason) :
    (s.raiseFatal r).fatal = some r := by
  simp only [State.raiseFatal, h]

/-- A mark that is set is not written over (R262). -/
theorem raiseFatal_fatal_of_ne_none {s : State} (h : s.fatal ≠ none) (r : FatalReason) :
    (s.raiseFatal r).fatal = s.fatal := by
  obtain ⟨q, hq⟩ := Option.ne_none_iff_exists'.mp h
  simp only [State.raiseFatal, hq]

theorem isTrap_eq_true {c : OpClass} : c.isTrap = true ↔ c = .trap := by cases c <;> simp [OpClass.isTrap]

/-- Settles O8: every class but `trap` is enqueued (`exec_at_fetch`). -/
theorem nonTrapRecordIsEnqueued : Obligations.NonTrapRecordIsEnqueued := by
  intro i s hi hv hlt
  rw [exec_at_fetch hv, if_neg (isTrap_eq_true.not.mpr hi), fetchEnqueue_of_lt hlt]

/-- Settles O9. -/
theorem trapRecordIsSkipped : Obligations.TrapRecordIsSkipped := by
  intro d0 d1 s0 s1 s2 s hv hlt
  exact (exec_at_fetch hv).trans (congrArg Host.Outcome.next (fetchSkip_of_lt hlt))

/-- Settles O10: skipped or enqueued, the cursor has nowhere to go. -/
theorem cursorPastTheTraceIsFatal : Obligations.CursorPastTheTraceIsFatal := by
  intro i s hv hfatal hle
  obtain ⟨henqueue, hskip⟩ := fetch_of_size_le hle
  refine ⟨s.raiseFatal .traceOverrun, ?_, raiseFatal_fatal_of_none hfatal _⟩
  rw [exec_at_fetch hv, henqueue, hskip, ite_self]

/-! ### At the head of the queue (spec/42_dispatch.md) -/

/-- A record of a station class allocates in its own group. -/
theorem exec_eq_allocate {i : Instr} {s : State} {g : Group} (hv : s.visit = .dispatch)
    (hfp : g = .fp → i.cls.isFp = true) (hint : g = .int → i.cls.isInt = true) :
    exec i s = .next (s.allocate g i.operands) := by
  rw [exec_at_dispatch hv]
  cases g with
  | int =>
    have hi := hint rfl
    cases hc : i.cls <;> simp_all [OpClass.isInt, OpClass.isFp, OpClass.isBranch]
  | fp =>
    have hi := hfp rfl
    cases hc : i.cls <;> simp_all [OpClass.isFp, OpClass.isBranch]

theorem firstFree_of_first_none {l : List Ref} {j : Nat} (hj : l[j]? = some none)
    (hfirst : ∀ k < j, l[k]? ≠ some none) : firstFree l = some j := by
  refine firstFree_eq_some.mpr ⟨hj, fun k hk => ?_⟩
  have hlen : k < l.length := hk.trans (List.getElem?_eq_some_iff.mp hj).1
  obtain ⟨i, hi⟩ := Option.ne_none_iff_exists'.mp fun h : l[k] = none =>
    hfirst k hk (by rw [List.getElem?_eq_getElem hlen, h])
  exact ⟨i, by rw [List.getElem?_eq_getElem hlen, hi]⟩

theorem captureDeps_record {s : State} {h : Nat} (hh : s.mem.holds h) (o : Operands) :
    (s.captureDeps h o).record h =
      { s.record h with
        dep0 := s.sourceProducer o.src0, dep1 := s.sourceProducer o.src1, dep2 := s.sourceProducer o.src2 } :=
  record_updateRecord_self hh _

theorem captureDeps_record_other {h i : Nat} (hne : h ≠ i) (s : State) (o : Operands) :
    (s.captureDeps h o).record i = s.record i :=
  record_updateRecord_other hne _

/-- With a free station the head is placed in the first one. -/
theorem allocate_of_firstFree {s : State} {g : Group} {o : Operands} {h j : Nat} {rest : List Nat}
    (hq : s.ifq = h :: rest) (hj : firstFree (s.stations g) = some j) :
    s.allocate g o =
      { ((s.captureDeps h o).renameDests h o).setStations g ((s.stations g).set j (some h)) with ifq := rest } := by
  simp only [State.allocate, peek, hq, List.head?_cons, hj, pop, List.tail_cons, renameDests_stations,
    captureDeps_stations]

/-- The effect of an allocation with a free station (R145 to R148). -/
theorem allocate_effect {s : State} {g : Group} {o : Operands} {h j : Nat} {rest : List Nat}
    (hq : s.ifq = h :: rest) (hh : s.mem.holds h) (hj : firstFree (s.stations g) = some j) :
    AllocationEffect g o h j rest s (s.allocate g o) := by
  rw [allocate_of_firstFree hq hj]
  have hrec (i : Nat) : State.record { ((s.captureDeps h o).renameDests h o).setStations g
      ((s.stations g).set j (some h)) with ifq := rest } i = (s.captureDeps h o).record i :=
    record_of_mem_eq (by simp only [setStations_mem, renameDests_mem]) i
  have hslots (l : List Nat) (u : State) (k : Group) : State.stations { u with ifq := l } k = u.stations k := by
    cases k <;> rfl
  obtain ⟨htrace, hlen, -⟩ := captureDeps_sameInputs s h o
  refine ⟨?_, fun i hi => ?_, fun r hr => ?_, ?_, ?_, fun k hk => ?_, rfl, ?_, ?_, ?_, ?_, ?_, ?_, ?_, ?_, ?_⟩
  · rw [hrec, captureDeps_record hh]
  · rw [hrec, captureDeps_record_other hi.symm]
  · have hmap : State.producer { ((s.captureDeps h o).renameDests h o).setStations g
        ((s.stations g).set j (some h)) with ifq := rest } r = ((s.captureDeps h o).renameDests h o).producer r := by
      simp only [State.producer, setStations_mapTable]
    rw [hmap, producer_renameDests (by simpa [State.nRegs] using hr)]
    rfl
  · simp [State.nRegs]
  · rw [hslots, setStations_stations_self]
  · rw [hslots, setStations_stations_other _ hk.symm, renameDests_stations, captureDeps_stations]
  all_goals simp [htrace, hlen]

/-- Settles O11: all three classes allocate in the integer group. -/
theorem integerRecordIsAllocated : Obligations.IntegerRecordIsAllocated := by
  intro d0 d1 s0 s1 s2 s h rest j hv hq h1 hlen hj hfirst i hi
  have hint : i.cls.isInt = true := by
    revert i
    simp [Instr.cls, OpClass.isInt]
  have hoperands : i.operands = ⟨d0, d1, s0, s1, s2⟩ := by
    revert i
    simp [Instr.operands]
  have hexec := exec_eq_allocate (g := .int) hv nofun fun _ => hint
  rw [hoperands] at hexec
  exact ⟨_, hexec, allocate_effect hq ⟨h1, hlen⟩ (firstFree_of_first_none hj hfirst)⟩

/-- Settles O12: `fcomp` allocates in the floating-point group. -/
theorem floatingPointRecordIsAllocated : Obligations.FloatingPointRecordIsAllocated := by
  intro d0 d1 s0 s1 s2 s h rest j hv hq h1 hlen hj hfirst
  exact ⟨_, exec_eq_allocate (g := .fp) hv (fun _ => rfl) nofun,
    allocate_effect hq ⟨h1, hlen⟩ (firstFree_of_first_none hj hfirst)⟩

/-- Settles O13: the captured producers are those of the state before the renaming. -/
theorem captureComesBeforeRenaming : Obligations.CaptureComesBeforeRenaming := by
  intro i s t g h rest r hv hq h1 hlen hr hfp hint hfree hdst hexec
  rw [exec_eq_allocate hv hfp hint] at hexec
  cases hexec
  obtain ⟨j, hj⟩ := Option.ne_none_iff_exists'.mp fun hnone => firstFree_eq_none.mp hnone hfree
  obtain ⟨hrecord, -, hproducer, -⟩ := allocate_effect (o := i.operands) hq ⟨h1, hlen⟩ hj
  rw [hrecord, hproducer r hr, if_pos hdst]
  exact ⟨fun e => by rw [e]; rfl, fun e => by rw [e]; rfl, fun e => by rw [e]; rfl, rfl⟩

/-- Without a free station the head stalls (R149). -/
theorem allocate_of_full {s : State} {g : Group} (hfull : none ∉ s.stations g) (o : Operands) :
    s.allocate g o = s := by
  obtain ⟨-, h⟩ | ⟨h, q, -, -, e⟩ | ⟨h, q, j, -, hj, -⟩ := allocate_cases s g o
  · exact h
  · exact e
  · rw [firstFree_eq_none.mpr hfull] at hj
    cases hj

/-- Settles O14. -/
theorem fullStationsStallTheHead : Obligations.FullStationsStallTheHead := by
  rintro i s hv (⟨hclass, hfull⟩ | ⟨hclass, hfull⟩)
  · rw [exec_eq_allocate (g := .int) hv nofun fun _ => hclass, allocate_of_full (g := .int) hfull]
  · rw [exec_eq_allocate (g := .fp) hv (fun _ => hclass) nofun, allocate_of_full (g := .fp) hfull]

/-- Settles O16. -/
theorem trapAtTheHeadIsFatal : Obligations.TrapAtTheHeadIsFatal := by
  intro d0 d1 s0 s1 s2 s hv
  exact ⟨s.raiseFatal .trapAtHead, exec_at_dispatch hv, fun h => raiseFatal_fatal_of_none h _,
    fun h => raiseFatal_fatal_of_ne_none h _⟩

/-! ### On completion and on winning the bus (spec/44_execute_cdb.md) -/

/-- The effect of leaving the slots of a group (R182). -/
theorem releaseSlots_effect (s : State) (g : Group) (i : Nat) : ReleaseEffect g i s (s.releaseSlots g i) := by
  refine ⟨fun k => ?_, fun k => ?_, fun k hk => ⟨?_, ?_⟩, ?_, ?_, ?_⟩
  · rw [releaseSlots_stations_self, getElem?_clearRef]
  · rw [releaseSlots_units_self, getElem?_clearRef]
  · exact releaseSlots_stations_other s hk.symm i
  · exact releaseSlots_units_other s hk.symm i
  all_goals simp [SameFront]

theorem broadcast_record_self {s : State} {w : Nat} (h : s.mem.holds w) (g : Group) :
    (s.broadcast g w).record w = { s.record w with tCdb := s.cycle } := by
  rw [broadcast_record, if_pos ⟨rfl, h⟩]

theorem broadcast_record_other {w i : Nat} (h : w ≠ i) (s : State) (g : Group) :
    (s.broadcast g w).record i = s.record i := by
  rw [broadcast_record, if_neg fun e => h e.1]

theorem broadcast_stations_other (s : State) {g k : Group} (h : g ≠ k) (i : Nat) :
    (s.broadcast g i).stations k = s.stations k := by
  rw [State.broadcast, releaseSlots_stations_other _ h]
  cases k <;> rfl

theorem broadcast_units_other (s : State) {g k : Group} (h : g ≠ k) (i : Nat) :
    (s.broadcast g i).units k = s.units k := by
  rw [State.broadcast, releaseSlots_units_other _ h]
  cases k <;> rfl

/-- The effect of winning the bus (R185, R190). -/
theorem broadcast_effect {s : State} {w : Nat} (h : s.mem.holds w) (g : Group) :
    BroadcastEffect g w s (s.broadcast g w) := by
  obtain ⟨htrace, hlen, -⟩ := broadcast_sameInputs s g w
  refine ⟨broadcast_record_self h g, fun i hi => broadcast_record_other hi.symm s g, broadcast_cdb .., fun k => ?_,
    fun k => ?_, fun k hk => ⟨broadcast_stations_other s hk.symm w, broadcast_units_other s hk.symm w⟩, ?_, ?_, ?_⟩
  · rw [broadcast_stations_self, getElem?_clearRef]
  · rw [broadcast_units_self, getElem?_clearRef]
  all_goals simp [SameFront, htrace, hlen]

/-- Settles O17. -/
theorem finishedWriterKeepsItsSlots : Obligations.FinishedWriterKeepsItsSlots := by
  intro i s g n hwrites hv
  rw [exec_at_complete hv, if_pos hwrites]

/-- Settles O18. -/
theorem finishedNonWriterLeavesItsSlots : Obligations.FinishedNonWriterLeavesItsSlots := by
  intro i s g n hwrites hv
  refine ⟨s.releaseSlots g n, ?_, releaseSlots_effect s g n, releaseSlots_mem .., releaseSlots_cdb ..⟩
  rw [exec_at_complete hv, if_neg (by simp [hwrites])]

/-- Settles O19: of the result writers only `fcomp` is of the floating-point group. -/
theorem busWinnerIsStampedAndRemoved : Obligations.BusWinnerIsStampedAndRemoved := by
  intro d0 d1 s0 s1 s2 s w hv h1 hlen
  refine ⟨fun i hi => ?_, s.broadcast .fp w, exec_at_broadcast hv, broadcast_effect ⟨h1, hlen⟩ .fp⟩
  have hint : i.cls.isFp = false := by
    revert i
    simp [Instr.cls, OpClass.isFp]
  refine ⟨s.broadcast .int w, ?_, broadcast_effect ⟨h1, hlen⟩ .int⟩
  rw [exec_at_broadcast hv, hint]
  rfl

end Sys2Proof.Machine
end

section

/-! # Proofs: retire, completion and the bus (spec/45_retire.md, spec/44_execute_cdb.md) -/

namespace Sys2Proof.Machine

/-- Settles O20: the two clauses that do nothing, and the one that clears, are the cases of `cdbToRetire`. -/
theorem retireClearsOnlyItsOwnMapEntries : Obligations.RetireClearsOnlyItsOwnMapEntries := by
  intro s
  refine ⟨fun i hi hpast => ?past, fun i hi hsame => ?same, fun hnone => ?empty⟩
  case past =>
    have he : cdbToRetire s = { s with mapTable := clearRef i s.mapTable, cdb := none } := by
      simp only [cdbToRetire, hi, hpast, if_true]
    refine ⟨_, he, length_clearRef i _, fun r => ?_⟩
    rw [he, producer_clear]
  case same => simp only [cdbToRetire, hi, Nat.not_le.mpr hsame, if_false]
  case empty => simp only [cdbToRetire, hnone]

/-! ### What a visit reads -/

theorem classHas_eq_true {s : State} {P : OpClass → Bool} {i : Nat} :
    s.classHas P i = true ↔ ∃ instr, s.traceRead i = some (.ok instr) ∧ P instr.cls = true := by
  unfold State.classHas State.instrAt
  rcases s.traceRead i with _ | ⟨e | instr⟩ <;> simp

/-- Of a record that the trace has and that decodes, the class decides. -/
theorem classHas_of_traceRead {s : State} {i : Nat} {instr : Instr} (h : s.traceRead i = some (.ok instr))
    (P : OpClass → Bool) : s.classHas P i = P instr.cls := by
  simp only [State.classHas, State.instrAt, h]

theorem le_size_of_traceRead {s : State} {i : Nat} {x : Except DecodeError Instr} (h : s.traceRead i = some x) :
    1 ≤ i ∧ i ≤ s.size :=
  (traceRead_isSome_iff s i).mp (by rw [h]; rfl)

theorem le_size_of_classHas {s : State} {P : OpClass → Bool} {i : Nat} (h : s.classHas P i = true) :
    1 ≤ i ∧ i ≤ s.size :=
  have ⟨_, hr, _⟩ := classHas_eq_true.mp h
  le_size_of_traceRead hr

/-- The group whose slots a record takes (R143, R144, R190). -/
def State.groupOf (s : State) (i : Nat) : Group := if s.classHas OpClass.isFp i then .fp else .int

theorem groupOf_eq_fp {s : State} {i : Nat} : s.groupOf i = .fp ↔ s.classHas OpClass.isFp i = true := by
  unfold State.groupOf
  split <;> simp_all

/-! ### The completion part of a group (R182) -/

/-- Occupant `i` leaves its unit without the bus: it has finished and writes no result (R182). -/
def State.leaves (s : State) (g : Group) (i : Nat) : Prop :=
  s.finished g i = true ∧ s.classHas OpClass.writesResult i = false

theorem visitRecord_complete_eq_next {s t : State} {g : Group} {i : Nat}
    (h : visitRecord (.complete g i) i s = .next t) (hfatal : t.fatal = none) :
    (s.classHas OpClass.writesResult i = true ∧ t = { s with visit := .fetch }) ∨
      (s.classHas OpClass.writesResult i = false ∧ t = { s.releaseSlots g i with visit := .fetch }) := by
  obtain ⟨-, rfl⟩ | ⟨instr, u, hr, hu, rfl⟩ := visitRecord_eq_next.mp h
  · exact absurd hfatal (raiseFatal_fatal_ne_none s _)
  rw [exec_at_complete rfl] at hu
  cases hu
  rw [classHas_of_traceRead hr]
  cases instr.cls.writesResult with
  | true => exact .inl ⟨rfl, rfl⟩
  | false => exact .inr ⟨rfl, by cases g <;> rfl⟩

/-- Everything serving one unit slot on completion does when it is not fatal: a finished occupant that writes no result
leaves, any other stays. -/
theorem completeSlot_eq_next {s t : State} {g : Group} {k : Nat} (h : completeSlot g k s = .next t)
    (hfatal : t.fatal = none) :
    ((∀ i, (s.units g)[k]? = some (some i) → ¬ s.leaves g i) ∧ (t = s ∨ t = { s with visit := .fetch })) ∨
      ∃ i, (s.units g)[k]? = some (some i) ∧ s.leaves g i ∧ t = { s.releaseSlots g i with visit := .fetch } := by
  obtain ⟨hnot, hs⟩ | ⟨i, hk, hfin, hs⟩ := completeSlot_cases g k s <;> rw [hs] at h
  · cases h
    refine .inl ⟨fun i hi hl => ?_, .inl rfl⟩
    have hfin := hnot i hi
    rw [hl.1] at hfin
    cases hfin
  · obtain ⟨hw, rfl⟩ | ⟨hw, rfl⟩ := visitRecord_complete_eq_next h hfatal
    · refine .inl ⟨fun j hj hl => ?_, .inr rfl⟩
      rw [hk] at hj
      cases hj
      rw [hl.2] at hw
      cases hw
    · exact .inr ⟨i, hk, ⟨hfin, hw⟩, rfl⟩

/-- Nobody names `i` in group `g`. -/
def State.gone (s : State) (g : Group) (i : Nat) : Prop := some i ∉ s.units g ∧ some i ∉ s.stations g

/-- The part of a state that decides who leaves. -/
theorem leaves_congr {s u : State} (hmem : u.mem = s.mem) (hcycle : u.cycle = s.cycle) (hmap : u.mapTable = s.mapTable)
    (g : Group) (i : Nat) : u.leaves g i ↔ s.leaves g i := by
  have hclass : u.classHas OpClass.writesResult i = s.classHas OpClass.writesResult i :=
    classHas_of_inputs (by rw [hmem]) (by rw [hmap]) _ i
  simp only [State.leaves, State.finished, hclass, hcycle, record_of_mem_eq hmem]

/-- What serving unit slots of group `g` on completion does: no record, bus or map entry is written, and an occupant
keeps its unit slot or leaves the group because it may. -/
structure CompletionStep (g : Group) (s u : State) : Prop where
  mem : u.mem = s.mem
  cdb : u.cdb = s.cdb
  mapTable : u.mapTable = s.mapTable
  cycle : u.cycle = s.cycle
  stays_gone : ∀ i, s.gone g i → u.gone g i
  occupant : ∀ i, (∀ k : Nat, (s.units g)[k]? = some (some i) → (u.units g)[k]? = some (some i)) ∨
    (s.leaves g i ∧ u.gone g i)

theorem CompletionStep.refl (g : Group) (s : State) : CompletionStep g s s :=
  ⟨rfl, rfl, rfl, rfl, fun _ h => h, fun _ => .inl fun _ h => h⟩

theorem CompletionStep.trans {g : Group} {s u v : State} (h : CompletionStep g s u) (k : CompletionStep g u v) :
    CompletionStep g s v := by
  refine ⟨k.mem.trans h.mem, k.cdb.trans h.cdb, k.mapTable.trans h.mapTable, k.cycle.trans h.cycle,
    fun i hi => k.stays_gone i (h.stays_gone i hi), fun i => ?_⟩
  obtain hkeep | ⟨hl, hgone⟩ := h.occupant i
  · obtain hkeep' | ⟨hl, hgone⟩ := k.occupant i
    · exact .inl fun n hn => hkeep' n (hkeep n hn)
    · exact .inr ⟨(leaves_congr h.mem h.cycle h.mapTable g i).mp hl, hgone⟩
  · exact .inr ⟨hl, k.stays_gone i hgone⟩

theorem releaseSlots_gone (s : State) (g : Group) (i : Nat) : (s.releaseSlots g i).gone g i := by
  simp [State.gone, releaseSlots_stations_self, releaseSlots_units_self, some_mem_clearRef]

theorem completionStep_releaseSlots {g : Group} {s : State} {i : Nat} (hl : s.leaves g i) :
    CompletionStep g s (s.releaseSlots g i) := by
  refine ⟨releaseSlots_mem .., releaseSlots_cdb .., releaseSlots_mapTable .., releaseSlots_cycle ..,
    fun j ⟨hu, hs⟩ => ?_, fun j => ?_⟩
  · simp [State.gone, releaseSlots_stations_self, releaseSlots_units_self, some_mem_clearRef, hu, hs]
  · by_cases hj : j = i
    · subst hj
      exact .inr ⟨hl, releaseSlots_gone s g j⟩
    · refine .inl fun k hk => ?_
      simp [releaseSlots_units_self, getElem?_clearRef, hk, hj]

/-- Where the visit stands is no matter to the slots. -/
theorem CompletionStep.withVisit {g : Group} {s u : State} (h : CompletionStep g s u) (v : Visit) :
    CompletionStep g s { u with visit := v } := by
  obtain ⟨hmem, hcdb, hmap, hcycle, hgone, hocc⟩ := h
  cases g <;> exact ⟨hmem, hcdb, hmap, hcycle, hgone, hocc⟩

theorem completeSlot_completionStep {s t : State} {g : Group} {k : Nat} (h : completeSlot g k s = .next t)
    (hfatal : t.fatal = none) : CompletionStep g s t := by
  obtain ⟨-, rfl | rfl⟩ | ⟨i, -, hl, rfl⟩ := completeSlot_eq_next h hfatal
  · exact .refl g t
  · exact (CompletionStep.refl g s).withVisit _
  · exact (completionStep_releaseSlots hl).withVisit _

/-- The occupant of the served slot is gone if it may leave. -/
theorem completeSlot_gone {s t : State} {g : Group} {k i : Nat} (h : completeSlot g k s = .next t)
    (hfatal : t.fatal = none) (hk : (s.units g)[k]? = some (some i)) (hl : s.leaves g i) : t.gone g i := by
  obtain ⟨hnot, -⟩ | ⟨j, hj, -, rfl⟩ := completeSlot_eq_next h hfatal
  · exact absurd hl (hnot i hk)
  · rw [hk] at hj
    cases hj
    have hgone := releaseSlots_gone s g i
    cases g <;> exact hgone

/-- By induction on the slots served: everyone in them who may leave is gone. -/
theorem forSlots_completeSlot {s t : State} {g : Group} {n : Nat} (h : forSlots (completeSlot g) n s = .next t)
    (hfatal : t.fatal = none) :
    CompletionStep g s t ∧
      ∀ k < n, ∀ i, (s.units g)[k]? = some (some i) → s.leaves g i → t.gone g i := by
  induction n generalizing t with
  | zero =>
    cases h
    exact ⟨.refl g s, nofun⟩
  | succ n ih =>
    rw [forSlots_succ, thenStage_eq_next] at h
    obtain ⟨-, hne⟩ | ⟨u, hu, hufatal, ht⟩ := h
    · exact absurd hfatal hne
    obtain ⟨hstep, hserved⟩ := ih hu hufatal
    have hslot := completeSlot_completionStep ht hfatal
    refine ⟨hstep.trans hslot, fun k hk i hi hl => ?_⟩
    obtain hk | rfl := Nat.lt_succ_iff_lt_or_eq.mp hk
    · exact hslot.stays_gone i (hserved k hk i hi hl)
    · obtain hkeep | ⟨-, hgone⟩ := hstep.occupant i
      · exact completeSlot_gone ht hfatal (hkeep k hi) ((leaves_congr hstep.mem hstep.cycle hstep.mapTable g i).mpr hl)
      · exact hslot.stays_gone i hgone

/-- Settles O21: who may leave is gone after its slot was served, any other occupant keeps its slot. -/
theorem completionReleasesExactlyTheFinishedNonWriters : Obligations.CompletionReleasesExactlyTheFinishedNonWriters := by
  intro s t g h hfatal
  obtain ⟨hstep, hserved⟩ := forSlots_completeSlot h hfatal
  refine ⟨fun i hi hfin hclass => ?leaves, fun i hi hnot => ?stays, hstep.mem, hstep.cdb, hstep.mapTable⟩
  case leaves =>
    obtain ⟨k, hk⟩ := List.mem_iff_getElem?.mp (mem_occupants.mp hi)
    obtain ⟨hu, hs⟩ := hserved k (List.getElem?_eq_some_iff.mp hk).1 i hk ⟨hfin, hclass⟩
    exact ⟨mem_occupants.not.mpr hu, mem_occupants.not.mpr hs⟩
  case stays =>
    obtain ⟨k, hk⟩ := List.mem_iff_getElem?.mp (mem_occupants.mp hi)
    obtain hkeep | ⟨hl, -⟩ := hstep.occupant i
    · exact mem_occupants.mpr (List.mem_of_getElem? (hkeep k hk))
    · exact absurd hl hnot

/-! ### Arbitration (R183 to R186) -/

theorem mem_candidates {s : State} {i : Nat} :
    i ∈ s.candidates ↔
      ∃ g, some i ∈ s.units g ∧ s.finished g i = true ∧ s.classHas OpClass.writesResult i = true := by
  simp only [State.candidates, List.mem_append, mem_candidatesOf]
  constructor
  · rintro (h | h)
    · exact ⟨.int, h⟩
    · exact ⟨.fp, h⟩
  · rintro ⟨_ | _, h⟩
    · exact .inl h
    · exact .inr h

/-- A result writer that is visited as the winner broadcasts from the slots of its class. -/
theorem visitRecord_broadcast {s : State} {w : Nat} (h : s.classHas OpClass.writesResult w = true) :
    visitRecord (.broadcast w) w s = .next { s.broadcast (s.groupOf w) w with visit := .fetch } := by
  obtain ⟨instr, hr, -⟩ := classHas_eq_true.mp h
  simp only [visitRecord, hr]
  rw [exec_at_broadcast rfl, State.groupOf, classHas_of_traceRead hr]
  cases instr.cls.isFp <;> rfl

/-- Everything arbitration does: nothing without a candidate, or the oldest one broadcasts. -/
theorem arbitrate_eq (s : State) :
    (s.candidates = [] ∧ arbitrate s = .next s) ∨
      ∃ w ∈ s.candidates, (∀ i ∈ s.candidates, w ≤ i) ∧
        arbitrate s = .next { s.broadcast (s.groupOf w) w with visit := .fetch } := by
  obtain h | ⟨w, hw, hle, h⟩ := arbitrate_cases s
  · exact .inl h
  · obtain ⟨g, -, -, hwrites⟩ := mem_candidates.mp hw
    exact .inr ⟨w, hw, hle, h.trans (visitRecord_broadcast hwrites)⟩

theorem some_mem_broadcast_units {s : State} {g : Group} {w i : Nat} (h : i ≠ w) (k : Group) :
    some i ∈ (s.broadcast g w).units k ↔ some i ∈ s.units k := by
  by_cases hk : g = k
  · subst hk
    simp [broadcast_units_self, some_mem_clearRef, h]
  · rw [broadcast_units_other s hk]

theorem some_mem_broadcast_stations {s : State} {g : Group} {w i : Nat} (h : i ≠ w) (k : Group) :
    some i ∈ (s.broadcast g w).stations k ↔ some i ∈ s.stations k := by
  by_cases hk : g = k
  · subst hk
    simp [broadcast_stations_self, some_mem_clearRef, h]
  · rw [broadcast_stations_other s hk]

theorem broadcast_gone (s : State) (g : Group) (w : Nat) : (s.broadcast g w).gone g w := by
  simp [State.gone, broadcast_units_self, broadcast_stations_self, some_mem_clearRef]

/-- Settles O22: the winner is the least candidate, and `broadcast` is its effect on records and slots. -/
theorem oldestCandidateWinsTheBus : Obligations.OldestCandidateWinsTheBus := by
  intro s
  refine ⟨fun i => ?candidates, fun w hwf hfatal hw hleast => ?winner, fun hnone => ?none⟩
  case candidates => simp only [mem_candidates, State.finished, decide_eq_true_eq, mem_occupants]
  case none =>
    obtain ⟨-, h⟩ | ⟨w, hw, -⟩ := arbitrate_eq s
    · exact h
    · rw [hnone] at hw
      cases hw
  case winner =>
    obtain ⟨hnil, -⟩ | ⟨x, hx, hle, h⟩ := arbitrate_eq s
    · rw [hnil] at hw
      cases hw
    obtain rfl : x = w := Nat.le_antisymm (hle w hw) (hleast x hx)
    obtain ⟨g, -, -, hwrites⟩ := mem_candidates.mp hw
    have hholds : s.mem.holds x := (holds_iff_of_wf hwf x).mpr (le_size_of_classHas hwrites)
    refine ⟨_, h, (broadcast_fatal ..).trans hfatal, broadcast_cdb .., broadcast_record_self hholds _,
      fun i hi => broadcast_record_other hi.symm s _, broadcast_mapTable .., broadcast_ifq .., fun k i hi => ?_,
      fun k hk => ?_⟩
    · have hunits := some_mem_broadcast_units (s := s) (g := s.groupOf x) hi k
      have hstations := some_mem_broadcast_stations (s := s) (g := s.groupOf x) hi k
      simp only [mem_occupants]
      cases k <;> exact ⟨hunits, hstations⟩
    · obtain rfl : k = s.groupOf x := by
        cases k <;> cases hg : s.groupOf x <;> simp_all [← groupOf_eq_fp]
      obtain ⟨hu, hs⟩ := broadcast_gone s (s.groupOf x) x
      simp only [mem_occupants]
      cases hg : s.groupOf x <;> rw [hg] at hu hs <;> exact ⟨hu, hs⟩

end Sys2Proof.Machine
end

section

/-! # Proofs: eligibility and the stamping part of dispatch (spec/43_issue.md, spec/42_dispatch.md) -/

namespace Sys2Proof.Machine

theorem outstanding_eq_false {s : State} {d : Ref} :
    s.outstanding d = false ↔ ∀ p ∈ d, (s.record p).tCdb ≠ 0 ∧ (s.record p).tCdb ≠ s.cycle := by
  cases d <;> simp [State.outstanding]

theorem mem_deps {r : RecordState} {p : Nat} : p ∈ r.deps ↔ r.dep0 = some p ∨ r.dep1 = some p ∨ r.dep2 = some p := by
  simp [RecordState.deps, eq_comm]

/-- Settles O23: `eligible` is a conjunction of these conditions, the last one source field by source field. -/
theorem eligibilityCondition : Obligations.EligibilityCondition := by
  intro s i
  simp only [State.eligible, Bool.and_eq_true, decide_eq_true_eq, Bool.not_eq_true', outstanding_eq_false, mem_deps,
    or_imp, forall_and, Option.mem_def, ne_eq]
  tauto

/-- Stamping a list of records stamps exactly those in it whose stamp is unset. -/
theorem foldl_stampIssueOne_record {s : State} {i : Nat} (h : s.mem.holds i) (l : List Nat) :
    (l.foldl stampIssueOne s).record i =
      if i ∈ l ∧ (s.record i).tIssue = 0 then { s.record i with tIssue := s.cycle } else s.record i := by
  induction l generalizing s with
  | nil => simp
  | cons j l ih =>
    have hholds : (stampIssueOne s j).mem.holds i := ⟨h.1, h.2.trans_eq (updateRec_length ..).symm⟩
    have hcycle : (stampIssueOne s j).cycle = s.cycle := rfl
    rw [List.foldl_cons, ih hholds, stampIssueOne_record, hcycle]
    by_cases hj : j = i
    · subst hj
      simp only [eq_true h, true_and, List.mem_cons, true_or]
      by_cases h0 : (s.record j).tIssue = 0 <;> simp [h0]
    · simp [hj, Ne.symm hj]

/-- Settles O25. -/
theorem unstampedOccupantsGetTheIssueStamp : Obligations.UnstampedOccupantsGetTheIssueStamp :=
  fun _ _ h => foldl_stampIssueOne_record h _

end Sys2Proof.Machine
end

section

/-! # Proofs: the fetch part (spec/41_fetch.md) -/

namespace Sys2Proof.Machine

/-- The next `k` records of the trace are traps. -/
def State.trapsAhead (s : State) (k : Nat) : Prop :=
  ∀ i, s.fetchIndex < i → i ≤ s.fetchIndex + k → s.classHas OpClass.isTrap i = true

/-- The cursor has moved over `k` records. -/
def State.skipped (s : State) (k : Nat) : State := { s with fetchIndex := s.fetchIndex + k }

theorem skipped_skipped (s : State) (j k : Nat) : (s.skipped j).skipped k = s.skipped (j + k) := by
  simp only [State.skipped, Nat.add_assoc]

/-- The fetch part has skipped `k` traps and pushed the record behind them (R127). -/
def State.fetched (s : State) (k : Nat) : State :=
  { s with fetchIndex := s.fetchIndex + k + 1, ifq := s.ifq ++ [s.fetchIndex + k + 1] }

/-- One turn of the fetch loop at a trap. -/
theorem fetchLoop_of_trap {n : Nat} {s : State} {i : Instr} (hv : s.visit = .fetch) (hfatal : s.fatal = none)
    (hr : s.traceRead (s.fetchIndex + 1) = some (.ok i)) (htrap : i.cls.isTrap = true) :
    fetchLoop (n + 1) s = fetchLoop n (s.skipped 1) := by
  have hlt : s.fetchIndex < s.size := (le_size_of_traceRead hr).2
  rw [fetchLoop_succ hv hr, fetchSkip_of_lt hlt]
  simp only [htrap, if_true]
  exact thenStage_next_none (s := s.skipped 1) hfatal _

/-- One turn of the fetch loop at a record that is no trap. -/
theorem fetchLoop_of_not_trap {n : Nat} {s : State} {i : Instr} (hv : s.visit = .fetch) (hfatal : s.fatal = none)
    (hr : s.traceRead (s.fetchIndex + 1) = some (.ok i)) (htrap : i.cls.isTrap = false) :
    fetchLoop (n + 1) s = .next (s.fetched 0) := by
  have hlt : s.fetchIndex < s.size := (le_size_of_traceRead hr).2
  rw [fetchLoop_succ hv hr, fetchEnqueue_of_lt hlt]
  simp only [htrap, Bool.false_eq_true, if_false]
  exact thenStage_next_none (s := s.fetched 0) hfatal _

/-- By induction on their number: traps at the cursor are skipped, whatever follows. -/
theorem fetchLoop_of_trapsAhead {n k : Nat} {s : State} (hv : s.visit = .fetch) (hfatal : s.fatal = none)
    (htraps : s.trapsAhead k) :
    fetchLoop (n + k) s = fetchLoop n (s.skipped k) := by
  induction k generalizing s with
  | zero => rfl
  | succ k ih =>
    obtain ⟨i, hr, htrap⟩ := classHas_eq_true.mp (htraps (s.fetchIndex + 1) (by omega) (by omega))
    have hrest : (s.skipped 1).trapsAhead k := fun j hlo hhi =>
      htraps j (Nat.lt_of_succ_lt hlo) (by simp only [State.skipped] at hhi; omega)
    rw [← Nat.add_assoc, fetchLoop_of_trap hv hfatal hr htrap, ih (s := s.skipped 1) hv hfatal hrest,
      skipped_skipped, Nat.add_comm 1 k]

/-- Settles O26: the traps ahead are skipped, and the loop stops at the record behind them. -/
theorem fetchSkipsTrapsWithinTheCycle : Obligations.FetchSkipsTrapsWithinTheCycle := by
  intro b s k hfatal hv hguard htraps hnext
  obtain ⟨i, hr, hclass⟩ := classHas_eq_true.mp hnext
  have hle : s.fetchIndex + k + 1 ≤ s.size := (le_size_of_traceRead hr).2
  obtain ⟨n, hn⟩ : ∃ n, s.size - s.fetchIndex = n + 1 + k := ⟨s.size - s.fetchIndex - 1 - k, by omega⟩
  rw [fetchPart, if_pos hguard, hn, fetchLoop_of_trapsAhead hv hfatal htraps]
  exact fetchLoop_of_not_trap (s := s.skipped k) hv hfatal hr (by simpa using hclass)

/-- With nothing but traps left, the loop runs off the trace with the cursor at its end (R129). -/
theorem fetchLoop_of_only_traps {s : State} (hv : s.visit = .fetch) (hfatal : s.fatal = none)
    (hle : s.fetchIndex ≤ s.size) (htraps : s.trapsAhead (s.size - s.fetchIndex)) :
    fetchLoop (s.size - s.fetchIndex) s = .next (State.raiseFatal .traceOverrun { s with fetchIndex := s.size }) := by
  have h := fetchLoop_of_trapsAhead (n := 0) hv hfatal htraps
  rw [Nat.zero_add, State.skipped, Nat.add_sub_cancel' hle] at h
  exact h

/-- Settles O27. -/
theorem trailingTrapIsFatal : Obligations.TrailingTrapIsFatal := by
  intro b s hfatal hv hguard htraps
  have hlt : s.fetchIndex < s.size := by
    simp only [State.fetchGuard, Bool.and_eq_true, decide_eq_true_eq] at hguard
    exact hguard.2
  have hloop := fetchLoop_of_only_traps hv hfatal hlt.le fun i hlo hhi => htraps i hlo (by omega)
  have hmark : (State.raiseFatal .traceOverrun { s with fetchIndex := s.size }).fatal = some .traceOverrun :=
    raiseFatal_fatal_of_none hfatal _
  refine ⟨_, ?_, hmark, rfl⟩
  rw [fetchToDispatch, fetchPart, if_pos hguard, hloop]
  exact thenStage_next_some (by rw [hmark]; nofun) _

/-- Everything the fetch loop can answer as a next state: the record behind some traps is pushed, or there were only
traps. -/
theorem fetchLoop_eq_next {n : Nat} {s t : State} (hv : s.visit = .fetch) (hfatal : s.fatal = none)
    (hn : s.fetchIndex + n = s.size) (h : fetchLoop n s = .next t) :
    (∃ k < n, s.trapsAhead k ∧ s.classHas (fun c => !c.isTrap) (s.fetchIndex + k + 1) = true ∧ t = s.fetched k) ∨
      (s.trapsAhead n ∧ t = State.raiseFatal .traceOverrun { s with fetchIndex := s.size }) := by
  induction n generalizing s with
  | zero =>
    cases h
    refine .inr ⟨fun i hlo hhi => absurd hhi (by omega), ?_⟩
    rw [← hn]
    rfl
  | succ n ih =>
    obtain ⟨x, hx⟩ := Option.isSome_iff_exists.mp
      ((traceRead_isSome_iff s (s.fetchIndex + 1)).mpr ⟨by omega, by omega⟩)
    cases x with
    | error e => simp [fetchLoop, visitRecord, hx, thenStage] at h
    | ok instr =>
      have hclass (P : OpClass → Bool) := classHas_of_traceRead hx P
      cases htrap : instr.cls.isTrap with
      | false =>
        rw [fetchLoop_of_not_trap hv hfatal hx htrap] at h
        cases h
        exact .inl ⟨0, n.succ_pos, fun i hlo hhi => absurd hhi (by omega), by rw [Nat.add_zero, hclass, htrap]; rfl, rfl⟩
      | true =>
        rw [fetchLoop_of_trap hv hfatal hx htrap] at h
        have htraps {k : Nat} (hk : (s.skipped 1).trapsAhead k) : s.trapsAhead (k + 1) := by
          intro i hlo hhi
          obtain rfl | hlo := Nat.eq_or_lt_of_le (Nat.succ_le_of_lt hlo)
          · rw [hclass, htrap]
          · exact hk i hlo (by simp only [State.skipped]; omega)
        obtain ⟨k, hk, ht, hnot, rfl⟩ | ⟨ht, rfl⟩ := ih (s := s.skipped 1) hv hfatal
            ((Nat.add_right_comm ..).trans hn) h
        · refine .inl ⟨k + 1, Nat.succ_lt_succ hk, htraps ht, ?_, ?_⟩
          · have hidx : (s.skipped 1).fetchIndex + k + 1 = s.fetchIndex + (k + 1) + 1 := by
              simp only [State.skipped, Nat.add_assoc, Nat.add_comm 1]
            rw [hidx] at hnot
            exact hnot
          · simp only [State.skipped, State.fetched, Nat.add_assoc, Nat.add_comm 1]
        · exact .inr ⟨htraps ht, rfl⟩

theorem fetchGuard_eq_true {s : State} {b : Nat} :
    s.fetchGuard b = true ↔ s.ifq.length ≤ b ∧ s.fetchIndex < s.size := by
  simp [State.fetchGuard, isFull]

/-- Everything the fetch part can answer as a next state. -/
theorem fetchPart_eq_next {b : Nat} {s t : State} (hv : s.visit = .fetch) (hfatal : s.fatal = none)
    (h : fetchPart b s = .next t) :
    (s.fetchGuard b = false ∧ t = s) ∨
      s.fetchGuard b = true ∧
        ((∃ k, s.trapsAhead k ∧ s.classHas (fun c => !c.isTrap) (s.fetchIndex + k + 1) = true ∧ t = s.fetched k) ∨
          (s.trapsAhead (s.size - s.fetchIndex) ∧
            t = State.raiseFatal .traceOverrun { s with fetchIndex := s.size })) := by
  unfold fetchPart at h
  split at h
  case isFalse hguard =>
    cases h
    exact .inl ⟨by simpa using hguard, rfl⟩
  case isTrue hguard =>
    have hlt := (fetchGuard_eq_true.mp hguard).2
    obtain ⟨k, -, hk⟩ | hk := fetchLoop_eq_next hv hfatal (by omega) h
    · exact .inr ⟨hguard, .inl ⟨k, hk⟩⟩
    · exact .inr ⟨hguard, .inr hk⟩

end Sys2Proof.Machine
end

section

/-! # Proofs: what every stage keeps (spec/46_driver.md) -/

namespace Sys2Proof.Machine

/-- A relation between states that every action of a stage respects. -/
structure ActionRel (R : State → State → Prop) : Prop where
  refl : ∀ s, R s s
  trans : ∀ s t u, R s t → R t u → R s u
  retire : ∀ s, R s (cdbToRetire s)
  complete : ∀ g i s t, visitRecord (.complete g i) i s = .next t → R s t
  broadcast : ∀ w s t, w ∈ s.candidates → visitRecord (.broadcast w) w s = .next t → R s t
  start : ∀ g k i s, R s (s.assignUnit g k i)
  dispatch : ∀ h s t, visitRecord .dispatch h s = .next t → R s t
  stampIssue : ∀ i s, R s (stampIssueOne s i)
  fetch : ∀ i s t, visitRecord .fetch i s = .next t → R s t
  overrun : ∀ s, R s (s.raiseFatal .traceOverrun)
  stampHead : ∀ s, R s (stampHead s)

namespace ActionRel

variable {R : State → State → Prop} {s t : State}

/-- A sequence respects `R` if its parts do. -/
theorem thenStage (hR : ActionRel R) {o : Result} {f : State → Result} (ho : ∀ u, o = .next u → R s u)
    (hf : ∀ u v, f u = .next v → R u v) (h : Machine.thenStage o f = .next t) : R s t := by
  obtain ⟨h, -⟩ | ⟨u, hu, -, ht⟩ := thenStage_eq_next.mp h
  · exact ho t h
  · exact hR.trans _ _ _ (ho u hu) (hf u t ht)

theorem completeGroup (hR : ActionRel R) {g : Group} (h : completeGroup g s = .next t) : R s t := by
  refine forSlots_induct (P := R s) (fun k u v hu _ hv => hR.trans _ _ _ hu ?_) (hR.refl s) h
  obtain ⟨-, e⟩ | ⟨i, -, -, e⟩ := completeSlot_cases g k u <;> rw [e] at hv
  · cases hv
    exact hR.refl u
  · exact hR.complete g i u v hv

theorem executeToCdb (hR : ActionRel R) (h : executeToCdb s = .next t) : R s t := by
  refine hR.thenStage (fun u hu => hR.thenStage (fun _ => hR.completeGroup) (fun _ _ => hR.completeGroup) hu)
    (fun u v hv => ?_) h
  obtain ⟨-, e⟩ | ⟨w, hw, -, e⟩ := arbitrate_cases u <;> rw [e] at hv
  · cases hv
    exact hR.refl u
  · exact hR.broadcast w u v hw hv

theorem issueToExecute (hR : ActionRel R) (s : State) : R s (issueToExecute s) := by
  have slot (g : Group) (u : State) (k : Nat) (hu : R s u) : R s (issueSlot g u k) := by
    obtain e | ⟨i, -, -, e⟩ := issueSlot_cases g u k <;> rw [e]
    · exact hu
    · exact hR.trans _ _ _ hu (hR.start g k i u)
  exact issueGroup_induct (slot .fp) (issueGroup_induct (slot .int) (hR.refl s))

theorem dispatchToIssue (hR : ActionRel R) (h : dispatchToIssue s = .next t) : R s t := by
  refine hR.thenStage (fun u hu => ?_) (fun u v hv => ?_) h
  · obtain ⟨-, e⟩ | ⟨i, q, -, e⟩ := dispatchHead_cases s <;> rw [e] at hu
    · cases hu
      exact hR.refl s
    · exact hR.dispatch i s u hu
  · cases hv
    unfold Machine.stampIssue
    generalize occupants u.rsInt ++ occupants u.rsFp = l
    induction l generalizing u with
    | nil => exact hR.refl u
    | cons i l ih => exact hR.trans _ _ _ (hR.stampIssue i u) (ih _)

theorem fetchLoop (hR : ActionRel R) {n : Nat} (h : fetchLoop n s = .next t) : R s t := by
  induction n generalizing s t with
  | zero =>
    cases h
    exact hR.overrun s
  | succ n ih =>
    refine hR.thenStage (fun u hu => hR.fetch _ s u hu) (fun u v hv => ?_) h
    split at hv
    · exact ih hv
    · cases hv
      exact hR.refl u

theorem fetchToDispatch (hR : ActionRel R) {b : Nat} (h : fetchToDispatch b s = .next t) : R s t := by
  refine hR.thenStage (fun u hu => ?_) (fun u v hv => ?_) h
  · unfold fetchPart at hu
    split at hu
    · exact hR.fetchLoop hu
    · cases hu
      exact hR.refl s
  · cases hv
    exact hR.stampHead u

/-- A cycle is a sequence of actions and, where it is not fatal, the increment of the counter. -/
theorem cycleWith (hR : ActionRel R) {b : Nat} (h : cycleWith b s = .next t) :
    ∃ u, R s u ∧ ((t.fatal ≠ none ∧ t = u) ∨ t = u.tick) := by
  obtain ⟨h, hne⟩ | ⟨s2, h2, -, h⟩ := cycleWith_eq_next h
  · exact ⟨t, hR.trans _ _ _ (hR.retire s) (hR.executeToCdb h), .inl ⟨hne, rfl⟩⟩
  have to3 := hR.trans _ _ _ (hR.trans _ _ _ (hR.retire s) (hR.executeToCdb h2)) (hR.issueToExecute s2)
  obtain ⟨h, hne⟩ | ⟨s4, h4, -, h⟩ := h
  · exact ⟨t, hR.trans _ _ _ to3 (hR.dispatchToIssue h), .inl ⟨hne, rfl⟩⟩
  have to4 := hR.trans _ _ _ to3 (hR.dispatchToIssue h4)
  obtain ⟨h, hne⟩ | ⟨s5, h5, -, rfl⟩ := h
  · exact ⟨t, hR.trans _ _ _ to4 (hR.fetchToDispatch h), .inl ⟨hne, rfl⟩⟩
  · exact ⟨s5, hR.trans _ _ _ to4 (hR.fetchToDispatch h5), .inr rfl⟩

end ActionRel

/-! ### The inputs (R43) -/

theorem sameInputs_actionRel : ActionRel fun s t => SameInputs s t where
  refl := SameInputs.refl
  trans _ _ _ := SameInputs.trans
  retire := cdbToRetire_sameInputs
  complete _ _ _ _ := visitRecord_sameInputs
  broadcast _ _ _ _ := visitRecord_sameInputs
  start g k i s := assignUnit_sameInputs s g k i
  dispatch _ _ _ := visitRecord_sameInputs
  stampIssue i s := updateRecord_sameInputs s i _
  fetch _ _ _ := visitRecord_sameInputs
  overrun s := raiseFatal_sameInputs s _
  stampHead := stampHead_sameInputs

theorem stepWith_sameInputs {b : Nat} {s t : State} (h : stepWith b s = .next t) : SameInputs s t := by
  obtain ⟨-, ⟨-, rfl⟩ | ⟨-, h⟩⟩ := stepWith_eq_next h
  · exact SameInputs.refl t
  · obtain ⟨u, hu, ⟨-, rfl⟩ | rfl⟩ := sameInputs_actionRel.cycleWith h
    · exact hu
    · exact hu

/-- Settles O36. -/
theorem stepKeepsTheInputs : Obligations.StepKeepsTheInputs := fun _ _ => stepWith_sameInputs

/-- What a step that answers keeps, a run that answers keeps. -/
theorem runSteps_induct {b : Nat} {P : State → Prop} (hP : ∀ s t, P s → stepWith b s = .next t → P t) {n : Nat}
    {s t : State} (hs : P s) (h : runSteps b n s = .next t) : P t := by
  induction n generalizing s with
  | zero =>
    cases h
    exact hs
  | succ n ih =>
    unfold runSteps at h
    split at h
    · rename_i u hu
      exact ih (hP s u hs hu) h
    · cases h
    · cases h

/-- Settles O7: reset reads the inputs alone, and a run keeps them. -/
theorem resetAfterARunIsTheResetState : Obligations.ResetAfterARunIsTheResetState := by
  intro b n p trace s h
  obtain ⟨htrace, -, hmap, hrsInt, hrsFp, hfuInt, hfuFp⟩ : SameInputs (State.resetWith p trace) s :=
    runSteps_induct (P := SameInputs (State.resetWith p trace)) (fun _ _ hs hu => hs.trans (stepWith_sameInputs hu))
      (SameInputs.refl _) h
  simp only [State.doReset, htrace, hmap, hrsInt, hrsFp, hfuInt, hfuFp]
  simp only [State.resetWith, List.length_replicate]

/-! ### The counter (R212) -/

theorem exec_cycle {i : Instr} {s t : State} (h : exec i s = .next t) : t.cycle = s.cycle := by
  have allocate (g : Group) (o : Operands) : (s.allocate g o).cycle = s.cycle := by
    obtain ⟨-, e⟩ | ⟨_, _, -, -, e⟩ | ⟨_, _, _, -, -, e⟩ := allocate_cases s g o <;> rw [e]
    simp
  have enqueue : s.fetchEnqueue.cycle = s.cycle := by
    unfold State.fetchEnqueue
    split <;> rfl
  have skip : s.fetchSkip.cycle = s.cycle := by
    unfold State.fetchSkip State.advanceCursor
    split <;> rfl
  cases hv : s.visit with
  | fetch =>
    rw [exec_at_fetch hv] at h
    cases h
    split
    · exact skip
    · exact enqueue
  | dispatch =>
    rw [exec_at_dispatch hv] at h
    cases h
    split
    · rfl
    split
    · exact allocate ..
    split
    · exact allocate ..
    · rfl
  | complete g n =>
    rw [exec_at_complete hv] at h
    cases h
    split
    · rfl
    · exact releaseSlots_cycle ..
  | broadcast w =>
    rw [exec_at_broadcast hv] at h
    cases h
    exact broadcast_cycle ..

theorem visitRecord_cycle {v : Visit} {i : Nat} {s t : State} (h : visitRecord v i s = .next t) :
    t.cycle = s.cycle := by
  obtain ⟨-, rfl⟩ | ⟨instr, u, -, hu, rfl⟩ := visitRecord_eq_next.mp h
  · rfl
  · have := exec_cycle hu
    exact this

theorem sameCycle_actionRel : ActionRel fun s t => t.cycle = s.cycle where
  refl _ := rfl
  trans _ _ _ h k := k.trans h
  retire s := by
    obtain ⟨-, h⟩ | ⟨i, -, -, h⟩ := cdbToRetire_cases s <;> rw [h]
  complete _ _ _ _ := visitRecord_cycle
  broadcast _ _ _ _ := visitRecord_cycle
  start := by simp
  dispatch _ _ _ := visitRecord_cycle
  stampIssue _ _ := rfl
  fetch _ _ _ := visitRecord_cycle
  overrun _ := rfl
  stampHead s := by
    obtain ⟨m, h, -⟩ := stampHead_frame s
    rw [h]

/-- Settles O34: no stage writes the counter, so a cycle that is not fatal is one increment. -/
theorem cycleCounterCountsCycles : Obligations.CycleCounterCountsCycles := by
  intro s t h
  obtain ⟨hfatal, ⟨hended, rfl⟩ | ⟨hended, hcycle⟩⟩ := stepWith_eq_next h
  · exact ⟨fun _ => ⟨rfl, if_pos ⟨hfatal, hended⟩⟩, fun hnot => absurd hended (by simp [hnot])⟩
  · refine ⟨fun he => absurd hended (by simp [he]), fun _ htfatal => ?_⟩
    obtain ⟨u, hu, ⟨hne, -⟩ | rfl⟩ := sameCycle_actionRel.cycleWith hcycle
    · exact absurd htfatal hne
    · exact congrArg (· + 1) hu

/-! ### The broadcast stamps of stores (R189) -/

/-- A broadcast stamp is written only to a record that writes a result. -/
def KeepsStoreStamps (s t : State) : Prop :=
  SameInputs s t ∧ ∀ i, s.classHas (· == .store) i = true → (t.record i).tCdb = (s.record i).tCdb

theorem KeepsStoreStamps.of_tCdb {s t : State} (hin : SameInputs s t)
    (h : ∀ i, (t.record i).tCdb = (s.record i).tCdb) : KeepsStoreStamps s t :=
  ⟨hin, fun i _ => h i⟩

theorem updateRecord_tCdb {f : RecordState → RecordState} (hf : ∀ r, (f r).tCdb = r.tCdb) (s : State) (i j : Nat) :
    ((s.updateRecord i f).record j).tCdb = (s.record j).tCdb := by
  rw [record_updateRecord]
  split
  · exact hf _
  · rfl

theorem fetchEnqueue_mem (s : State) : s.fetchEnqueue.mem = s.mem := by
  unfold State.fetchEnqueue
  split <;> rfl

theorem fetchSkip_mem (s : State) : s.fetchSkip.mem = s.mem := by
  unfold State.fetchSkip State.advanceCursor
  split <;> rfl

theorem allocate_tCdb (s : State) (g : Group) (o : Operands) (i : Nat) :
    ((s.allocate g o).record i).tCdb = (s.record i).tCdb := by
  obtain ⟨-, e⟩ | ⟨_, _, -, -, e⟩ | ⟨h, _, _, -, -, e⟩ := allocate_cases s g o <;> rw [e]
  rw [record_of_mem_eq (s := s.captureDeps h o) (by simp only [setStations_mem, renameDests_mem])]
  exact updateRecord_tCdb (by intro; rfl) s h i

/-- Away from the bus no visit writes a broadcast stamp. -/
theorem visitRecord_tCdb {v : Visit} (hv : ∀ w, v ≠ .broadcast w) {i : Nat} {s t : State}
    (h : visitRecord v i s = .next t) (j : Nat) : (t.record j).tCdb = (s.record j).tCdb := by
  obtain ⟨-, rfl⟩ | ⟨instr, u, -, hu, rfl⟩ := visitRecord_eq_next.mp h
  · rfl
  cases v with
  | fetch =>
    rw [exec_at_fetch rfl] at hu
    cases hu
    split
    · exact congrArg RecordState.tCdb (record_of_mem_eq (fetchSkip_mem _) j)
    · exact congrArg RecordState.tCdb (record_of_mem_eq (fetchEnqueue_mem _) j)
  | dispatch =>
    rw [exec_at_dispatch rfl] at hu
    cases hu
    split
    · rfl
    split
    · exact allocate_tCdb _ _ _ j
    split
    · exact allocate_tCdb _ _ _ j
    · rfl
  | complete g n =>
    rw [exec_at_complete rfl] at hu
    cases hu
    split
    · rfl
    · exact congrArg RecordState.tCdb (releaseSlots_record _ _ _ j)
  | broadcast w => exact absurd rfl (hv w)

theorem keepsStoreStamps_actionRel : ActionRel KeepsStoreStamps where
  refl s := .of_tCdb (SameInputs.refl s) fun _ => rfl
  trans s t u := by
    rintro ⟨hin, h⟩ ⟨hin', h'⟩
    exact ⟨hin.trans hin', fun i hi => (h' i (by rwa [hin.classHas])).trans (h i hi)⟩
  retire s := by
    refine .of_tCdb (cdbToRetire_sameInputs s) fun i => ?_
    obtain ⟨-, h⟩ | ⟨_, -, -, h⟩ := cdbToRetire_cases s <;> rw [h]
    rfl
  complete _ _ _ _ h := .of_tCdb (visitRecord_sameInputs h) (visitRecord_tCdb (fun _ h => by cases h) h)
  broadcast w s t hw h := by
    refine ⟨visitRecord_sameInputs h, fun i hi => ?_⟩
    obtain ⟨-, -, -, hwrites⟩ := mem_candidates.mp hw
    rw [visitRecord_broadcast hwrites] at h
    cases h
    have hne : w ≠ i := by
      rintro rfl
      obtain ⟨instr, hr, hstore⟩ := classHas_eq_true.mp hi
      rw [classHas_of_traceRead hr] at hwrites
      rw [eq_of_beq hstore] at hwrites
      cases hwrites
    exact congrArg RecordState.tCdb (broadcast_record_other hne s _)
  start g k i s := by
    refine .of_tCdb (assignUnit_sameInputs s g k i) fun j => ?_
    rw [State.assignUnit, updateRecord_tCdb (by intro; rfl), record_of_mem_eq (setUnits_mem ..)]
  dispatch _ _ _ h := .of_tCdb (visitRecord_sameInputs h) (visitRecord_tCdb (fun _ h => by cases h) h)
  stampIssue i s := .of_tCdb (updateRecord_sameInputs s i _) (updateRecord_tCdb (fun r => by split <;> rfl) s i)
  fetch _ _ _ h := .of_tCdb (visitRecord_sameInputs h) (visitRecord_tCdb (fun _ h => by cases h) h)
  overrun s := .of_tCdb (raiseFatal_sameInputs s _) fun _ => rfl
  stampHead s := by
    refine .of_tCdb (stampHead_sameInputs s) fun j => ?_
    rw [stampHead_record]
    split <;> rfl

/-- Settles O38: the bus is the only place a broadcast stamp is written, and a candidate writes a result. -/
theorem storeIsNeverBroadcast : Obligations.StoreIsNeverBroadcast := by
  intro s t i h _ hstore
  obtain ⟨-, ⟨-, rfl⟩ | ⟨-, hcycle⟩⟩ := stepWith_eq_next h
  · rfl
  · obtain ⟨u, ⟨-, hu⟩, ⟨-, rfl⟩ | rfl⟩ := keepsStoreStamps_actionRel.cycleWith hcycle
    · exact hu i hstore
    · exact hu i hstore

end Sys2Proof.Machine
end

section

/-! # Proofs: the step and its stops (spec/46_driver.md, spec/60_exceptions.md) -/

namespace Sys2Proof.Machine

theorem step_of_running {s : State} (hfatal : s.fatal = none) (hended : s.ended = false) :
    step s = cycleWith Config.ifqBound s := by
  simp only [step, stepWith, hfatal, hended, Bool.false_eq_true, if_false]

/-- Stages 1 to 4 read the inputs and the cursor as the cycle found them. -/
theorem stagesBeforeFetch_keeps {s t : State} (h : stagesBeforeFetch s = .next t) :
    SameInputs s t ∧ t.fetchIndex = s.fetchIndex := by
  have front : SameInputs s (cdbToRetire s) ∧ SameQueue s (cdbToRetire s) :=
    ⟨cdbToRetire_sameInputs s, cdbToRetire_sameQueue s⟩
  obtain ⟨h, -⟩ | ⟨u, h, -, ht⟩ := thenStage_eq_next.mp h
  · exact ⟨front.1.trans (executeToCdb_sameInputs h), (front.2.trans (executeToCdb_sameQueue h)).2⟩
  · have hin : SameInputs s (issueToExecute u) :=
      (front.1.trans (executeToCdb_sameInputs h)).trans (issueToExecute_sameInputs u)
    have hq : SameQueue s (issueToExecute u) :=
      (front.2.trans (executeToCdb_sameQueue h)).trans (issueToExecute_sameQueue u)
    exact ⟨hin.trans (dispatchToIssue_sameInputs ht), (hq.trans_onlyHeadLeaves (dispatchToIssue_onlyHeadLeaves ht)).2⟩

theorem SameInputs.traceRead {s t : State} (h : SameInputs s t) (i : Nat) : t.traceRead i = s.traceRead i := by
  obtain ⟨htrace, -, hmap, -⟩ := h
  exact traceRead_of_inputs htrace hmap i

/-- A step after stages 1 to 4 is the fetch stage and the increment. -/
theorem step_of_stagesBeforeFetch {s t : State} (hfatal : s.fatal = none) (hended : s.ended = false)
    (h : stagesBeforeFetch s = .next t) (ht : t.fatal = none) :
    step s = thenStage (fetchToDispatch Config.ifqBound t) fun v => .next v.tick := by
  rw [step_of_running hfatal hended, cycleWith, h, thenStage_next_none ht]

/-- Where the guard holds, the fetch loop has a first turn. -/
theorem fetchPart_of_guard {b : Nat} {s : State} (h : s.fetchGuard b = true) :
    ∃ n, s.size = s.fetchIndex + (n + 1) ∧ fetchPart b s = fetchLoop (n + 1) s := by
  have hlt := (fetchGuard_eq_true.mp h).2
  refine ⟨s.size - s.fetchIndex - 1, by omega, ?_⟩
  rw [fetchPart, if_pos h]
  congr 1
  omega

/-- Settles O29: the first turn of the fetch loop is `exec`; what follows it depends on the class. -/
theorem stepRunsTheFetchedInstruction : Obligations.StepRunsTheFetchedInstruction := by
  intro s t u i hfatal hended hstages htfatal hv hguard hread _ hexec
  obtain ⟨hin, hcursor⟩ := stagesBeforeFetch_keeps hstages
  rw [← hcursor, ← hin.traceRead] at hread
  obtain ⟨n, hsize, hpart⟩ := fetchPart_of_guard hguard
  have hlt : t.fetchIndex < t.size := by omega
  rw [exec_at_fetch hv] at hexec
  cases hexec
  rw [step_of_stagesBeforeFetch hfatal hended hstages htfatal, fetchToDispatch, hpart]
  refine ⟨fun hne => ?enqueued, fun htrap => ?skipped⟩
  case enqueued =>
    have hclass : i.cls.isTrap = false := by simpa using isTrap_eq_true.not.mpr hne
    have hcont (f : State → Result) : thenStage (.next (t.fetched 0)) f = f (t.fetched 0) :=
      thenStage_next_none (s := t.fetched 0) htfatal f
    have hstamp : (stampHead (t.fetched 0)).fatal = none := by
      obtain ⟨m, h, -⟩ := stampHead_frame (t.fetched 0)
      rw [h]
      exact htfatal
    rw [fetchLoop_of_not_trap hv htfatal hread hclass, hcont, thenStage_next_none hstamp, hclass,
      if_neg Bool.false_ne_true, fetchEnqueue_of_lt hlt]
    rfl
  case skipped =>
    have hclass : i.cls.isTrap = true := isTrap_eq_true.mpr htrap
    have hn : (t.skipped 1).size - (t.skipped 1).fetchIndex = n := by
      show t.size - (t.fetchIndex + 1) = n
      omega
    have hskip : t.fetchSkip = t.skipped 1 := fetchSkip_of_lt hlt
    rw [fetchLoop_of_trap hv htfatal hread hclass, hclass, if_pos rfl, hskip, hn]

/-- Settles O30: the visit at the head is `exec`; the stamping part follows unless it was fatal. -/
theorem dispatchRunsTheHeadInstruction : Obligations.DispatchRunsTheHeadInstruction := by
  intro s u h i _ hhead hread hexec
  have hvisit : dispatchHead s = .next { u with visit := .fetch } := by
    simp only [dispatchHead, peek, hhead, visitRecord, hread, hexec, leaveVisit]
  rw [dispatchToIssue, hvisit]
  refine ⟨fun hnone => ?_, fun hne => ⟨{ u with visit := .fetch }, ?_, rfl⟩⟩
  · exact thenStage_next_none (s := { u with visit := .fetch }) hnone _
  · exact thenStage_next_some (s := { u with visit := .fetch }) hne _

/-- Settles O31: the first turn of the fetch loop reads the word. -/
theorem illFormedRecordIsRefused : Obligations.IllFormedRecordIsRefused := by
  intro s t e hfatal hended hstages htfatal hguard hread
  obtain ⟨hin, hcursor⟩ := stagesBeforeFetch_keeps hstages
  rw [← hin.traceRead] at hread
  obtain ⟨n, -, hpart⟩ := fetchPart_of_guard hguard
  rw [step_of_stagesBeforeFetch hfatal hended hstages htfatal, fetchToDispatch, hpart, fetchLoop, hcursor, visitRecord,
    hread]
  rfl

/-- Settles O32. -/
theorem fatalStateTakesNoStep : Obligations.FatalStateTakesNoStep := by
  intro s r h
  simp only [step, stepWith, h]

theorem allFree_eq_true {l : List Ref} : allFree l = true ↔ ∀ r ∈ l, r = none := by
  simp [allFree]

/-- Settles O33. -/
theorem terminationPredicate : Obligations.TerminationPredicate := by
  intro s
  simp only [State.done, Bool.and_eq_true, allFree_eq_true, List.isEmpty_iff, decide_eq_true_eq, List.length_eq_zero_iff,
    and_assoc]

/-! ### A cycle in which no stage finds work -/

/-- No record is in a slot, in the queue or on the bus. -/
structure State.Idle (s : State) : Prop where
  fatal : s.fatal = none
  stations : ∀ g, occupants (s.stations g) = []
  units : ∀ g, occupants (s.units g) = []
  ifq : s.ifq = []
  cdb : s.cdb = none

theorem completeSlot_of_units_empty {s : State} {g : Group} (h : occupants (s.units g) = []) (k : Nat) :
    completeSlot g k s = .next s := by
  obtain ⟨-, e⟩ | ⟨i, hi, -⟩ := completeSlot_cases g k s
  · exact e
  · have : i ∈ occupants (s.units g) := mem_occupants.mpr (List.mem_of_getElem? hi)
    rw [h] at this
    cases this

/-- Slots that do nothing are a group that does nothing. -/
theorem completeGroup_of_slots {s : State} {g : Group} (hfatal : s.fatal = none)
    (h : ∀ k, completeSlot g k s = .next s) : completeGroup g s = .next s := by
  unfold completeGroup
  generalize (s.units g).length = n
  induction n with
  | zero => rfl
  | succ n ih => rw [forSlots_succ, ih, thenStage_next_none hfatal, h]

theorem executeToCdb_of_units_empty {s : State} (hfatal : s.fatal = none) (h : ∀ g, occupants (s.units g) = []) :
    executeToCdb s = .next s := by
  have group (g : Group) : completeGroup g s = .next s :=
    completeGroup_of_slots hfatal fun k => completeSlot_of_units_empty (h g) k
  have hcand : s.candidates = [] := by simp [State.candidates, State.candidatesOf, h]
  obtain ⟨-, harb⟩ | ⟨w, hw, -⟩ := arbitrate_eq s
  · rw [executeToCdb, group, thenStage_next_none hfatal, group, thenStage_next_none hfatal, harb]
  · rw [hcand] at hw
    cases hw

theorem issueGroup_of_selectFor_eq_none {s : State} {g : Group} (h : s.selectFor g = none) : issueGroup g s = s := by
  unfold issueGroup
  generalize List.range (s.units g).length = l
  induction l with
  | nil => rfl
  | cons k l ih => rw [List.foldl_cons, issueSlot_eq_self_of_selectFor_eq_none h, ih]

theorem issueToExecute_of_selectFor_eq_none {s : State} (h : ∀ g, s.selectFor g = none) : issueToExecute s = s := by
  rw [issueToExecute, issueGroup_of_selectFor_eq_none (h .int), issueGroup_of_selectFor_eq_none (h .fp)]

theorem selectFor_of_stations_empty {s : State} {g : Group} (h : occupants (s.stations g) = []) :
    s.selectFor g = none := by
  simp [State.selectFor, h, minIndex]

/-- The dispatch stage on an empty queue stamps. -/
theorem dispatchToIssue_of_ifq_nil {s : State} (hfatal : s.fatal = none) (h : s.ifq = []) :
    dispatchToIssue s = .next (stampIssue s) := by
  rw [dispatchToIssue, dispatchHead, h]
  exact thenStage_next_none hfatal _

theorem State.Idle.stagesBeforeFetch {s : State} (h : s.Idle) : stagesBeforeFetch s = .next s := by
  have hretire : cdbToRetire s = s := by simp only [cdbToRetire, h.cdb]
  have hissue : issueToExecute s = s :=
    issueToExecute_of_selectFor_eq_none fun g => selectFor_of_stations_empty (h.stations g)
  have hstamp : stampIssue s = s := by
    have hint := h.stations .int
    have hfp := h.stations .fp
    simp only [State.stations] at hint hfp
    simp only [stampIssue, hint, hfp, List.append_nil, List.foldl_nil]
  rw [Machine.stagesBeforeFetch, hretire, executeToCdb_of_units_empty h.fatal h.units, thenStage_next_none h.fatal,
    hissue, dispatchToIssue_of_ifq_nil h.fatal h.ifq, hstamp]

/-- With the trace read to its end too, only the counter moves. -/
theorem State.Idle.cycleWith {s : State} (h : s.Idle) (hend : s.fetchIndex = s.size) (b : Nat) :
    cycleWith b s = .next s.tick := by
  have hguard : s.fetchGuard b = false := by simp [State.fetchGuard, hend]
  have hfetch : fetchToDispatch b s = .next s := by
    have hpart : fetchPart b s = .next s := by simp [fetchPart, hguard]
    have hstamp : stampHead s = s := by simp [stampHead, peek, h.ifq]
    rw [fetchToDispatch, hpart, thenStage_next_none h.fatal, hstamp]
  rw [Machine.cycleWith, h.stagesBeforeFetch, thenStage_next_none h.fatal, hfetch, thenStage_next_none h.fatal]

theorem State.Idle.done {s : State} (h : s.Idle) (hend : s.fetchIndex = s.size) : s.done = true := by
  have hstations (g : Group) := allFree_iff.mpr (h.stations g)
  have hunits (g : Group) := allFree_iff.mpr (h.units g)
  have h1 := hstations .int
  have h2 := hstations .fp
  have h3 := hunits .int
  have h4 := hunits .fp
  simp only [State.stations, State.units] at h1 h2 h3 h4
  simp [State.done, h1, h2, h3, h4, h.ifq, h.cdb, hend]

theorem idle_resetWith (p : Config.Params) (trace : List TraceWord) : (State.resetWith p trace).Idle where
  fatal := rfl
  stations g := by cases g <;> exact occupants_replicate_none _
  units g := by cases g <;> exact occupants_replicate_none _
  ifq := rfl
  cdb := rfl

/-- A run that has ended stays as it is (log entry 1). -/
theorem runSteps_of_ended {b : Nat} {s : State} (hfatal : s.fatal = none) (hended : s.ended = true) (n : Nat) :
    runSteps b n s = .next s := by
  have hstep : stepWith b s = .next s := by simp only [stepWith, hfatal, hended, if_true]
  induction n with
  | zero => rfl
  | succ n ih => rw [runSteps, hstep]; exact ih

/-- Settles O35: the reset state of the empty trace is idle, so its one cycle only counts, and then the run has ended. -/
theorem emptyTraceReturnsTwo : Obligations.EmptyTraceReturnsTwo := by
  intro p n
  have hidle := idle_resetWith p []
  have hended : (State.resetWith p []).ended = false := by simp [State.ended, State.resetWith]
  have hstep : stepWith Config.ifqBound (State.resetWith p []) = .next (State.resetWith p []).tick :=
    (step_of_running rfl hended).trans (hidle.cycleWith rfl _)
  have hdone : (State.resetWith p []).tick.done = true := hidle.done rfl
  have htick : (State.resetWith p []).tick.ended = true := by
    rw [State.ended, hdone]
    rfl
  have hrun : runSteps Config.ifqBound (n + 1) (State.resetWith p []) = .next (State.resetWith p []).tick := by
    rw [runSteps, hstep]
    exact runSteps_of_ended rfl htick n
  have hcount : (State.resetWith p []).tick.returnedCount = some 2 := if_pos ⟨rfl, htick⟩
  rw [run, hrun]
  simp only [hcount]
  rfl

end Sys2Proof.Machine
end

section

/-! # Proofs: the shape of the fetch queue (spec/47_invariants.md R246) -/

namespace Sys2Proof.Machine

theorem SameInputs.instrAt {s t : State} (h : SameInputs s t) (i : Nat) : t.instrAt i = s.instrAt i := by
  obtain ⟨htrace, -, hmap, -⟩ := h
  exact instrAt_of_inputs htrace hmap i

theorem queueInv_of_sameQueue {s t : State} (h : s.QueueInv) (hin : SameInputs s t) (hq : SameQueue s t) :
    t.QueueInv := by
  obtain ⟨hifq, hcursor⟩ := hq
  simpa only [State.QueueInv, hifq, hcursor, hin.size, hin.classHas] using h

theorem queueInv_of_onlyHeadLeaves {s t : State} (h : s.QueueInv) (hin : SameInputs s t) (hq : OnlyHeadLeaves s t) :
    t.QueueInv := by
  obtain ⟨hifq | hifq, hcursor⟩ := hq
  · exact queueInv_of_sameQueue h hin ⟨hifq, hcursor⟩
  · obtain ⟨hle, hascend, hmem, hlen⟩ := h
    simp only [State.QueueInv, hifq, hcursor, hin.size, hin.classHas]
    exact ⟨hle, hascend.tail, fun i hi => hmem i (List.mem_of_mem_tail hi),
      (List.length_tail ..).trans_le ((Nat.sub_le ..).trans hlen)⟩

/-- The record that the fetch loop pushes is no trap. -/
theorem fetchLoop_pushed_class {n : Nat} {s t : State} (h : fetchLoop n s = .next t) (hfatal : t.fatal = none) :
    s.classHas (fun c => !c.isTrap) t.fetchIndex = true := by
  induction n generalizing s with
  | zero =>
    cases h
    exact absurd hfatal (raiseFatal_fatal_ne_none _ _)
  | succ n ih =>
    obtain ⟨-, hne⟩ | ⟨u, hu, hufatal, hrest⟩ := thenStage_eq_next.mp h
    · exact absurd hfatal hne
    · have hin : SameInputs s u := visitRecord_sameInputs hu
      obtain ⟨hindex, -⟩ := visitRecord_fetch_queue hu hufatal
      split at hrest
      case isTrue => rw [← hin.classHas]; exact ih hrest
      case isFalse htrap =>
        cases hrest
        obtain ⟨-, rfl⟩ | ⟨instr, -, hr, -⟩ := visitRecord_eq_next.mp hu
        · exact absurd hfatal (raiseFatal_fatal_ne_none _ _)
        · rw [hindex, classHas_of_traceRead hr]
          rw [classHas_of_traceRead hr] at htrap
          simpa using htrap

theorem queueInv_fetchToDispatch {s t : State} (h : s.QueueInv) (hfetch : fetchToDispatch Config.ifqBound s = .next t)
    (hfatal : t.fatal = none) : t.QueueInv := by
  have hin : SameInputs s t := fetchToDispatch_sameInputs hfetch
  obtain ⟨-, hne⟩ | ⟨u, hu, hufatal, rfl⟩ := fetchToDispatch_eq_next.mp hfetch
  · exact absurd hfatal hne
  have hstamp := stampHead_sameQueue u
  unfold fetchPart at hu
  split at hu
  case isFalse =>
    cases hu
    exact queueInv_of_sameQueue h hin hstamp
  case isTrue hguard =>
    obtain ⟨hlt, hifq⟩ := fetchLoop_cursorRecordEnters hu hufatal
    have hclass := fetchLoop_pushed_class hu hufatal
    obtain ⟨hle, hascend, hmem, -⟩ := h
    simp only [State.QueueInv, hstamp.1, hstamp.2, hin.size, hin.classHas, hifq]
    refine ⟨(le_size_of_classHas hclass).2, List.pairwise_append.mpr ⟨hascend, List.pairwise_singleton .., ?_⟩, ?_, ?_⟩
    · intro i hi j hj
      obtain rfl := List.mem_singleton.mp hj
      exact (hmem i hi).2.1.trans_lt hlt
    · intro i hi
      obtain hi | hi := List.mem_append.mp hi
      · obtain ⟨h1, h2, h3⟩ := hmem i hi
        exact ⟨h1, h2.trans hlt.le, h3⟩
      · obtain rfl := List.mem_singleton.mp hi
        exact ⟨Nat.zero_lt_of_lt hlt, Nat.le_refl _, hclass⟩
    · simpa using (fetchGuard_eq_true.mp hguard).1

theorem beforeDispatch_sameQueue {s s2 : State} (h : executeToCdb (cdbToRetire s) = .next s2) :
    SameQueue s (issueToExecute s2) :=
  ((cdbToRetire_sameQueue s).trans (executeToCdb_sameQueue h)).trans (issueToExecute_sameQueue s2)

theorem beforeDispatch_sameInputs {s s2 : State} (h : executeToCdb (cdbToRetire s) = .next s2) :
    SameInputs s (issueToExecute s2) :=
  ((cdbToRetire_sameInputs s).trans (executeToCdb_sameInputs h)).trans (issueToExecute_sameInputs s2)

/-- A cycle that is not fatal runs all five stages. -/
theorem cycleWith_stages {b : Nat} {s t : State} (h : cycleWith b s = .next t) (hfatal : t.fatal = none) :
    ∃ s2 s4 s5, executeToCdb (cdbToRetire s) = .next s2 ∧ s2.fatal = none ∧
      dispatchToIssue (issueToExecute s2) = .next s4 ∧ s4.fatal = none ∧
        fetchToDispatch b s4 = .next s5 ∧ s5.fatal = none ∧ t = s5.tick := by
  obtain ⟨-, hne⟩ | ⟨s2, h2, hf2, h⟩ := cycleWith_eq_next h
  · exact absurd hfatal hne
  obtain ⟨-, hne⟩ | ⟨s4, h4, hf4, h⟩ := h
  · exact absurd hfatal hne
  obtain ⟨-, hne⟩ | ⟨s5, h5, hf5, ht⟩ := h
  · exact absurd hfatal hne
  · exact ⟨s2, s4, s5, h2, hf2, h4, hf4, h5, hf5, ht⟩

/-- Settles O40: stages 1 to 3 leave the queue alone, stage 4 takes at most its head, stage 5 appends at most the record
at the cursor. -/
theorem stepKeepsQueueShape : Obligations.StepKeepsQueueShape := by
  intro s t h hstep hfatal
  obtain ⟨-, ⟨-, rfl⟩ | ⟨-, hcycle⟩⟩ := stepWith_eq_next hstep
  · exact h
  obtain ⟨s2, s4, s5, h2, -, h4, -, h5, hf5, rfl⟩ := cycleWith_stages hcycle hfatal
  have h3 := queueInv_of_sameQueue h (beforeDispatch_sameInputs h2) (beforeDispatch_sameQueue h2)
  have h4' := queueInv_of_onlyHeadLeaves h3 (dispatchToIssue_sameInputs h4) (dispatchToIssue_onlyHeadLeaves h4)
  have h5' : s5.QueueInv := queueInv_fetchToDispatch h4' h5 hf5
  exact h5'

end Sys2Proof.Machine
end

section

/-! # Proofs: the invariant between two stages of a cycle (spec/47_invariants.md)

`State.PipelineInv` speaks of a state between two cycles, where every stamp is of a past cycle. Inside a cycle the stages
stamp the current one after another: first broadcast, then start, then issue, then dispatch stamps. `CycleInv d u e b` is
the same invariant with one bound for each kind of stamp. Its three parts say what depends on the records and the queue,
on the slots and the bus, and on the map table. -/

namespace Sys2Proof.Machine

/-- The classes whose records take the slots of a group (R143, R144). -/
def Group.takes : Group → OpClass → Bool
  | .int => OpClass.isInt
  | .fp => OpClass.isFp

/-- Record `i` is in a station of one of the groups. -/
def State.inStation (s : State) (i : Nat) : Prop := ∃ g, some i ∈ s.stations g

/-- The records, the queue and the cursor, with dispatch stamps below `d`, issue stamps below `u`, start stamps below `e`
and broadcast stamps below `b`. -/
structure RecordInv (d u e b : Nat) (s : State) : Prop where
  queue : s.QueueInv
  queued : ∀ i ∈ s.ifq, (s.record i).tIssue = 0 ∧ (s.record i).tExec = 0 ∧ (s.record i).tCdb = 0
  behindHead : ∀ i ∈ s.ifq.tail, (s.record i).tDisp = 0
  unfetched : ∀ i ≤ s.size, s.fetchIndex < i → (s.record i).stamps = (0, 0, 0, 0)
  below : ∀ i ≤ s.size, (s.record i).tDisp < d ∧ (s.record i).tIssue < u ∧ (s.record i).tExec < e ∧ (s.record i).tCdb < b
  issueOrder : ∀ i ≤ s.size, (s.record i).tIssue ≠ 0 → 0 < (s.record i).tDisp ∧ (s.record i).tDisp < (s.record i).tIssue
  execOrder : ∀ i ≤ s.size, (s.record i).tExec ≠ 0 → 0 < (s.record i).tIssue ∧ (s.record i).tIssue < (s.record i).tExec
  cdbOrder : ∀ i ≤ s.size, (s.record i).tCdb ≠ 0 →
    0 < (s.record i).tExec ∧ (s.record i).tExec + s.latencyOf i ≤ (s.record i).tCdb
  classes : s.ClassInv
  inOrder : s.InOrderInv
  dep : s.DepInv
  broadcastOnce : s.BroadcastInv

/-- The slots and the bus, whose occupant broadcast in cycle `b - 1`. -/
structure SlotInv (b : Nat) (s : State) : Prop where
  nodup : s.stationed.Nodup
  station_class : ∀ g i, some i ∈ s.stations g → s.classHas g.takes i = true
  station : ∀ g i, some i ∈ s.stations g → 1 ≤ i ∧ i ≤ s.fetchIndex ∧ (∀ h ∈ s.ifq, i < h) ∧
    (s.record i).tIssue ≠ 0 ∧ (s.record i).tCdb = 0
  unit_nodup : ∀ g, (occupants (s.units g)).Nodup
  unit : ∀ g i, some i ∈ s.units g → some i ∈ s.stations g ∧ (s.record i).tExec ≠ 0
  started : ∀ g i, some i ∈ s.stations g → (s.record i).tExec ≠ 0 → some i ∈ s.units g
  bus : ∀ i, s.cdb = some i → 1 ≤ i ∧ i ≤ s.size ∧ (s.record i).tCdb + 1 = b ∧ ¬ s.inStation i
  trap : ∀ i ≤ s.fetchIndex, 1 ≤ i → s.classHas OpClass.isTrap i = true → (s.record i).stamps = (0, 0, 0, 0)
  branch : ∀ i ≤ s.fetchIndex, 1 ≤ i → s.classHas OpClass.isBranch i = true → i ∈ s.ifq ∨ (s.record i).tDisp ≠ 0
  progress : ∀ i ≤ s.fetchIndex, 1 ≤ i → s.classHas (fun c => c.isInt || c.isFp) i = true →
    i ∈ s.ifq ∨ s.inStation i ∨
      ((s.record i).tExec ≠ 0 ∧ (s.classHas OpClass.writesResult i = true → (s.record i).tCdb ≠ 0))

/-- The pipeline invariant with one bound for each kind of stamp. -/
structure CycleInv (d u e b : Nat) (s : State) : Prop where
  shape : s.ShapeInv
  records : RecordInv d u e b s
  slots : SlotInv b s
  map : s.MapInv

/-- The head of the queue has its dispatch stamp (R130). -/
def State.HeadStamped (s : State) : Prop := ∀ i ∈ s.ifq.head?, (s.record i).tDisp ≠ 0

/-! ### The same invariant as `State.PipelineInv` between two cycles -/

theorem mem_stationed {s : State} {i : Nat} : i ∈ s.stationed ↔ s.inStation i := by
  simp only [State.stationed, List.mem_append, mem_occupants, State.inStation]
  constructor
  · rintro (h | h)
    · exact ⟨.int, h⟩
    · exact ⟨.fp, h⟩
  · rintro ⟨_ | _, h⟩
    · exact .inl h
    · exact .inr h

theorem State.PipelineInv.headStamped {s : State} (h : s.PipelineInv) : s.HeadStamped := by
  obtain ⟨-, -, ⟨-, hhead, -⟩, -⟩ := h
  exact hhead

theorem State.PipelineInv.cycleInv {s : State} (h : s.PipelineInv) : CycleInv s.cycle s.cycle s.cycle s.cycle s := by
  obtain ⟨hshape, hqueue, ⟨hqueued, -, hbehind, hunfetched⟩, ⟨hnodup, hint, hfp, hstation⟩, ⟨huint, hufp⟩, hstamps,
    hclasses, hinOrder, hmap, hdep, hbus, hbroadcast, hprogress⟩ := h
  have hunits (g : Group) : s.UnitInvOf g := by cases g <;> assumption
  refine ⟨hshape, ⟨hqueue, hqueued, hbehind, hunfetched, ?_, ?_, ?_, ?_, hclasses, hinOrder, hdep, hbroadcast⟩,
    ⟨hnodup, ?_, ?_, fun g => (hunits g).1, ?_, ?_, ?_, ?_, ?_, ?_⟩, hmap⟩
  case refine_1 => exact fun i hi => have ⟨h1, h2, h3, h4, _⟩ := hstamps i hi; ⟨h1, h2, h3, h4⟩
  case refine_2 => exact fun i hi => have ⟨_, _, _, _, h5, _⟩ := hstamps i hi; h5
  case refine_3 => exact fun i hi => have ⟨_, _, _, _, _, h6, _⟩ := hstamps i hi; h6
  case refine_4 => exact fun i hi => have ⟨_, _, _, _, _, _, h7⟩ := hstamps i hi; h7
  case refine_5 =>
    rintro (_ | _) i hi
    · exact hint i (mem_occupants.mpr hi)
    · exact hfp i (mem_occupants.mpr hi)
  case refine_6 => exact fun g i hi => hstation i (mem_stationed.mpr ⟨g, hi⟩)
  case refine_7 =>
    intro g i hi
    obtain ⟨-, hunit, -⟩ := hunits g
    exact (hunit i (mem_occupants.mpr hi)).imp_left mem_occupants.mp
  case refine_8 =>
    intro g i hi hexec
    obtain ⟨-, -, hstarted⟩ := hunits g
    exact mem_occupants.mp (hstarted i (mem_occupants.mpr hi) hexec)
  case refine_9 =>
    intro i hi
    obtain ⟨h1, h2, h3, h4, -⟩ := hbus i hi
    exact ⟨h1, h2, h3, mem_stationed.not.mp h4⟩
  case refine_10 => exact fun i hi h1 => have ⟨ht, _⟩ := hprogress i hi h1; ht
  case refine_11 => exact fun i hi h1 => have ⟨_, hb, _⟩ := hprogress i hi h1; hb
  case refine_12 =>
    intro i hi h1 hclass
    obtain ⟨-, -, hp⟩ := hprogress i hi h1
    simpa only [mem_stationed] using hp hclass

theorem CycleInv.pipelineInv {s : State} (h : CycleInv s.cycle s.cycle s.cycle s.cycle s) (hhead : s.HeadStamped) :
    s.PipelineInv := by
  obtain ⟨hshape, hr, hs, hmap⟩ := h
  have hunits (g : Group) : s.UnitInvOf g := by
    simp only [State.UnitInvOf, mem_occupants]
    exact ⟨hs.unit_nodup g, hs.unit g, hs.started g⟩
  refine ⟨hshape, hr.queue, ⟨hr.queued, hhead, hr.behindHead, hr.unfetched⟩, ⟨hs.nodup, ?_, ?_, ?_⟩,
    ⟨hunits .int, hunits .fp⟩, fun i hi => ?_, hr.classes, hr.inOrder, hmap, hr.dep, ?_, hr.broadcastOnce,
    fun i hi h1 => ⟨hs.trap i hi h1, hs.branch i hi h1, ?_⟩⟩
  case refine_1 => exact fun i hi => hs.station_class .int i (mem_occupants.mp hi)
  case refine_2 => exact fun i hi => hs.station_class .fp i (mem_occupants.mp hi)
  case refine_3 =>
    intro i hi
    obtain ⟨g, hg⟩ := mem_stationed.mp hi
    exact hs.station g i hg
  case refine_4 =>
    obtain ⟨h1, h2, h3, h4⟩ := hr.below i hi
    exact ⟨h1, h2, h3, h4, hr.issueOrder i hi, hr.execOrder i hi, hr.cdbOrder i hi⟩
  case refine_5 =>
    intro i hi
    obtain ⟨h1, h2, h3, h4⟩ := hs.bus i hi
    have hunit (g : Group) : some i ∉ s.units g := fun hu => h4 ⟨g, (hs.unit g i hu).1⟩
    exact ⟨h1, h2, h3, mem_stationed.not.mpr h4, mem_occupants.not.mpr (hunit .int), mem_occupants.not.mpr (hunit .fp)⟩
  case refine_6 => simpa only [mem_stationed] using hs.progress i hi h1

/-- Settles O39: after reset nothing is queued, stationed, mapped or stamped. -/
theorem resetHasPipelineInvariant : Obligations.ResetHasPipelineInvariant := by
  intro p trace
  have hidle := idle_resetWith p trace
  have hrec := record_resetWith p trace
  generalize hs : State.resetWith p trace = s at hidle hrec
  have hifq := hidle.ifq
  have hstation (g : Group) (i : Nat) : some i ∉ s.stations g := by
    rw [← mem_occupants, hidle.stations g]
    exact List.not_mem_nil
  have hunit (g : Group) (i : Nat) : some i ∉ s.units g := by
    rw [← mem_occupants, hidle.units g]
    exact List.not_mem_nil
  have hmap (r : Nat) : s.producer r = none := hs ▸ producer_resetWith p trace r
  have hcursor : s.fetchIndex = 0 := hs ▸ rfl
  have hcycle : s.cycle = 1 := hs ▸ rfl
  have hshape : s.ShapeInv := hs ▸ ⟨resetWith_wf p trace, rfl, Nat.le_refl 1⟩
  refine CycleInv.pipelineInv ⟨hshape, ?records, ?slots, fun r _ => by simp [hmap r]⟩ (by simp [State.HeadStamped, hifq])
  case records =>
    constructor <;>
      simp [State.QueueInv, State.ClassInv, State.InOrderInv, State.DepInv, State.DepInvOf, State.BroadcastInv,
        RecordState.stamps, RecordState.zero, hifq, hrec, hcursor, hcycle]
  case slots =>
    have hunconsumed {Q : Nat → Prop} : ∀ i ≤ s.fetchIndex, 1 ≤ i → Q i := fun i hi h1 => by omega
    refine ⟨?_, fun g i hi => absurd hi (hstation g i), fun g i hi => absurd hi (hstation g i),
      fun g => by rw [hidle.units g]; exact List.nodup_nil, fun g i hi => absurd hi (hunit g i),
      fun g i hi => absurd hi (hstation g i), by simp [hidle.cdb], hunconsumed, hunconsumed, hunconsumed⟩
    have hnone : ∀ i, i ∉ s.stationed := fun i hi => have ⟨g, hg⟩ := mem_stationed.mp hi; hstation g i hg
    rw [List.eq_nil_iff_forall_not_mem.mpr hnone]
    exact List.nodup_nil

end Sys2Proof.Machine
end

section

/-! # Proofs: the stages keep what the invariant says of the records (spec/47_invariants.md section 2) -/

namespace Sys2Proof.Machine

theorem SameInputs.namesDest {s t : State} (h : SameInputs s t) (p r : Nat) : t.namesDest p r = s.namesDest p r := by
  simp only [State.namesDest, h.instrAt]

theorem SameInputs.sourceIs {s t : State} (h : SameInputs s t) (i : Nat) (f : Operands → RegId) (r : Nat) :
    t.sourceIs i f r = s.sourceIs i f r := by
  simp only [State.sourceIs, h.instrAt]

theorem SameInputs.latencyOf {s t : State} (h : SameInputs s t) (i : Nat) : t.latencyOf i = s.latencyOf i := by
  simp only [State.latencyOf, h.classHas]

theorem SameInputs.nRegs {s t : State} (h : SameInputs s t) : t.nRegs = s.nRegs := by
  obtain ⟨-, -, hmap, -⟩ := h
  exact hmap

/-- A record of which a class predicate holds has one class, which decides every class predicate. -/
theorem exists_class {s : State} {P : OpClass → Bool} {i : Nat} (h : s.classHas P i = true) :
    ∃ c, P c = true ∧ ∀ Q, s.classHas Q i = Q c := by
  obtain ⟨instr, hr, hP⟩ := classHas_eq_true.mp h
  exact ⟨instr.cls, hP, classHas_of_traceRead hr⟩

/-! ### The dependency law -/

/-- The law of one source field is kept where no issue stamp is lost and the ordering with the producers is. -/
theorem depInvOf_mono {s t : State} {i : Nat} {f : Operands → RegId} {dep : Ref} (h : s.DepInvOf i f dep)
    (hin : SameInputs s t) (hissue : ∀ p, (s.record p).tIssue ≠ 0 → (t.record p).tIssue ≠ 0)
    (horder : ∀ p, dep = some p →
      ((s.record i).tExec ≠ 0 → (s.record p).tCdb ≠ 0 ∧ (s.record p).tCdb < (s.record i).tExec) →
        (t.record i).tExec ≠ 0 → (t.record p).tCdb ≠ 0 ∧ (t.record p).tCdb < (t.record i).tExec) :
    t.DepInvOf i f dep := by
  intro p hp
  obtain ⟨h1, hlt, hpi, hclass, hreg, hlaw⟩ := h p hp
  simp only [hin.classHas, hin.sourceIs, hin.namesDest, hin.nRegs]
  exact ⟨h1, hlt, hissue p hpi, hclass, hreg, horder p hp hlaw⟩

theorem depInv_mono {s t : State} (h : s.DepInv) (hin : SameInputs s t)
    (hdeps : ∀ i, (t.record i).dep0 = (s.record i).dep0 ∧ (t.record i).dep1 = (s.record i).dep1 ∧
      (t.record i).dep2 = (s.record i).dep2)
    (hissue : ∀ i, (s.record i).tIssue ≠ 0 → (t.record i).tIssue ≠ 0)
    (horder : ∀ i ≤ s.size, ∀ p ∈ (s.record i).deps,
      ((s.record i).tExec ≠ 0 → (s.record p).tCdb ≠ 0 ∧ (s.record p).tCdb < (s.record i).tExec) →
        (t.record i).tExec ≠ 0 → (t.record p).tCdb ≠ 0 ∧ (t.record p).tCdb < (t.record i).tExec) :
    t.DepInv := by
  intro i hi
  rw [hin.size] at hi
  obtain ⟨h0, h1, h2⟩ := h i hi
  obtain ⟨e0, e1, e2⟩ := hdeps i
  rw [e0, e1, e2]
  exact ⟨depInvOf_mono h0 hin hissue fun p hp => horder i hi p (mem_deps.mpr (.inl hp)),
    depInvOf_mono h1 hin hissue fun p hp => horder i hi p (mem_deps.mpr (.inr (.inl hp))),
    depInvOf_mono h2 hin hissue fun p hp => horder i hi p (mem_deps.mpr (.inr (.inr hp)))⟩

/-- What the dependency law says of a producer, whichever source field captured it. -/
theorem State.DepInv.of_mem {s : State} (h : s.DepInv) {i p : Nat} (hi : i ≤ s.size) (hp : p ∈ (s.record i).deps) :
    1 ≤ p ∧ p < i ∧ (s.record p).tIssue ≠ 0 ∧ (∃ r < s.nRegs, s.namesDest p r = true) ∧
      ((s.record i).tExec ≠ 0 → (s.record p).tCdb ≠ 0 ∧ (s.record p).tCdb < (s.record i).tExec) := by
  have one {f : Operands → RegId} {dep : Ref} (h : s.DepInvOf i f dep) (hdep : dep = some p) :
      1 ≤ p ∧ p < i ∧ (s.record p).tIssue ≠ 0 ∧ (∃ r < s.nRegs, s.namesDest p r = true) ∧
        ((s.record i).tExec ≠ 0 → (s.record p).tCdb ≠ 0 ∧ (s.record p).tCdb < (s.record i).tExec) := by
    obtain ⟨h1, hlt, hpi, -, ⟨r, hr, -, hdst⟩, hlaw⟩ := h p hdep
    exact ⟨h1, hlt, hpi, ⟨r, hr, hdst⟩, hlaw⟩
  obtain ⟨h0, h1, h2⟩ := h i hi
  obtain hp | hp | hp := mem_deps.mp hp
  · exact one h0 hp
  · exact one h1 hp
  · exact one h2 hp

/-- A captured producer is the producer of the register that the source field names (R145). -/
theorem sourceProducer_eq_some {s : State} {r : RegId} {p : Nat} (h : s.sourceProducer r = some p) :
    ∃ n < s.nRegs, r = .reg n ∧ s.producer n = some p := by
  cases r with
  | noreg => cases h
  | reg n =>
    refine ⟨n, ?_, rfl, h⟩
    have h' : (s.mapTable[n]?).getD none = some p := h
    by_contra hge
    rw [List.getElem?_eq_none (Nat.le_of_not_lt hge)] at h'
    cases h'

/-! ### Where no record is written -/

theorem RecordInv.mono {d u e b d' u' e' b' : Nat} {s : State} (h : RecordInv d u e b s) (hd : d ≤ d') (hu : u ≤ u')
    (he : e ≤ e') (hb : b ≤ b') : RecordInv d' u' e' b' s :=
  { h with
    below := fun i hi => by
      obtain ⟨h1, h2, h3, h4⟩ := h.below i hi
      exact ⟨h1.trans_le hd, h2.trans_le hu, h3.trans_le he, h4.trans_le hb⟩ }

theorem RecordInv.congr {d u e b : Nat} {s t : State} (h : RecordInv d u e b s) (hin : SameInputs s t)
    (hq : SameQueue s t) (hrec : ∀ i, t.record i = s.record i) : RecordInv d u e b t := by
  obtain ⟨hifq, hcursor⟩ := id hq
  obtain ⟨h1, h2, h3, h4, h5, h6, h7, h8, h9, h10, h11, h12⟩ := h
  refine ⟨queueInv_of_sameQueue h1 hin hq, ?_, ?_, ?_, ?_, ?_, ?_, ?_, ?_, ?_, ?_, ?_⟩ <;>
    simpa only [State.ClassInv, State.InOrderInv, State.DepInv, State.DepInvOf, State.BroadcastInv, hifq, hcursor, hrec,
      hin.size, hin.classHas, hin.latencyOf, hin.sourceIs, hin.namesDest, hin.nRegs]

/-- The head leaves the queue (R141, R148). -/
theorem RecordInv.popHead {d u e b : Nat} {s : State} (h : RecordInv d u e b s) :
    RecordInv d u e b { s with ifq := s.ifq.tail } := by
  have hsub {i : Nat} (hi : i ∈ s.ifq.tail) : i ∈ s.ifq := List.mem_of_mem_tail hi
  obtain ⟨hdisp, hissue, hqissue, hqdisp⟩ := h.inOrder
  exact
    { queue := queueInv_of_onlyHeadLeaves h.queue (SameInputs.refl s) ⟨.inr rfl, rfl⟩
      queued := fun i hi => h.queued i (hsub hi)
      behindHead := fun i hi => h.behindHead i (List.mem_of_mem_tail hi)
      unfetched := h.unfetched
      below := h.below
      issueOrder := h.issueOrder
      execOrder := h.execOrder
      cdbOrder := h.cdbOrder
      classes := h.classes
      inOrder := ⟨hdisp, hissue, fun i hi hne q hq => hqissue i hi hne q (hsub hq),
        fun i hi hne q hq => hqdisp i hi hne q (hsub hq)⟩
      dep := h.dep
      broadcastOnce := h.broadcastOnce }

/-! ### Where one record is stamped -/

/-- The bus winner gets its broadcast stamp (R185). -/
theorem RecordInv.broadcast {c : Nat} {s t : State} {w : Nat} (h : RecordInv c c c c s) (hin : SameInputs s t)
    (hq : SameQueue s t) (hrec : ∀ i, t.record i = if i = w then { s.record i with tCdb := c } else s.record i)
    (hw : w ≤ s.fetchIndex) (hifq : w ∉ s.ifq) (hcdb : (s.record w).tCdb = 0) (hexec : (s.record w).tExec ≠ 0)
    (hlat : (s.record w).tExec + s.latencyOf w ≤ c) (hclass : s.classHas OpClass.writesResult w = true) :
    RecordInv c c c (c + 1) t := by
  obtain ⟨eifq, ecursor⟩ := id hq
  have disp i : (t.record i).tDisp = (s.record i).tDisp := by rw [hrec]; split <;> rfl
  have issue i : (t.record i).tIssue = (s.record i).tIssue := by rw [hrec]; split <;> rfl
  have exec i : (t.record i).tExec = (s.record i).tExec := by rw [hrec]; split <;> rfl
  have cdb i : (t.record i).tCdb = if i = w then c else (s.record i).tCdb := by rw [hrec]; split <;> rfl
  have deps i : (t.record i).dep0 = (s.record i).dep0 ∧ (t.record i).dep1 = (s.record i).dep1 ∧
      (t.record i).dep2 = (s.record i).dep2 := by rw [hrec]; split <;> exact ⟨rfl, rfl, rfl⟩
  have hdep : t.DepInv := by
    refine depInv_mono h.dep hin deps (fun i => by rw [issue]; exact id) fun i hi p hp hlaw hne => ?_
    rw [exec] at hne ⊢
    obtain ⟨hne, hlt⟩ := hlaw hne
    rw [cdb, if_neg (by rintro rfl; exact hne hcdb)]
    exact ⟨hne, hlt⟩
  refine { queue := queueInv_of_sameQueue h.queue hin hq, queued := ?queued, behindHead := ?behindHead,
           unfetched := ?unfetched, below := ?below, issueOrder := ?issueOrder, execOrder := ?execOrder,
           cdbOrder := ?cdbOrder, classes := ?classes, inOrder := ?inOrder, dep := hdep,
           broadcastOnce := ?broadcastOnce } <;>
    simp only [State.ClassInv, State.InOrderInv, State.BroadcastInv, RecordState.stamps, eifq, ecursor, disp, issue,
      exec, cdb, hin.size, hin.classHas, hin.latencyOf]
  case behindHead => exact h.behindHead
  case issueOrder => exact h.issueOrder
  case execOrder => exact h.execOrder
  case inOrder => exact h.inOrder
  case queued =>
    intro i hi
    rw [if_neg (by rintro rfl; exact hifq hi)]
    exact h.queued i hi
  case unfetched =>
    intro i hi hlt
    rw [if_neg (by omega)]
    exact h.unfetched i hi hlt
  case below =>
    intro i hi
    have := h.below i hi
    split <;> omega
  case cdbOrder =>
    intro i hi
    split
    case isTrue e =>
      subst e
      exact fun _ => ⟨Nat.pos_of_ne_zero hexec, hlat⟩
    case isFalse => exact h.cdbOrder i hi
  case classes =>
    intro i hi
    obtain ⟨hd, hu, hb⟩ := h.classes i hi
    refine ⟨hd, hu, ?_⟩
    split
    case isTrue e =>
      subst e
      exact fun _ => hclass
    case isFalse => exact hb
  case broadcastOnce =>
    intro i hi j hj hne heq
    have hbi := h.below i hi
    have hbj := h.below j hj
    split at heq <;> split at heq
    · omega
    · omega
    · omega
    · rw [if_neg ‹i ≠ w›] at hne
      exact h.broadcastOnce i hi j hj hne heq

/-- An instruction that enters a unit gets its start stamp (R164). -/
theorem RecordInv.start {c : Nat} {s t : State} {w : Nat} (h : RecordInv c c (c + 1) (c + 1) s) (hin : SameInputs s t)
    (hq : SameQueue s t) (hrec : ∀ i, t.record i = if i = w then { s.record i with tExec := c } else s.record i)
    (hw : w ≤ s.fetchIndex) (hifq : w ∉ s.ifq) (hissue : (s.record w).tIssue ≠ 0) (hcdb : (s.record w).tCdb = 0)
    (hready : ∀ p ∈ (s.record w).deps, (s.record p).tCdb ≠ 0 ∧ (s.record p).tCdb ≠ c) :
    RecordInv c c (c + 1) (c + 1) t := by
  obtain ⟨eifq, ecursor⟩ := id hq
  have hsize : s.fetchIndex ≤ s.size := h.queue.1
  have disp i : (t.record i).tDisp = (s.record i).tDisp := by rw [hrec]; split <;> rfl
  have issue i : (t.record i).tIssue = (s.record i).tIssue := by rw [hrec]; split <;> rfl
  have exec i : (t.record i).tExec = if i = w then c else (s.record i).tExec := by rw [hrec]; split <;> rfl
  have cdb i : (t.record i).tCdb = (s.record i).tCdb := by rw [hrec]; split <;> rfl
  have deps i : (t.record i).dep0 = (s.record i).dep0 ∧ (t.record i).dep1 = (s.record i).dep1 ∧
      (t.record i).dep2 = (s.record i).dep2 := by rw [hrec]; split <;> exact ⟨rfl, rfl, rfl⟩
  have hdep : t.DepInv := by
    refine depInv_mono h.dep hin deps (fun i => by rw [issue]; exact id) fun i hi p hp hlaw hne => ?_
    rw [exec] at hne ⊢
    rw [cdb]
    split at hne
    case isTrue e =>
      subst e
      obtain ⟨-, hlt, -⟩ := h.dep.of_mem hi hp
      have := h.below p (by omega)
      have := hready p hp
      rw [if_pos rfl]
      omega
    case isFalse e =>
      rw [if_neg e]
      exact hlaw hne
  refine { queue := queueInv_of_sameQueue h.queue hin hq, queued := ?queued, behindHead := ?behindHead,
           unfetched := ?unfetched, below := ?below, issueOrder := ?issueOrder, execOrder := ?execOrder,
           cdbOrder := ?cdbOrder, classes := ?classes, inOrder := ?inOrder, dep := hdep,
           broadcastOnce := ?broadcastOnce } <;>
    simp only [State.ClassInv, State.InOrderInv, State.BroadcastInv, RecordState.stamps, eifq, ecursor, disp, issue,
      exec, cdb, hin.size, hin.classHas, hin.latencyOf]
  case behindHead => exact h.behindHead
  case issueOrder => exact h.issueOrder
  case classes => exact h.classes
  case inOrder => exact h.inOrder
  case broadcastOnce => exact h.broadcastOnce
  case queued =>
    intro i hi
    rw [if_neg (by rintro rfl; exact hifq hi)]
    exact h.queued i hi
  case unfetched =>
    intro i hi hlt
    rw [if_neg (by omega)]
    exact h.unfetched i hi hlt
  case below =>
    intro i hi
    have := h.below i hi
    split <;> omega
  case execOrder =>
    intro i hi
    split
    case isTrue e =>
      subst e
      have := h.below i hi
      omega
    case isFalse => exact h.execOrder i hi
  case cdbOrder =>
    intro i hi hne
    rw [if_neg (by rintro rfl; exact hne hcdb)]
    exact h.cdbOrder i hi hne

/-- What placing the head in a station writes to its record: its issue stamp and the producers of its sources
(R145, R151). -/
def RecordState.placed (r : RecordState) (c : Nat) (d0 d1 d2 : Ref) : RecordState :=
  { r with tIssue := c, dep0 := d0, dep1 := d1, dep2 := d2 }

/-- The record that has left the queue for a station is captured and gets its issue stamp. -/
theorem RecordInv.place {c : Nat} {s t : State} {w : Nat} {instr : Instr} (h : RecordInv c c (c + 1) (c + 1) s)
    (hmap : s.MapInv) (hin : SameInputs s t) (hq : SameQueue s t)
    (hrec : ∀ i, t.record i = if i = w then (s.record i).placed c (s.sourceProducer instr.operands.src0)
      (s.sourceProducer instr.operands.src1) (s.sourceProducer instr.operands.src2) else s.record i)
    (hinstr : s.instrAt w = some instr) (hclass : s.classHas (fun c => c.isInt || c.isFp) w = true)
    (hw : w ≤ s.fetchIndex) (hifq : ∀ q ∈ s.ifq, w < q) (hissued : ∀ i ≤ s.size, (s.record i).tIssue ≠ 0 → i < w)
    (hdisp : (s.record w).tDisp ≠ 0) (hexec : (s.record w).tExec = 0) (hcdb : (s.record w).tCdb = 0) (hc : c ≠ 0) :
    RecordInv c (c + 1) (c + 1) (c + 1) t := by
  obtain ⟨eifq, ecursor⟩ := id hq
  have hsize : s.fetchIndex ≤ s.size := h.queue.1
  have disp i : (t.record i).tDisp = (s.record i).tDisp := by rw [hrec]; split <;> rfl
  have issue i : (t.record i).tIssue = if i = w then c else (s.record i).tIssue := by rw [hrec]; split <;> rfl
  have exec i : (t.record i).tExec = (s.record i).tExec := by rw [hrec]; split <;> rfl
  have cdb i : (t.record i).tCdb = (s.record i).tCdb := by rw [hrec]; split <;> rfl
  have hkeep : ∀ i, (s.record i).tIssue ≠ 0 → (t.record i).tIssue ≠ 0 := by
    intro i hi
    rw [issue]
    split
    · exact hc
    · exact hi
  have hcaptured (f : Operands → RegId) : t.DepInvOf w f (s.sourceProducer (f instr.operands)) := by
    intro p hp
    obtain ⟨r, hr, hf, hproducer⟩ := sourceProducer_eq_some hp
    obtain ⟨h1, hle, hdst, hpissue, -⟩ := hmap r hr p hproducer
    obtain ⟨-, hpclass, -⟩ := h.classes p (hle.trans hsize)
    obtain ⟨cl, hcl, hall⟩ := exists_class (hpclass hpissue)
    simp only [hin.classHas, hin.sourceIs, hin.namesDest, hin.nRegs]
    refine ⟨h1, hissued p (hle.trans hsize) hpissue, hkeep p hpissue, ?_, ⟨r, hr, ?_, hdst⟩, fun hne => ?_⟩
    · rw [hall]
      cases cl <;> first | rfl | cases hcl
    · simp only [State.sourceIs, hinstr, hf, decide_true]
    · rw [exec] at hne
      exact absurd hexec hne
  have hdep : t.DepInv := by
    intro i hi
    rw [hin.size] at hi
    by_cases e : i = w
    · subst e
      rw [hrec, if_pos rfl]
      exact ⟨hcaptured _, hcaptured _, hcaptured _⟩
    · obtain ⟨h0, h1, h2⟩ := h.dep i hi
      have hother : t.record i = s.record i := by rw [hrec, if_neg e]
      have horder (p : Nat)
          (hlaw : (s.record i).tExec ≠ 0 → (s.record p).tCdb ≠ 0 ∧ (s.record p).tCdb < (s.record i).tExec) :
          (t.record i).tExec ≠ 0 → (t.record p).tCdb ≠ 0 ∧ (t.record p).tCdb < (t.record i).tExec := by
        rw [exec, cdb]
        exact hlaw
      rw [hother]
      exact ⟨depInvOf_mono h0 hin hkeep fun p _ => horder p, depInvOf_mono h1 hin hkeep fun p _ => horder p,
        depInvOf_mono h2 hin hkeep fun p _ => horder p⟩
  refine { queue := queueInv_of_sameQueue h.queue hin hq, queued := ?queued, behindHead := ?behindHead,
           unfetched := ?unfetched, below := ?below, issueOrder := ?issueOrder, execOrder := ?execOrder,
           cdbOrder := ?cdbOrder, classes := ?classes, inOrder := ?inOrder, dep := hdep,
           broadcastOnce := ?broadcastOnce } <;>
    simp only [State.ClassInv, State.InOrderInv, State.BroadcastInv, RecordState.stamps, eifq, ecursor, disp, issue,
      exec, cdb, hin.size, hin.classHas, hin.latencyOf]
  case behindHead => exact h.behindHead
  case cdbOrder => exact h.cdbOrder
  case broadcastOnce => exact h.broadcastOnce
  case queued =>
    intro i hi
    rw [if_neg (hifq i hi).ne']
    exact h.queued i hi
  case unfetched =>
    intro i hi hlt
    rw [if_neg (by omega)]
    exact h.unfetched i hi hlt
  case below =>
    intro i hi
    have := h.below i hi
    split <;> omega
  case issueOrder =>
    intro i hi
    split
    case isTrue e =>
      subst e
      have := h.below i hi
      omega
    case isFalse => exact h.issueOrder i hi
  case execOrder =>
    intro i hi hne
    rw [if_neg (by rintro rfl; exact hne hexec)]
    exact h.execOrder i hi hne
  case classes =>
    intro i hi
    obtain ⟨hd, hu, hb⟩ := h.classes i hi
    refine ⟨hd, ?_, hb⟩
    split
    case isTrue e =>
      subst e
      exact fun _ => hclass
    case isFalse => exact hu
  case inOrder =>
    obtain ⟨horderDisp, horderIssue, hqissue, hqdisp⟩ := h.inOrder
    refine ⟨horderDisp, fun i hi j hj hlt hni hnj => ?_, fun i hi hne q hq => ?_, hqdisp⟩
    · have hbi := h.below i hi
      split at hni <;> split at hnj
      · omega
      · have := hissued j hj hnj
        omega
      · rw [if_neg ‹i ≠ w›, if_pos ‹j = w›]
        omega
      · rw [if_neg ‹i ≠ w›, if_neg ‹j ≠ w›]
        exact horderIssue i hi j hj hlt hni hnj
    · split at hne
      case isTrue e => exact e ▸ hifq q hq
      case isFalse => exact hqissue i hi hne q hq

/-! ### The fetch stage -/

/-- Traps are skipped and the record behind them is pushed (R127). -/
theorem RecordInv.fetched {d u e b k : Nat} {s : State} (h : RecordInv d u e b s)
    (hclass : s.classHas (fun c => !c.isTrap) (s.fetchIndex + k + 1) = true)
    (hlen : s.ifq.length ≤ Config.ifqBound) : RecordInv d u e b (s.fetched k) := by
  obtain ⟨hle, hascend, hmem, -⟩ := h.queue
  have hnew : s.fetchIndex + k + 1 ≤ s.size := (le_size_of_classHas hclass).2
  have hzero : (s.record (s.fetchIndex + k + 1)).stamps = (0, 0, 0, 0) := h.unfetched _ hnew (by omega)
  simp only [RecordState.stamps, Prod.mk.injEq] at hzero
  have hstamped {i : Nat} (hi : i ≤ s.size) (hne : (s.record i).stamps ≠ (0, 0, 0, 0)) : i ≤ s.fetchIndex := by
    by_contra hlt
    exact hne (h.unfetched i hi (by omega))
  have hpush {Q : Nat → Prop} (hold : ∀ i ∈ s.ifq, Q i) (hlast : Q (s.fetchIndex + k + 1)) :
      ∀ i ∈ s.ifq ++ [s.fetchIndex + k + 1], Q i := by
    intro i hi
    obtain hi | hi := List.mem_append.mp hi
    · exact hold i hi
    · exact List.mem_singleton.mp hi ▸ hlast
  obtain ⟨horderDisp, horderIssue, hqissue, hqdisp⟩ := h.inOrder
  exact
    { queue := by
        refine ⟨hnew, List.pairwise_append.mpr ⟨hascend, List.pairwise_singleton .., ?_⟩,
          hpush (fun i hi => ?_) ⟨Nat.succ_pos _, Nat.le_refl _, hclass⟩, ?_⟩
        · intro i hi j hj
          obtain rfl := List.mem_singleton.mp hj
          have := (hmem i hi).2.1
          omega
        · obtain ⟨h1, h2, h3⟩ := hmem i hi
          refine ⟨h1, ?_, h3⟩
          show i ≤ s.fetchIndex + k + 1
          omega
        · simpa [State.fetched] using hlen
      queued := hpush h.queued ⟨hzero.2.1, hzero.2.2.1, hzero.2.2.2⟩
      behindHead := by
        intro i hi
        have hi : i ∈ (s.ifq ++ [s.fetchIndex + k + 1]).tail := hi
        cases hq : s.ifq with
        | nil => simp [hq] at hi
        | cons q l =>
          rw [hq, List.cons_append, List.tail_cons, List.mem_append, List.mem_singleton] at hi
          obtain hi | rfl := hi
          · exact h.behindHead i (by rwa [hq])
          · exact hzero.1
      unfetched := fun i hi hlt => h.unfetched i hi (by
        have : s.fetchIndex + k + 1 < i := hlt
        omega)
      below := h.below
      issueOrder := h.issueOrder
      execOrder := h.execOrder
      cdbOrder := h.cdbOrder
      classes := h.classes
      inOrder := by
        refine ⟨horderDisp, horderIssue, fun i hi hne => hpush (hqissue i hi hne) ?_,
          fun i hi hne => hpush (hqdisp i hi hne) ?_⟩
        · have := hstamped hi (by simp [RecordState.stamps, show (s.record i).tIssue ≠ 0 from hne])
          omega
        · have := hstamped hi (by simp [RecordState.stamps, show (s.record i).tDisp ≠ 0 from hne])
          omega
      dep := h.dep
      broadcastOnce := h.broadcastOnce }

/-- The head of the queue gets its dispatch stamp (R130). -/
theorem RecordInv.stampHead {c u e b : Nat} {s : State} (h : RecordInv c u e b s) (hc : s.cycle = c)
    (hwf : s.mem.wf) : RecordInv (c + 1) u e b (stampHead s) := by
  have hin := stampHead_sameInputs s
  have hq := stampHead_sameQueue s
  cases hhead : s.ifq with
  | nil =>
    have : Machine.stampHead s = s := by simp [Machine.stampHead, peek, hhead]
    rw [this]
    exact h.mono (Nat.le_succ c) (Nat.le_refl _) (Nat.le_refl _) (Nat.le_refl _)
  | cons w rest =>
    obtain ⟨hle, hascend, hmem, -⟩ := h.queue
    obtain ⟨hw1, hwle, hwclass⟩ := hmem w (by simp [hhead])
    have hqueued := h.queued w (by simp [hhead])
    have hholds : s.mem.holds w := (holds_iff_of_wf hwf w).mpr ⟨hw1, hwle.trans hle⟩
    have hrest : ∀ q ∈ rest, w < q := by
      rw [hhead] at hascend
      exact (List.pairwise_cons.mp hascend).1
    have hrec (i : Nat) : (Machine.stampHead s).record i =
        if i = w ∧ (s.record i).tDisp = 0 then { s.record i with tDisp := c } else s.record i := by
      rw [stampHead_record, hhead, hc]
      by_cases e : i = w
      · subst e
        simp only [List.head?_cons, eq_true hholds, true_and]
      · simp [e, Ne.symm e]
    generalize Machine.stampHead s = t at hin hq hrec
    obtain ⟨eifq, ecursor⟩ := id hq
    have disp i : (t.record i).tDisp = if i = w ∧ (s.record i).tDisp = 0 then c else (s.record i).tDisp := by
      rw [hrec]
      split <;> rfl
    have issue i : (t.record i).tIssue = (s.record i).tIssue := by rw [hrec]; split <;> rfl
    have exec i : (t.record i).tExec = (s.record i).tExec := by rw [hrec]; split <;> rfl
    have cdb i : (t.record i).tCdb = (s.record i).tCdb := by rw [hrec]; split <;> rfl
    have deps i : (t.record i).dep0 = (s.record i).dep0 ∧ (t.record i).dep1 = (s.record i).dep1 ∧
        (t.record i).dep2 = (s.record i).dep2 := by rw [hrec]; split <;> exact ⟨rfl, rfl, rfl⟩
    have hdep : t.DepInv := depInv_mono h.dep hin deps (fun i => by rw [issue]; exact id)
      fun i hi p hp hlaw => by rw [exec, cdb]; exact hlaw
    refine { queue := queueInv_of_sameQueue h.queue hin hq, queued := ?queued, behindHead := ?behindHead,
             unfetched := ?unfetched, below := ?below, issueOrder := ?issueOrder, execOrder := ?execOrder,
             cdbOrder := ?cdbOrder, classes := ?classes, inOrder := ?inOrder, dep := hdep,
             broadcastOnce := ?broadcastOnce } <;>
      simp only [State.ClassInv, State.InOrderInv, State.BroadcastInv, RecordState.stamps, eifq, ecursor, disp, issue,
        exec, cdb, hin.size, hin.classHas, hin.latencyOf]
    case queued => exact h.queued
    case execOrder => exact h.execOrder
    case cdbOrder => exact h.cdbOrder
    case broadcastOnce => exact h.broadcastOnce
    case behindHead =>
      intro i hi
      have hne : i ≠ w := (hrest i (by simpa [hhead] using hi)).ne'
      rw [if_neg fun e => hne e.1]
      exact h.behindHead i hi
    case unfetched =>
      intro i hi hlt
      rw [if_neg (by omega)]
      exact h.unfetched i hi hlt
    case below =>
      intro i hi
      have := h.below i hi
      split <;> omega
    case issueOrder =>
      intro i hi hne
      rw [if_neg (by rintro ⟨rfl, -⟩; exact hne hqueued.1)]
      exact h.issueOrder i hi hne
    case classes =>
      intro i hi
      obtain ⟨hd, hu, hb⟩ := h.classes i hi
      refine ⟨?_, hu, hb⟩
      split
      case isTrue e => exact fun _ => e.1 ▸ hwclass
      case isFalse => exact hd
    case inOrder =>
      obtain ⟨horderDisp, horderIssue, hqissue, hqdisp⟩ := h.inOrder
      refine ⟨fun i hi j hj hlt hni hnj => ?_, horderIssue, hqissue, fun i hi hne q hq => ?_⟩
      · have hbi := h.below i hi
        split at hni <;> split at hnj
        · omega
        · have := hqdisp j hj hnj w (by simp [hhead])
          omega
        · rw [if_neg ‹¬(i = w ∧ _)›, if_pos ‹j = w ∧ _›]
          omega
        · rw [if_neg ‹¬(i = w ∧ _)›, if_neg ‹¬(j = w ∧ _)›]
          exact horderDisp i hi j hj hlt hni hnj
      · split at hne
        case isTrue e =>
          rw [e.1]
          rw [hhead] at hq
          obtain rfl | hq := List.mem_cons.mp hq
          · exact Nat.le_refl _
          · exact (hrest q hq).le
        case isFalse => exact hqdisp i hi hne q hq

end Sys2Proof.Machine
end

section

/-! # Proofs: the stages keep what the invariant says of the slots (spec/47_invariants.md section 1) -/

namespace Sys2Proof.Machine

/-! ### Slot lists -/

/-- Filling a free slot adds its new occupant and no other. -/
theorem some_mem_set_of_free {l : List Ref} {j x i : Nat} (h : l[j]? = some none) :
    some i ∈ l.set j (some x) ↔ i = x ∨ some i ∈ l := by
  simp only [List.mem_iff_getElem?, List.getElem?_set]
  have hlt : j < l.length := (List.getElem?_eq_some_iff.mp h).1
  constructor
  · rintro ⟨k, hk⟩
    split at hk
    · obtain rfl : x = i := by simpa [hlt] using hk
      exact .inl rfl
    · exact .inr ⟨k, hk⟩
  · rintro (rfl | ⟨k, hk⟩)
    · exact ⟨j, by simp [hlt]⟩
    · have hne : j ≠ k := by
        rintro rfl
        rw [h] at hk
        cases hk
      exact ⟨k, by simp [hne, hk]⟩

theorem occupants_set_perm {l : List Ref} {j x : Nat} (h : l[j]? = some none) :
    (occupants (l.set j (some x))).Perm (x :: occupants l) := by
  induction l generalizing j with
  | nil => cases h
  | cons r l ih =>
    cases j with
    | zero =>
      cases h
      exact .refl _
    | succ j =>
      have ih := ih (j := j) h
      cases r with
      | none => exact ih
      | some y => exact (ih.cons y).trans (.swap x y _)

theorem occupants_clearRef_sublist (i : Nat) (l : List Ref) : (occupants (clearRef i l)).Sublist (occupants l) := by
  rw [occupants_clearRef]
  exact List.filter_sublist

/-- The occupants of both groups, for any way of naming the groups. -/
theorem stationed_sublist {s t : State} (h : ∀ g, (occupants (t.stations g)).Sublist (occupants (s.stations g))) :
    t.stationed.Sublist s.stationed :=
  (h .int).append (h .fp)

/-! ### Groups -/

/-- Two class predicates that no class meets together do not meet in a record. -/
theorem classHas_exclusive {s : State} {P Q : OpClass → Bool} {i : Nat} (hPQ : ∀ c, P c = true → Q c = false)
    (h : s.classHas P i = true) : s.classHas Q i = false := by
  obtain ⟨c, hc, hall⟩ := exists_class h
  rw [hall, hPQ c hc]

theorem Group.takes_unique {g k : Group} {c : OpClass} (hg : g.takes c = true) (hk : k.takes c = true) : g = k := by
  cases g <;> cases k <;> cases c <;> simp_all [Group.takes, OpClass.isInt, OpClass.isFp]

theorem Group.takes_not_trap (g : Group) (c : OpClass) (h : g.takes c = true) : c.isTrap = false := by
  cases g <;> cases c <;> simp_all [Group.takes, OpClass.isInt, OpClass.isFp, OpClass.isTrap]

theorem Group.takes_not_branch (g : Group) (c : OpClass) (h : g.takes c = true) : c.isBranch = false := by
  cases g <;> cases c <;> simp_all [Group.takes, OpClass.isInt, OpClass.isFp, OpClass.isBranch]

theorem Group.takes_isFp (g : Group) (c : OpClass) (h : g.takes c = true) : c.isFp = true ↔ g = .fp := by
  cases g <;> cases c <;> simp_all [Group.takes, OpClass.isInt, OpClass.isFp]

theorem OpClass.isBranch_not_station (c : OpClass) (h : c.isBranch = true) : (c.isInt || c.isFp) = false := by
  cases c <;> simp_all [OpClass.isInt, OpClass.isFp, OpClass.isBranch]

theorem OpClass.isTrap_not_branch (c : OpClass) (h : c.isTrap = true) : c.isBranch = false := by
  cases c <;> simp_all [OpClass.isTrap, OpClass.isBranch]

theorem OpClass.isTrap_not_station (c : OpClass) (h : c.isTrap = true) : (c.isInt || c.isFp) = false := by
  cases c <;> simp_all [OpClass.isInt, OpClass.isFp, OpClass.isTrap]

theorem SlotInv.group_unique {b : Nat} {s : State} (h : SlotInv b s) {g k : Group} {i : Nat} (hg : some i ∈ s.stations g)
    (hk : some i ∈ s.stations k) : g = k := by
  obtain ⟨c, hc, hall⟩ := exists_class (h.station_class g i hg)
  have hck := h.station_class k i hk
  rw [hall] at hck
  exact Group.takes_unique hc hck

theorem SlotInv.groupOf {b : Nat} {s : State} (h : SlotInv b s) {g : Group} {i : Nat} (hg : some i ∈ s.stations g) :
    s.groupOf i = g := by
  obtain ⟨c, hc, hall⟩ := exists_class (h.station_class g i hg)
  have hfp := Group.takes_isFp g c hc
  rw [State.groupOf, hall]
  cases g <;> simp_all

/-- The latency of a record in a station is that of its group. -/
theorem SlotInv.latencyOf {b : Nat} {s : State} (h : SlotInv b s) {g : Group} {i : Nat} (hg : some i ∈ s.stations g) :
    s.latencyOf i = latency g := by
  rw [← h.groupOf hg, State.latencyOf, State.groupOf]
  split <;> rfl

/-! ### One lemma per effect on the slots -/

/-- Nothing is written but the map table and the bus, which is released (R201). -/
theorem SlotInv.congr {b b' : Nat} {s t : State} (h : SlotInv b s) (hin : SameInputs s t) (hq : SameQueue s t)
    (hrec : ∀ i, t.record i = s.record i) (hstations : ∀ g, t.stations g = s.stations g)
    (hunits : ∀ g, t.units g = s.units g) (hcdb : t.cdb = none) : SlotInv b' t := by
  obtain ⟨hifq, hcursor⟩ := id hq
  have hnodup : t.stationed.Nodup :=
    h.nodup.sublist (stationed_sublist fun g => by rw [hstations g])
  obtain ⟨-, h2, h3, h4, h5, h6, -, h8, h9, h10⟩ := h
  refine ⟨hnodup, ?_, ?_, ?_, ?_, ?_, by simp [hcdb], ?_, ?_, ?_⟩ <;>
    simpa only [State.inStation, hifq, hcursor, hrec, hstations, hunits, hin.classHas]

/-- Record `w` leaves its slots having finished: on completion (R182) or as the winner of the bus (R185). -/
theorem SlotInv.leave {b b' : Nat} {s t : State} {g : Group} {w : Nat} (h : SlotInv b s) (hin : SameInputs s t)
    (hq : SameQueue s t) (hw : some w ∈ s.stations g)
    (hstations : ∀ k, t.stations k = if k = g then clearRef w (s.stations k) else s.stations k)
    (hunits : ∀ k, t.units k = if k = g then clearRef w (s.units k) else s.units k)
    (hrec : ∀ i, i ≠ w → t.record i = s.record i) (hexec : (t.record w).tExec ≠ 0)
    (hresult : s.classHas OpClass.writesResult w = true → (t.record w).tCdb ≠ 0)
    (hbus : ∀ i, t.cdb = some i → i = w ∧ (t.record w).tCdb + 1 = b') (hsize : s.fetchIndex ≤ s.size) :
    SlotInv b' t := by
  obtain ⟨hifq, hcursor⟩ := id hq
  have hother {k : Group} (hk : k ≠ g) : some w ∉ s.stations k := fun hmem => hk (h.group_unique hmem hw)
  have mem_stations (k : Group) (i : Nat) : some i ∈ t.stations k ↔ some i ∈ s.stations k ∧ i ≠ w := by
    rw [hstations]
    split
    case isTrue => exact some_mem_clearRef
    case isFalse hk => exact (and_iff_left_of_imp (by rintro hi rfl; exact hother hk hi)).symm
  have mem_units (k : Group) (i : Nat) : some i ∈ t.units k ↔ some i ∈ s.units k ∧ i ≠ w := by
    rw [hunits]
    split
    case isTrue => exact some_mem_clearRef
    case isFalse hk => exact (and_iff_left_of_imp (by rintro hi rfl; exact hother hk (h.unit k i hi).1)).symm
  have hnottrap := classHas_exclusive g.takes_not_trap (h.station_class g w hw)
  have hnotbranch := classHas_exclusive g.takes_not_branch (h.station_class g w hw)
  have hsub {l m : List Ref} {P : Prop} [Decidable P] (e : l = if P then clearRef w m else m) :
      (occupants l).Sublist (occupants m) := by
    rw [e]
    split
    · exact occupants_clearRef_sublist w m
    · exact .refl _
  refine ⟨h.nodup.sublist (stationed_sublist fun k => hsub (hstations k)), fun k i hi => ?_, fun k i hi => ?_,
    fun k => (h.unit_nodup k).sublist (hsub (hunits k)), fun k i hi => ?_, fun k i hi hne => ?_, fun i hi => ?_,
    fun i hi h1 hc => ?_, fun i hi h1 hc => ?_, fun i hi h1 hc => ?_⟩
  · rw [hin.classHas]
    exact h.station_class k i ((mem_stations k i).mp hi).1
  · obtain ⟨hi, hne⟩ := (mem_stations k i).mp hi
    rw [hifq, hcursor, hrec i hne]
    exact h.station k i hi
  · obtain ⟨hi, hne⟩ := (mem_units k i).mp hi
    obtain ⟨hs, he⟩ := h.unit k i hi
    rw [hrec i hne]
    exact ⟨(mem_stations k i).mpr ⟨hs, hne⟩, he⟩
  · obtain ⟨hi, hiw⟩ := (mem_stations k i).mp hi
    rw [hrec i hiw] at hne
    exact (mem_units k i).mpr ⟨h.started k i hi hne, hiw⟩
  · obtain ⟨rfl, hstamp⟩ := hbus i hi
    obtain ⟨h1, hle, -⟩ := h.station g i hw
    rw [hin.size]
    exact ⟨h1, hle.trans hsize, hstamp, fun ⟨k, hk⟩ => ((mem_stations k i).mp hk).2 rfl⟩
  · rw [hcursor] at hi
    rw [hin.classHas] at hc
    rw [hrec i (by rintro rfl; rw [hnottrap] at hc; cases hc)]
    exact h.trap i hi h1 hc
  · rw [hcursor] at hi
    rw [hin.classHas] at hc
    rw [hifq, hrec i (by rintro rfl; rw [hnotbranch] at hc; cases hc)]
    exact h.branch i hi h1 hc
  · rw [hcursor] at hi
    rw [hin.classHas] at hc
    rw [hin.classHas]
    by_cases e : i = w
    · subst e
      exact .inr (.inr ⟨hexec, hresult⟩)
    · rw [hifq, hrec i e]
      refine (h.progress i hi h1 hc).imp_right (Or.imp_left fun ⟨k, hk⟩ => ⟨k, (mem_stations k i).mpr ⟨hk, e⟩⟩)

/-- Record `w` starts in a free unit of its group and keeps its station (R164). -/
theorem SlotInv.start {b c k : Nat} {s t : State} {g : Group} {w : Nat} (h : SlotInv b s) (hin : SameInputs s t)
    (hq : SameQueue s t) (hw : some w ∈ s.stations g) (hnew : (s.record w).tExec = 0)
    (hfree : (s.units g)[k]? = some none) (hstations : ∀ l, t.stations l = s.stations l)
    (hunits : ∀ l, t.units l = if l = g then (s.units l).set k (some w) else s.units l) (hcdb : t.cdb = s.cdb)
    (hrec : ∀ i, t.record i = if i = w then { s.record i with tExec := c } else s.record i) (hc : c ≠ 0) :
    SlotInv b t := by
  obtain ⟨hifq, hcursor⟩ := id hq
  have disp i : (t.record i).tDisp = (s.record i).tDisp := by rw [hrec]; split <;> rfl
  have issue i : (t.record i).tIssue = (s.record i).tIssue := by rw [hrec]; split <;> rfl
  have exec i : (t.record i).tExec = if i = w then c else (s.record i).tExec := by rw [hrec]; split <;> rfl
  have cdb i : (t.record i).tCdb = (s.record i).tCdb := by rw [hrec]; split <;> rfl
  have mem_units (l : Group) (i : Nat) : some i ∈ t.units l ↔ (l = g ∧ i = w) ∨ some i ∈ s.units l := by
    rw [hunits]
    split
    case isTrue hl =>
      subst hl
      rw [some_mem_set_of_free hfree]
      simp
    case isFalse hl => simp [hl]
  have hidle : some w ∉ s.units g := fun hu => (h.unit g w hu).2 hnew
  have hnottrap := classHas_exclusive g.takes_not_trap (h.station_class g w hw)
  refine ⟨h.nodup.sublist (stationed_sublist fun l => by rw [hstations l]), ?_, ?_, fun l => ?_, fun l i hi => ?_,
    fun l i hi hne => ?_, ?_, fun i hi h1 hclass => ?_, ?_, fun i hi h1 hclass => ?_⟩
  · simpa only [hstations, hin.classHas] using h.station_class
  · simpa only [hstations, hifq, hcursor, issue, cdb] using h.station
  · rw [hunits]
    split
    case isTrue hl =>
      subst hl
      rw [(occupants_set_perm hfree).nodup_iff, List.nodup_cons]
      exact ⟨mem_occupants.not.mpr hidle, h.unit_nodup l⟩
    case isFalse => exact h.unit_nodup l
  · rw [hstations, exec]
    obtain ⟨rfl, rfl⟩ | hi := (mem_units l i).mp hi
    · rw [if_pos rfl]
      exact ⟨hw, hc⟩
    · rw [if_neg (by rintro rfl; exact (h.unit l i hi).2 hnew)]
      exact h.unit l i hi
  · rw [hstations] at hi
    rw [exec] at hne
    split at hne
    case isTrue e =>
      subst e
      exact (mem_units l i).mpr (.inl ⟨h.group_unique hi hw, rfl⟩)
    case isFalse => exact (mem_units l i).mpr (.inr (h.started l i hi hne))
  · simpa only [State.inStation, hstations, hcdb, cdb, hin.size] using h.bus
  · rw [hcursor] at hi
    rw [hin.classHas] at hclass
    rw [hrec, if_neg (by rintro rfl; rw [hnottrap] at hclass; cases hclass)]
    exact h.trap i hi h1 hclass
  · simpa only [hifq, hcursor, disp, hin.classHas] using h.branch
  · rw [hcursor] at hi
    rw [hin.classHas] at hclass ⊢
    rw [hifq, exec, cdb]
    simp only [State.inStation, hstations]
    obtain hp | hp | ⟨he, hp⟩ := h.progress i hi h1 hclass
    · exact .inl hp
    · exact .inr (.inl hp)
    · refine .inr (.inr ⟨?_, hp⟩)
      split
      · exact hc
      · exact he

/-- A branch at the head leaves the queue with its dispatch stamp (R141). -/
theorem SlotInv.discard {b w : Nat} {rest : List Nat} {s : State} (h : SlotInv b s) (hifq : s.ifq = w :: rest)
    (hclass : s.classHas OpClass.isBranch w = true) (hdisp : (s.record w).tDisp ≠ 0) :
    SlotInv b { s with ifq := s.ifq.tail } := by
  have htail : s.ifq.tail = rest := by rw [hifq]; rfl
  rw [htail]
  have hmem {i : Nat} (hi : i ∈ s.ifq) : i = w ∨ i ∈ rest := by rwa [hifq, List.mem_cons] at hi
  have hsub {i : Nat} (hi : i ∈ rest) : i ∈ s.ifq := by rw [hifq]; exact List.mem_cons_of_mem w hi
  exact
    { nodup := h.nodup
      station_class := h.station_class
      station := fun g i hi => by
        obtain ⟨h1, h2, h3, h4⟩ := h.station g i hi
        exact ⟨h1, h2, fun q hq => h3 q (hsub hq), h4⟩
      unit_nodup := h.unit_nodup
      unit := h.unit
      started := h.started
      bus := h.bus
      trap := h.trap
      branch := fun i hi h1 hc => by
        obtain hq | hd := h.branch i hi h1 hc
        · obtain rfl | hq := hmem hq
          · exact .inr hdisp
          · exact .inl hq
        · exact .inr hd
      progress := fun i hi h1 hc => by
        obtain hq | hp := h.progress i hi h1 hc
        · obtain rfl | hq := hmem hq
          · have hc : s.classHas (fun c => c.isInt || c.isFp) i = true := hc
            rw [classHas_exclusive OpClass.isBranch_not_station hclass] at hc
            cases hc
          · exact .inl hq
        · exact .inr hp }

/-- The head takes a free station of the group of its class and leaves the queue (R145 to R148). -/
theorem SlotInv.place {b c j w : Nat} {rest : List Nat} {g : Group} {s t : State} (h : SlotInv b s)
    (hin : SameInputs s t) (hifq : s.ifq = w :: rest) (hifq' : t.ifq = rest) (hcursor : t.fetchIndex = s.fetchIndex)
    (hclass : s.classHas g.takes w = true) (hfree : (s.stations g)[j]? = some none)
    (hstations : ∀ k, t.stations k = if k = g then (s.stations k).set j (some w) else s.stations k)
    (hunits : ∀ k, t.units k = s.units k) (hcdb : t.cdb = s.cdb)
    (hrec : ∀ i, ∃ d0 d1 d2, t.record i = if i = w then (s.record i).placed c d0 d1 d2 else s.record i) (hc : c ≠ 0)
    (hw : 1 ≤ w ∧ w ≤ s.fetchIndex) (hrest : ∀ q ∈ rest, w < q)
    (hnew : (s.record w).tExec = 0 ∧ (s.record w).tCdb = 0)
    (hbusStamp : ∀ i, s.cdb = some i → (s.record i).tCdb ≠ 0) : SlotInv b t := by
  have disp i : (t.record i).tDisp = (s.record i).tDisp := by
    obtain ⟨d0, d1, d2, e⟩ := hrec i
    rw [e]
    split <;> rfl
  have issue i : (t.record i).tIssue = if i = w then c else (s.record i).tIssue := by
    obtain ⟨d0, d1, d2, e⟩ := hrec i
    rw [e]
    split <;> rfl
  have exec i : (t.record i).tExec = (s.record i).tExec := by
    obtain ⟨d0, d1, d2, e⟩ := hrec i
    rw [e]
    split <;> rfl
  have cdb i : (t.record i).tCdb = (s.record i).tCdb := by
    obtain ⟨d0, d1, d2, e⟩ := hrec i
    rw [e]
    split <;> rfl
  have mem_stations (k : Group) (i : Nat) : some i ∈ t.stations k ↔ (k = g ∧ i = w) ∨ some i ∈ s.stations k := by
    rw [hstations]
    split
    case isTrue hk =>
      subst hk
      rw [some_mem_set_of_free hfree]
      simp
    case isFalse hk => simp [hk]
  have hqueued : w ∈ s.ifq := by rw [hifq]; exact List.mem_cons_self
  have hfresh : ¬ s.inStation w := fun ⟨k, hk⟩ => by
    obtain ⟨-, -, hlt, -⟩ := h.station k w hk
    exact absurd (hlt w hqueued) (Nat.lt_irrefl w)
  have hperm : t.stationed.Perm (w :: s.stationed) := by
    have hint := hstations .int
    have hfp := hstations .fp
    have hset := occupants_set_perm (x := w) hfree
    simp only [State.stations] at hint hfp hset
    cases g with
    | int =>
      simp only [State.stationed, hint, hfp, if_true, reduceCtorEq, if_false]
      exact hset.append_right _
    | fp =>
      simp only [State.stationed, hint, hfp, if_true, reduceCtorEq, if_false]
      exact (hset.append_left _).trans List.perm_middle
  have hnottrap := classHas_exclusive g.takes_not_trap hclass
  have hnotbranch := classHas_exclusive g.takes_not_branch hclass
  refine ⟨?_, fun k i hi => ?_, fun k i hi => ?_, fun k => by rw [hunits]; exact h.unit_nodup k, fun k i hi => ?_,
    fun k i hi hne => ?_, fun i hi => ?_, fun i hi h1 ht => ?_, fun i hi h1 hb => ?_, fun i hi h1 hp => ?_⟩
  · rw [hperm.nodup_iff, List.nodup_cons]
    exact ⟨mem_stationed.not.mpr hfresh, h.nodup⟩
  · rw [hin.classHas]
    obtain ⟨rfl, rfl⟩ | hi := (mem_stations k i).mp hi
    · exact hclass
    · exact h.station_class k i hi
  · rw [hifq', hcursor, issue, cdb]
    obtain ⟨rfl, rfl⟩ | hi := (mem_stations k i).mp hi
    · rw [if_pos rfl]
      exact ⟨hw.1, hw.2, hrest, hc, hnew.2⟩
    · obtain ⟨h1, h2, h3, h4, h5⟩ := h.station k i hi
      rw [if_neg (by rintro rfl; exact hfresh ⟨k, hi⟩)]
      exact ⟨h1, h2, fun q hq => h3 q (by rw [hifq]; exact List.mem_cons_of_mem w hq), h4, h5⟩
  · rw [hunits] at hi
    rw [exec]
    obtain ⟨hs, he⟩ := h.unit k i hi
    exact ⟨(mem_stations k i).mpr (.inr hs), he⟩
  · rw [exec] at hne
    rw [hunits]
    obtain ⟨rfl, rfl⟩ | hi := (mem_stations k i).mp hi
    · exact absurd hnew.1 hne
    · exact h.started k i hi hne
  · rw [hcdb] at hi
    obtain ⟨h1, h2, h3, h4⟩ := h.bus i hi
    rw [hin.size, cdb]
    refine ⟨h1, h2, h3, fun ⟨k, hk⟩ => ?_⟩
    obtain ⟨rfl, rfl⟩ | hk := (mem_stations k i).mp hk
    · exact hbusStamp i hi hnew.2
    · exact h4 ⟨k, hk⟩
  · rw [hcursor] at hi
    rw [hin.classHas] at ht
    obtain ⟨d0, d1, d2, e⟩ := hrec i
    rw [e, if_neg (by rintro rfl; rw [hnottrap] at ht; cases ht)]
    exact h.trap i hi h1 ht
  · rw [hcursor] at hi
    rw [hin.classHas] at hb
    rw [hifq', disp]
    obtain hq | hd := h.branch i hi h1 hb
    · rw [hifq] at hq
      obtain rfl | hq := List.mem_cons.mp hq
      · rw [hnotbranch] at hb
        cases hb
      · exact .inl hq
    · exact .inr hd
  · rw [hcursor] at hi
    rw [hin.classHas] at hp ⊢
    rw [hifq', exec, cdb]
    obtain hq | ⟨k, hk⟩ | hdone := h.progress i hi h1 hp
    · rw [hifq] at hq
      obtain rfl | hq := List.mem_cons.mp hq
      · exact .inr (.inl ⟨g, (mem_stations g i).mpr (.inl ⟨rfl, rfl⟩)⟩)
      · exact .inl hq
    · exact .inr (.inl ⟨k, (mem_stations k i).mpr (.inr hk)⟩)
    · exact .inr (.inr hdone)

/-- Records that fetch consumes are traps, or in the queue (R127). -/
theorem SlotInv.fetched {b k : Nat} {s : State} (h : SlotInv b s) (htraps : s.trapsAhead k)
    (hclass : s.classHas (fun c => !c.isTrap) (s.fetchIndex + k + 1) = true)
    (hunfetched : ∀ i ≤ s.size, s.fetchIndex < i → (s.record i).stamps = (0, 0, 0, 0)) : SlotInv b (s.fetched k) := by
  have hnew : s.fetchIndex + k + 1 ≤ s.size := (le_size_of_classHas hclass).2
  have hconsumed {i : Nat} (hi : i ≤ (s.fetched k).fetchIndex) :
      i ≤ s.fetchIndex ∨ (s.fetchIndex < i ∧ s.classHas OpClass.isTrap i = true) ∨ i = s.fetchIndex + k + 1 := by
    have hi : i ≤ s.fetchIndex + k + 1 := hi
    obtain hle | hlt := Nat.lt_or_ge s.fetchIndex i |>.symm
    · exact .inl hle
    · obtain hle | rfl := Nat.le_or_eq_of_le_succ hi
      · exact .inr (.inl ⟨hlt, htraps i hlt hle⟩)
      · exact .inr (.inr rfl)
  have hlast : s.fetchIndex + k + 1 ∈ (s.fetched k).ifq := List.mem_append_right _ List.mem_cons_self
  have hold {i : Nat} (hi : i ∈ s.ifq) : i ∈ (s.fetched k).ifq := List.mem_append_left _ hi
  exact
    { nodup := h.nodup
      station_class := h.station_class
      station := fun g i hi => by
        obtain ⟨h1, h2, h3, h4⟩ := h.station g i hi
        refine ⟨h1, ?_, fun q hq => ?_, h4⟩
        · show i ≤ s.fetchIndex + k + 1
          omega
        · obtain hq | hq := List.mem_append.mp hq
          · exact h3 q hq
          · obtain rfl := List.mem_singleton.mp hq
            omega
      unit_nodup := h.unit_nodup
      unit := h.unit
      started := h.started
      bus := h.bus
      trap := fun i hi h1 ht => by
        obtain hle | ⟨hlt, -⟩ | rfl := hconsumed hi
        · exact h.trap i hle h1 ht
        · exact hunfetched i (le_size_of_classHas ht).2 hlt
        · exact hunfetched _ hnew (by omega)
      branch := fun i hi h1 hb => by
        have hb' : s.classHas OpClass.isBranch i = true := hb
        obtain hle | ⟨-, ht⟩ | rfl := hconsumed hi
        · exact (h.branch i hle h1 hb).imp_left hold
        · rw [classHas_exclusive OpClass.isTrap_not_branch ht] at hb'
          cases hb'
        · exact .inl hlast
      progress := fun i hi h1 hp => by
        have hp' : s.classHas (fun c => c.isInt || c.isFp) i = true := hp
        obtain hle | ⟨-, ht⟩ | rfl := hconsumed hi
        · exact (h.progress i hle h1 hp).imp_left hold
        · rw [classHas_exclusive OpClass.isTrap_not_station ht] at hp'
          cases hp'
        · exact .inl hlast }

/-- A dispatch stamp on the head, which is no trap, is no matter to the slots. -/
theorem SlotInv.stampHead {b : Nat} {s : State} (h : SlotInv b s) (hqueue : s.QueueInv) : SlotInv b (stampHead s) := by
  have hin := stampHead_sameInputs s
  have hrec := stampHead_record s
  obtain ⟨m, hm, -⟩ := stampHead_frame s
  have hifq : (Machine.stampHead s).ifq = s.ifq := by rw [hm]
  have hcursor : (Machine.stampHead s).fetchIndex = s.fetchIndex := by rw [hm]
  have hcdb : (Machine.stampHead s).cdb = s.cdb := by rw [hm]
  have hstations (g : Group) : (Machine.stampHead s).stations g = s.stations g := by rw [hm]; cases g <;> rfl
  have hunits (g : Group) : (Machine.stampHead s).units g = s.units g := by rw [hm]; cases g <;> rfl
  generalize Machine.stampHead s = t at *
  have issue i : (t.record i).tIssue = (s.record i).tIssue := by rw [hrec]; split <;> rfl
  have exec i : (t.record i).tExec = (s.record i).tExec := by rw [hrec]; split <;> rfl
  have cdb i : (t.record i).tCdb = (s.record i).tCdb := by rw [hrec]; split <;> rfl
  refine ⟨h.nodup.sublist (stationed_sublist fun g => by rw [hstations g]), ?_, ?_, ?_, ?_, ?_, ?_,
    fun i hi h1 ht => ?trap, fun i hi h1 hb => ?branch, ?_⟩
  case trap =>
    rw [hcursor] at hi
    rw [hin.classHas] at ht
    rw [hrec, if_neg]
    · exact h.trap i hi h1 ht
    · rintro ⟨hhead, -⟩
      obtain ⟨-, -, hclass⟩ := hqueue.2.2.1 i (List.mem_of_head? hhead)
      rw [classHas_exclusive (fun c hc => by rw [hc]; rfl) ht] at hclass
      cases hclass
  case branch =>
    rw [hcursor] at hi
    rw [hin.classHas] at hb
    rw [hifq, hrec]
    split
    case isTrue e => exact .inl (List.mem_of_head? e.1)
    case isFalse => exact h.branch i hi h1 hb
  · simpa only [hstations, hin.classHas] using h.station_class
  · simpa only [hstations, hifq, hcursor, issue, cdb] using h.station
  · simpa only [hunits] using h.unit_nodup
  · simpa only [hunits, hstations, exec] using h.unit
  · simpa only [hunits, hstations, exec] using h.started
  · simpa only [State.inStation, hstations, hcdb, cdb, hin.size] using h.bus
  · simpa only [State.inStation, hstations, hifq, hcursor, exec, cdb, hin.classHas] using h.progress

/-! ### The map table -/

/-- Map entries may go, the cursor may move on, and no issue stamp changes. -/
theorem mapInv_mono {s t : State} (h : s.MapInv) (hin : SameInputs s t) (hcursor : s.fetchIndex ≤ t.fetchIndex)
    (hissue : ∀ i, (t.record i).tIssue = (s.record i).tIssue)
    (hmap : ∀ r p, t.producer r = some p → s.producer r = some p) : t.MapInv := by
  intro r hr p hp
  rw [hin.nRegs] at hr
  obtain ⟨h1, h2, h3, h4, h5⟩ := h r hr p (hmap r p hp)
  simp only [hin.namesDest, hissue, hin.size]
  exact ⟨h1, h2.trans hcursor, h3, h4, h5⟩

/-- The head becomes the producer of its destinations (R146). -/
theorem mapInv_place {s t : State} {w c : Nat} {instr : Instr} (h : s.MapInv) (hin : SameInputs s t)
    (hcursor : t.fetchIndex = s.fetchIndex) (hinstr : s.instrAt w = some instr) (hw : 1 ≤ w ∧ w ≤ s.fetchIndex)
    (hissue : ∀ i, (t.record i).tIssue = if i = w then c else (s.record i).tIssue) (hc : c ≠ 0)
    (hissued : ∀ i ≤ s.size, (s.record i).tIssue ≠ 0 → i < w)
    (hmap : ∀ r < s.nRegs, t.producer r =
      if instr.operands.dst0 = .reg r ∨ instr.operands.dst1 = .reg r then some w else s.producer r) : t.MapInv := by
  have hdst (r : Nat) : s.namesDest w r = true ↔ instr.operands.dst0 = .reg r ∨ instr.operands.dst1 = .reg r := by
    simp [State.namesDest, hinstr]
  intro r hr p hp
  rw [hin.nRegs] at hr
  simp only [hmap r hr, ← hdst] at hp
  simp only [hin.namesDest, hissue, hin.size, hcursor]
  split at hp
  case isTrue hnames =>
    cases hp
    refine ⟨hw.1, hw.2, hnames, by rw [if_pos rfl]; exact hc, fun q hq hlt hne => ?_⟩
    rw [if_neg hlt.ne'] at hne
    have := hissued q hq hne
    omega
  case isFalse hnames =>
    obtain ⟨h1, h2, h3, h4, h5⟩ := h r hr p hp
    refine ⟨h1, h2, h3, ?_, fun q hq hlt hne => ?_⟩
    · split
      · exact hc
      · exact h4
    · split at hne
      case isTrue e => rw [e]; simpa using hnames
      case isFalse => exact h5 q hq hlt hne

end Sys2Proof.Machine
end

section

/-! # Proofs: every stage, and so every step, keeps the pipeline invariant (spec/47_invariants.md) -/

namespace Sys2Proof.Machine

theorem withVisit_eq_self {s : State} (h : s.visit = .fetch) : { s with visit := Visit.fetch } = s := by rw [← h]

/-! ### Stages 1 to 3: before dispatch -/

/-- The invariant in cycle `c` before the dispatch stage: dispatch and issue stamps are of past cycles, and the head of
the queue has its dispatch stamp. -/
structure BeforeDispatch (c e b : Nat) (s : State) : Prop where
  inv : CycleInv c c e b s
  cycle : s.cycle = c
  head : s.HeadStamped

theorem headStamped_of_tDisp {s t : State} (h : s.HeadStamped) (hq : SameQueue s t)
    (hdisp : ∀ i, (t.record i).tDisp = (s.record i).tDisp) : t.HeadStamped := by
  intro i hi
  rw [hq.1] at hi
  rw [hdisp]
  exact h i hi

theorem State.PipelineInv.beforeDispatch {s : State} (h : s.PipelineInv) :
    BeforeDispatch s.cycle s.cycle s.cycle s :=
  ⟨h.cycleInv, rfl, h.headStamped⟩

/-- The bus occupant broadcast in the cycle before, so retire releases it. -/
theorem cdbToRetire_cdb {c e : Nat} {s : State} (h : BeforeDispatch c e c s) : (cdbToRetire s).cdb = none := by
  obtain ⟨hnone | ⟨i, hi, hle⟩, e⟩ | ⟨i, -, -, e⟩ := cdbToRetire_cases s
  · rw [e, hnone]
  · obtain ⟨-, -, hstamp, -⟩ := h.inv.slots.bus i hi
    rw [h.cycle] at hle
    omega
  · rw [e]

/-- Settles O48. -/
theorem busIsEmptyAfterRetire : Obligations.BusIsEmptyAfterRetire := fun _ h => cdbToRetire_cdb h.beforeDispatch

theorem cdbToRetire_frame (s : State) :
    (cdbToRetire s).mem = s.mem ∧ (cdbToRetire s).cycle = s.cycle ∧ (cdbToRetire s).visit = s.visit ∧
      (cdbToRetire s).fatal = s.fatal ∧ (∀ g, (cdbToRetire s).stations g = s.stations g) ∧
      ∀ g, (cdbToRetire s).units g = s.units g := by
  obtain ⟨-, e⟩ | ⟨i, -, -, e⟩ := cdbToRetire_cases s <;> rw [e]
  · exact ⟨rfl, rfl, rfl, rfl, fun _ => rfl, fun _ => rfl⟩
  · exact ⟨rfl, rfl, rfl, rfl, fun g => by cases g <;> rfl, fun g => by cases g <;> rfl⟩

/-- Map entries go only. -/
theorem cdbToRetire_producer {s : State} {r p : Nat} (h : (cdbToRetire s).producer r = some p) :
    s.producer r = some p := by
  obtain ⟨-, e⟩ | ⟨i, -, -, e⟩ := cdbToRetire_cases s <;> rw [e] at h
  · exact h
  · rw [producer_clear] at h
    split at h
    · cases h
    · exact h

theorem cdbToRetire_beforeDispatch {c : Nat} {s : State} (h : BeforeDispatch c c c s) :
    BeforeDispatch c c c (cdbToRetire s) := by
  obtain ⟨hmem, hcycle, hvisit, -, hstations, hunits⟩ := cdbToRetire_frame s
  have hin := cdbToRetire_sameInputs s
  have hq := cdbToRetire_sameQueue s
  have hrec := record_of_mem_eq hmem
  obtain ⟨hwf, hv, hc⟩ := h.inv.shape
  exact
    { inv :=
        { shape := ⟨by rwa [hmem], hvisit.trans hv, by rwa [hcycle]⟩
          records := h.inv.records.congr hin hq hrec
          slots := h.inv.slots.congr hin hq hrec hstations hunits (cdbToRetire_cdb h)
          map := mapInv_mono h.inv.map hin hq.2.ge (fun i => by rw [hrec]) fun _ _ => cdbToRetire_producer }
      cycle := hcycle.trans h.cycle
      head := headStamped_of_tDisp h.head hq fun i => by rw [hrec] }

theorem releaseSlots_stations (s : State) (g k : Group) (i : Nat) :
    (s.releaseSlots g i).stations k = if k = g then clearRef i (s.stations k) else s.stations k := by
  split
  case isTrue h => exact h ▸ releaseSlots_stations_self s g i
  case isFalse h => exact releaseSlots_stations_other s (Ne.symm h) i

theorem releaseSlots_units (s : State) (g k : Group) (i : Nat) :
    (s.releaseSlots g i).units k = if k = g then clearRef i (s.units k) else s.units k := by
  split
  case isTrue h => exact h ▸ releaseSlots_units_self s g i
  case isFalse h => exact releaseSlots_units_other s (Ne.symm h) i

/-- Occupant `i` of a unit leaves on completion: it has started and writes no result. -/
theorem releaseSlots_beforeDispatch {c : Nat} {s : State} {g : Group} {i : Nat} (h : BeforeDispatch c c c s)
    (hcdb : s.cdb = none) (hi : some i ∈ s.units g) (hl : s.leaves g i) :
    BeforeDispatch c c c (s.releaseSlots g i) := by
  have hin := releaseSlots_sameInputs s g i
  have hq : SameQueue s (s.releaseSlots g i) := ⟨releaseSlots_ifq .., releaseSlots_fetchIndex ..⟩
  have hrec := releaseSlots_record s g i
  obtain ⟨hwf, hv, hc⟩ := h.inv.shape
  obtain ⟨hstation, hexec⟩ := h.inv.slots.unit g i hi
  exact
    { inv :=
        { shape := ⟨by rwa [releaseSlots_mem], (releaseSlots_visit ..).trans hv, by rwa [releaseSlots_cycle]⟩
          records := h.inv.records.congr hin hq hrec
          slots := h.inv.slots.leave hin hq hstation (fun k => releaseSlots_stations s g k i)
            (fun k => releaseSlots_units s g k i) (fun j _ => hrec j) (by rwa [hrec])
            (fun hw => by rw [hl.2] at hw; cases hw) (by simp [hcdb]) h.inv.records.queue.1
          map := mapInv_mono h.inv.map hin hq.2.ge (fun j => by rw [hrec]) fun r p hp => by
            simpa [State.producer] using hp }
      cycle := (releaseSlots_cycle ..).trans h.cycle
      head := headStamped_of_tDisp h.head hq fun j => by rw [hrec] }

/-- What holds before the completion part of a group and is kept by every release holds after it. -/
theorem completeGroup_induct {g : Group} {P : State → Prop}
    (hP : ∀ u i, P u → some i ∈ u.units g → u.leaves g i → P (u.releaseSlots g i)) {s t : State}
    (hv : s.visit = .fetch) (hs : P s) (h : completeGroup g s = .next t) (hfatal : t.fatal = none) :
    P t ∧ t.visit = .fetch := by
  refine forSlots_induct (P := fun u => u.fatal = none → P u ∧ u.visit = .fetch) (fun k u t hu hufatal ht hfatal => ?_)
    (fun _ => ⟨hs, hv⟩) h hfatal
  obtain ⟨hPu, hv⟩ := hu hufatal
  obtain ⟨-, rfl | rfl⟩ | ⟨i, hi, hl, rfl⟩ := completeSlot_eq_next ht hfatal
  · exact ⟨hPu, hv⟩
  · exact ⟨(withVisit_eq_self hv).symm ▸ hPu, rfl⟩
  · refine ⟨?_, rfl⟩
    rw [withVisit_eq_self ((releaseSlots_visit ..).trans hv)]
    exact hP u i hPu (List.mem_of_getElem? hi) hl

/-- The execute-to-CDB stage: finished non-writers leave one after another, then the oldest candidate, if any,
broadcasts (R191). -/
theorem executeToCdb_induct {P : State → Prop}
    (hP : ∀ u g i, P u → some i ∈ u.units g → u.leaves g i → P (u.releaseSlots g i)) {s t : State}
    (hv : s.visit = .fetch) (hs : P s) (h : executeToCdb s = .next t) (hfatal : t.fatal = none) :
    ∃ u, P u ∧ u.visit = .fetch ∧
      ((u.candidates = [] ∧ t = u) ∨
        ∃ w ∈ u.candidates, (∀ i ∈ u.candidates, w ≤ i) ∧ t = u.broadcast (u.groupOf w) w) := by
  obtain ⟨-, hne⟩ | ⟨u, hu, hufatal, ht⟩ := thenStage_eq_next.mp h
  · exact absurd hfatal hne
  obtain ⟨-, hne⟩ | ⟨v, hint, hvfatal, hfp⟩ := thenStage_eq_next.mp hu
  · exact absurd hufatal hne
  obtain ⟨hPv, hvv⟩ := completeGroup_induct (fun u => hP u .int) hv hs hint hvfatal
  obtain ⟨hPu, huv⟩ := completeGroup_induct (fun u => hP u .fp) hvv hPv hfp hufatal
  refine ⟨u, hPu, huv, ?_⟩
  obtain ⟨hnil, e⟩ | ⟨w, hw, hle, e⟩ := arbitrate_eq u <;> rw [e] at ht <;> cases ht
  · exact .inl ⟨hnil, rfl⟩
  · exact .inr ⟨w, hw, hle, withVisit_eq_self ((broadcast_visit ..).trans huv)⟩

theorem broadcast_stations (s : State) (g k : Group) (w : Nat) :
    (s.broadcast g w).stations k = if k = g then clearRef w (s.stations k) else s.stations k := by
  split
  case isTrue h => exact h ▸ broadcast_stations_self s g w
  case isFalse h => exact broadcast_stations_other s (Ne.symm h) w

theorem broadcast_units (s : State) (g k : Group) (w : Nat) :
    (s.broadcast g w).units k = if k = g then clearRef w (s.units k) else s.units k := by
  split
  case isTrue h => exact h ▸ broadcast_units_self s g w
  case isFalse h => exact broadcast_units_other s (Ne.symm h) w

/-- What the invariant says of a candidate: it is in a station of its group and in the trace. -/
theorem SlotInv.candidate {b : Nat} {s : State} (h : SlotInv b s) {w : Nat} (hw : w ∈ s.candidates) :
    some w ∈ s.units (s.groupOf w) ∧ some w ∈ s.stations (s.groupOf w) ∧ (s.record w).tExec ≠ 0 ∧
      (s.record w).tExec + s.latencyOf w ≤ s.cycle ∧ s.classHas OpClass.writesResult w = true := by
  obtain ⟨g, hunit, hfin, hclass⟩ := mem_candidates.mp hw
  obtain ⟨hstation, hexec⟩ := h.unit g w hunit
  rw [h.groupOf hstation, h.latencyOf hstation]
  exact ⟨hunit, hstation, hexec, by simpa [State.finished] using hfin, hclass⟩

theorem broadcast_beforeDispatch {c : Nat} {s : State} {w : Nat} (h : BeforeDispatch c c c s) (hw : w ∈ s.candidates) :
    BeforeDispatch c c (c + 1) (s.broadcast (s.groupOf w) w) := by
  have hin := broadcast_sameInputs s (s.groupOf w) w
  have hq : SameQueue s (s.broadcast (s.groupOf w) w) := ⟨broadcast_ifq .., broadcast_fetchIndex ..⟩
  obtain ⟨hwf, hv, hc⟩ := h.inv.shape
  obtain ⟨-, hstation, hexec, hlat, hclass⟩ := h.inv.slots.candidate hw
  rw [h.cycle] at hlat
  obtain ⟨-, hle, hifq, -, hcdb⟩ := h.inv.slots.station _ w hstation
  have hsize := h.inv.records.queue.1
  have hholds : s.mem.holds w := (holds_iff_of_wf hwf w).mpr (le_size_of_classHas hclass)
  have hself := broadcast_record_self hholds (s.groupOf w)
  rw [h.cycle] at hself
  have hrec (i : Nat) : (s.broadcast (s.groupOf w) w).record i =
      if i = w then { s.record i with tCdb := c } else s.record i := by
    split
    case isTrue e => exact e ▸ hself
    case isFalse e => exact broadcast_record_other (Ne.symm e) s _
  have hc0 : 1 ≤ c := h.cycle ▸ hc
  exact
    { inv :=
        { shape := ⟨by simpa [Memory.wf, hin.1, hin.2.1] using hwf, (broadcast_visit ..).trans hv,
            by rwa [broadcast_cycle]⟩
          records := h.inv.records.broadcast hin hq hrec hle (fun hmem => absurd (hifq w hmem) (Nat.lt_irrefl w)) hcdb
            hexec hlat hclass
          slots := h.inv.slots.leave hin hq hstation (fun k => broadcast_stations s _ k w)
            (fun k => broadcast_units s _ k w) (fun i hi => broadcast_record_other (Ne.symm hi) s _)
            (by rw [hself]; exact hexec) (fun _ => by rw [hself]; exact Nat.ne_of_gt hc0)
            (fun i hi => by rw [broadcast_cdb] at hi; cases hi; rw [hself]; exact ⟨rfl, rfl⟩) hsize
          map := mapInv_mono h.inv.map hin hq.2.ge (fun i => by rw [hrec]; split <;> rfl) fun r p hp => by
            simpa [State.producer] using hp }
      cycle := (broadcast_cycle ..).trans h.cycle
      head := headStamped_of_tDisp h.head hq fun i => by rw [hrec]; split <;> rfl }

/-- Without a bus occupant the bounds of the start and broadcast stamps may grow. -/
theorem BeforeDispatch.mono {c e e' b b' : Nat} {s : State} (h : BeforeDispatch c e b s) (he : e ≤ e') (hb : b ≤ b')
    (hcdb : b = b' ∨ s.cdb = none) : BeforeDispatch c e' b' s where
  inv :=
    { shape := h.inv.shape
      records := h.inv.records.mono (Nat.le_refl _) (Nat.le_refl _) he hb
      slots := by
        obtain rfl | hcdb := hcdb
        · exact h.inv.slots
        · exact h.inv.slots.congr (SameInputs.refl s) (.refl s) (fun _ => rfl) (fun _ => rfl) (fun _ => rfl) hcdb
      map := h.inv.map }
  cycle := h.cycle
  head := h.head

theorem executeToCdb_beforeDispatch {c : Nat} {s t : State} (h : BeforeDispatch c c c s) (hcdb : s.cdb = none)
    (ht : executeToCdb s = .next t) (hfatal : t.fatal = none) : BeforeDispatch c c (c + 1) t := by
  obtain ⟨u, ⟨hu, hucdb⟩, -, ⟨-, rfl⟩ | ⟨w, hw, -, rfl⟩⟩ :=
    executeToCdb_induct (P := fun u => BeforeDispatch c c c u ∧ u.cdb = none)
      (fun u g i ⟨hu, hucdb⟩ hi hl =>
        ⟨releaseSlots_beforeDispatch hu hucdb hi hl, (releaseSlots_cdb ..).trans hucdb⟩)
      h.inv.shape.2.1 ⟨h, hcdb⟩ ht hfatal
  · exact hu.mono (Nat.le_refl c) (Nat.le_succ c) (.inr hucdb)
  · exact broadcast_beforeDispatch hu hw

theorem assignUnit_units (s : State) (g k : Group) (n i : Nat) :
    (s.assignUnit g n i).units k = if k = g then (s.units k).set n (some i) else s.units k := by
  split
  case isTrue h => exact h ▸ assignUnit_units_self s g n i
  case isFalse h => exact assignUnit_units_other s (Ne.symm h) n i

theorem assignUnit_stations (s : State) (g k : Group) (n i : Nat) :
    (s.assignUnit g n i).stations k = s.stations k := by
  simp [State.assignUnit]

theorem issueSlot_beforeDispatch {c : Nat} (g : Group) (k : Nat) {s : State} (h : BeforeDispatch c (c + 1) (c + 1) s) :
    BeforeDispatch c (c + 1) (c + 1) (issueSlot g s k) := by
  obtain e | ⟨w, hfree, hselect, e⟩ := issueSlot_cases g s k <;> rw [e]
  · exact h
  obtain ⟨⟨hstation, heligible⟩, -⟩ := selectFor_eq_some.mp hselect
  obtain ⟨hissue, -, hnew, hready⟩ := (eligibilityCondition s w).mp heligible
  rw [h.cycle] at hready
  obtain ⟨hwf, hv, hc⟩ := h.inv.shape
  obtain ⟨h1, hle, hifq, -, hcdb⟩ := h.inv.slots.station g w hstation
  have hholds : s.mem.holds w := (holds_iff_of_wf hwf w).mpr ⟨h1, hle.trans h.inv.records.queue.1⟩
  have hin := assignUnit_sameInputs s g k w
  have hq : SameQueue s (s.assignUnit g k w) := ⟨assignUnit_ifq .., assignUnit_fetchIndex ..⟩
  have hself := assignUnit_record_self hholds g k
  rw [h.cycle] at hself
  have hrec (i : Nat) : (s.assignUnit g k w).record i =
      if i = w then { s.record i with tExec := c } else s.record i := by
    split
    case isTrue e => exact e ▸ hself
    case isFalse e => exact assignUnit_record_other (Ne.symm e) s g k
  have hc0 : c ≠ 0 := Nat.ne_of_gt (h.cycle ▸ hc)
  exact
    { inv :=
        { shape := ⟨by simpa [Memory.wf, hin.1, hin.2.1] using hwf, (assignUnit_visit ..).trans hv,
            by rwa [assignUnit_cycle]⟩
          records := h.inv.records.start hin hq hrec hle (fun hmem => absurd (hifq w hmem) (Nat.lt_irrefl w)) hissue
            hcdb hready
          slots := h.inv.slots.start hin hq hstation hnew hfree (fun l => assignUnit_stations s g l k w)
            (fun l => assignUnit_units s g l k w) (assignUnit_cdb ..) hrec hc0
          map := mapInv_mono h.inv.map hin hq.2.ge (fun i => by rw [hrec]; split <;> rfl) fun r p hp => by
            simpa [State.producer] using hp }
      cycle := (assignUnit_cycle ..).trans h.cycle
      head := headStamped_of_tDisp h.head hq fun i => by rw [hrec]; split <;> rfl }

theorem issueToExecute_beforeDispatch {c : Nat} {s : State} (h : BeforeDispatch c c (c + 1) s) :
    BeforeDispatch c (c + 1) (c + 1) (issueToExecute s) := by
  have slot (g : Group) (u : State) (k : Nat) (hu : BeforeDispatch c (c + 1) (c + 1) u) :
      BeforeDispatch c (c + 1) (c + 1) (issueSlot g u k) := issueSlot_beforeDispatch g k hu
  exact issueGroup_induct (slot .fp)
    (issueGroup_induct (slot .int) (h.mono (Nat.le_succ c) (Nat.le_refl _) (.inl rfl)))

end Sys2Proof.Machine
end

section

/-! # Proofs: the dispatch and fetch stages keep the pipeline invariant (spec/42_dispatch.md, spec/41_fetch.md) -/

namespace Sys2Proof.Machine

/-! ### What the dispatch stage does (R140 to R151) -/

/-- Writing back what the store holds changes nothing. -/
theorem updateRec_eq_self {m : Memory} {i : Nat} {f : RecordState → RecordState} (h : f (m.readRec i) = m.readRec i) :
    m.updateRec i f = m := by
  cases i with
  | zero => rfl
  | succ n =>
    have hrecs : m.recs.modify n f = m.recs := by
      refine List.ext_getElem? fun k => ?_
      rw [List.getElem?_modify]
      split
      case isTrue e =>
        subst e
        cases hk : m.recs[n]? with
        | none => rfl
        | some r =>
          rw [Memory.readRec, hk] at h
          exact congrArg some h
      case isFalse => simp
    rw [Memory.updateRec, hrecs]

theorem updateRecord_eq_self {s : State} {i : Nat} {f : RecordState → RecordState} (h : f (s.record i) = s.record i) :
    s.updateRecord i f = s := by
  rw [State.updateRecord, updateRec_eq_self h]

/-- The stamping part finds nothing to stamp. -/
theorem stampIssue_eq_self {s : State} (h : ∀ i, s.inStation i → (s.record i).tIssue ≠ 0) : stampIssue s = s := by
  have hall : ∀ i ∈ s.stationed, (s.record i).tIssue ≠ 0 := fun i hi => h i (mem_stationed.mp hi)
  unfold stampIssue
  change ∀ i ∈ occupants s.rsInt ++ occupants s.rsFp, _ at hall
  generalize occupants s.rsInt ++ occupants s.rsFp = l at hall
  induction l with
  | nil => rfl
  | cons i l ih =>
    have hone : stampIssueOne s i = s := updateRecord_eq_self (if_neg (hall i List.mem_cons_self))
    rw [List.foldl_cons, hone]
    exact ih fun j hj => hall j (List.mem_cons_of_mem i hj)

/-- The frame of the stamping part. -/
theorem stampIssue_frame (s : State) :
    ∃ m, stampIssue s = { s with mem := m } ∧ m.trace = s.mem.trace ∧ m.recs.length = s.mem.recs.length := by
  unfold stampIssue
  generalize occupants s.rsInt ++ occupants s.rsFp = l
  induction l generalizing s with
  | nil => exact ⟨s.mem, rfl, rfl, rfl⟩
  | cons i l ih =>
    obtain ⟨m, e, htrace, hlen⟩ := ih (stampIssueOne s i)
    refine ⟨m, e.trans rfl, htrace.trans (updateRec_trace ..), hlen.trans (updateRec_length ..)⟩

/-- Where the store has no record, it reads as reset leaves it (log entry 8). -/
theorem record_of_not_holds {t : State} {i : Nat} (h : ¬ t.mem.holds i) : t.record i = RecordState.zero := by
  cases i with
  | zero => rfl
  | succ n =>
    rw [State.record, Memory.readRec, List.getElem?_eq_none]
    · rfl
    · by_contra hlt
      exact h ⟨n.succ_pos, by omega⟩

/-- The head has taken a free station of group `g` and is stamped. -/
def State.placeHead (s : State) (g : Group) (o : Operands) : State := stampIssue (s.allocate g o)

theorem allocate_visit (s : State) (g : Group) (o : Operands) : (s.allocate g o).visit = s.visit := by
  obtain ⟨-, e⟩ | ⟨_, _, -, -, e⟩ | ⟨_, _, _, -, -, e⟩ := allocate_cases s g o <;> rw [e]
  simp

/-- An allocation does not look at the visit. -/
theorem allocate_withVisit (s : State) (g : Group) (o : Operands) (v : Visit) :
    State.allocate g o { s with visit := v } = { s.allocate g o with visit := v } := by
  have hstations : State.stations { s with visit := v } g = s.stations g := by cases g <;> rfl
  simp only [State.allocate, hstations]
  cases peek s.ifq with
  | none => rfl
  | some h =>
    cases firstFree (s.stations g) with
    | none => rfl
    | some j =>
      obtain ⟨d0, d1, s0, s1, s2⟩ := o
      cases d0 <;> cases d1 <;> cases g <;> rfl

/-- What a record can be at the head of the queue. -/
theorem trap_or_branch_or_taken : ∀ c : OpClass, c = .trap ∨ c.isBranch = true ∨ ∃ g : Group, g.takes c = true
  | .icomp | .load | .store => .inr (.inr ⟨.int, rfl⟩)
  | .fcomp => .inr (.inr ⟨.fp, rfl⟩)
  | .jump | .branch => .inr (.inl rfl)
  | .trap => .inl rfl

/-- Everything the dispatch stage does when it is not fatal: nothing; it discards a branch; or it places the head in a
free station of the group of its class. -/
theorem dispatchToIssue_cases {s t : State} (hv : s.visit = .fetch)
    (hissued : ∀ i, s.inStation i → (s.record i).tIssue ≠ 0) (h : dispatchToIssue s = .next t)
    (hfatal : t.fatal = none) :
    ((s.ifq = [] ∨ ∃ w ∈ s.ifq.head?, ∃ g : Group, s.classHas g.takes w = true ∧ none ∉ s.stations g) ∧ t = s) ∨
      (∃ w rest, s.ifq = w :: rest ∧ s.classHas OpClass.isBranch w = true ∧ t = { s with ifq := s.ifq.tail }) ∨
        ∃ w rest g j instr, s.ifq = w :: rest ∧ s.instrAt w = some instr ∧ s.classHas g.takes w = true ∧
          firstFree (s.stations g) = some j ∧ t = s.placeHead g instr.operands := by
  obtain ⟨-, hne⟩ | ⟨u, hu, hufatal, rfl⟩ := dispatchToIssue_eq_next.mp h
  · exact absurd hfatal hne
  have hstamped : stampIssue s = s := stampIssue_eq_self hissued
  obtain ⟨hnil, e⟩ | ⟨w, rest, hifq, e⟩ := dispatchHead_cases s <;> rw [e] at hu
  · cases hu
    exact .inl ⟨.inl hnil, hstamped⟩
  obtain ⟨-, rfl⟩ | ⟨instr, v, hr, hexec, rfl⟩ := visitRecord_eq_next.mp hu
  · exact absurd hufatal (raiseFatal_fatal_ne_none _ _)
  have hclass (P : OpClass → Bool) := classHas_of_traceRead hr P
  obtain htrap | hbranch | ⟨g, hg⟩ := trap_or_branch_or_taken instr.cls
  · rw [exec_at_dispatch rfl, htrap] at hexec
    cases hexec
    exact absurd hufatal (raiseFatal_fatal_ne_none _ _)
  · refine .inr (.inl ⟨w, rest, hifq, (hclass _).trans hbranch, ?_⟩)
    rw [exec_at_dispatch rfl, if_pos hbranch] at hexec
    cases hexec
    have hpop : { State.discardHead { s with visit := .dispatch } with visit := .fetch } =
        { s with ifq := s.ifq.tail } := by rw [← hv]; rfl
    rw [hpop]
    exact stampIssue_eq_self (s := { s with ifq := s.ifq.tail }) hissued
  · have hexec' := exec_eq_allocate (i := instr) (s := { s with visit := .dispatch }) (g := g) rfl
      (by rintro rfl; exact hg) (by rintro rfl; exact hg)
    rw [hexec'] at hexec
    cases hexec
    rw [allocate_withVisit]
    have hfetch : { s.allocate g instr.operands with visit := .fetch } = s.allocate g instr.operands :=
      withVisit_eq_self ((allocate_visit ..).trans hv)
    simp only [hfetch]
    cases hfree : firstFree (s.stations g) with
    | none =>
      have hfull := firstFree_eq_none.mp hfree
      refine .inl ⟨.inr ⟨w, by simp [hifq], g, (hclass _).trans hg, hfull⟩, ?_⟩
      rw [allocate_of_full hfull, hstamped]
    | some j =>
      exact .inr (.inr ⟨w, rest, g, j, instr, hifq, by simp only [State.instrAt, hr], (hclass _).trans hg, hfree, rfl⟩)

/-- The record of the head after placing it, and of every other: every other occupant of a station was stamped in an
earlier cycle. -/
theorem placeHead_record {s : State} {w j : Nat} {rest : List Nat} {g : Group} {o : Operands}
    (hifq : s.ifq = w :: rest) (hfree : firstFree (s.stations g) = some j)
    (hissued : ∀ i, s.inStation i → (s.record i).tIssue ≠ 0) (hholds : s.mem.holds w) (hnew : (s.record w).tIssue = 0)
    (i : Nat) :
    (s.placeHead g o).record i =
      if i = w then (s.record i).placed s.cycle (s.sourceProducer o.src0) (s.sourceProducer o.src1)
        (s.sourceProducer o.src2) else s.record i := by
  obtain ⟨hself, hother, -, -, hstations, hstations', -, -, -, -, hcycle, -, -, hlen, -⟩ :=
    allocate_effect (o := o) hifq hholds hfree
  have mem_stations (k : Group) (i : Nat) : some i ∈ (s.allocate g o).stations k ↔
      (k = g ∧ i = w) ∨ some i ∈ s.stations k := by
    by_cases hk : k = g
    · subst hk
      rw [hstations, some_mem_set_of_free (firstFree_eq_some.mp hfree).1]
      simp
    · rw [hstations' k hk]
      simp [hk]
  by_cases hi : s.mem.holds i
  · have hi' : (s.allocate g o).mem.holds i := ⟨hi.1, hi.2.trans_eq hlen.symm⟩
    rw [State.placeHead, unstampedOccupantsGetTheIssueStamp _ i hi', hcycle]
    by_cases e : i = w
    · subst e
      rw [if_pos rfl, if_pos ⟨mem_stationed.mpr ⟨g, (mem_stations g i).mpr (.inl ⟨rfl, rfl⟩)⟩, by rw [hself]; exact hnew⟩,
        hself]
      rfl
    · rw [if_neg e, hother i e, if_neg]
      rintro ⟨hst, h0⟩
      obtain ⟨k, hk⟩ := mem_stationed.mp hst
      obtain ⟨-, rfl⟩ | hk := (mem_stations k i).mp hk
      · exact e rfl
      · exact hissued i ⟨k, hk⟩ h0
  · have e : i ≠ w := by
      rintro rfl
      exact hi hholds
    rw [if_neg e, ← hother i e]
    obtain ⟨m, hm, -, hmlen⟩ := stampIssue_frame (s.allocate g o)
    have zero {t : State} (ht : t.mem.recs.length = s.mem.recs.length) : t.record i = RecordState.zero :=
      record_of_not_holds fun ⟨h1, h2⟩ => hi ⟨h1, h2.trans_eq ht⟩
    rw [State.placeHead, zero (by rw [hm]; exact hmlen.trans hlen), zero hlen]

/-- What placing the head does to the other elements. -/
theorem placeHead_frame {s : State} {w j : Nat} {rest : List Nat} {g : Group} {o : Operands}
    (hifq : s.ifq = w :: rest) (hfree : firstFree (s.stations g) = some j) (hholds : s.mem.holds w) :
    SameInputs s (s.placeHead g o) ∧ (s.placeHead g o).ifq = rest ∧ (s.placeHead g o).fetchIndex = s.fetchIndex ∧
      (∀ k, (s.placeHead g o).stations k = if k = g then (s.stations k).set j (some w) else s.stations k) ∧
      (∀ k, (s.placeHead g o).units k = s.units k) ∧ (s.placeHead g o).cdb = s.cdb ∧
      (s.placeHead g o).cycle = s.cycle ∧ (s.placeHead g o).visit = s.visit ∧
      (∀ r < s.nRegs, (s.placeHead g o).producer r =
        if o.dst0 = .reg r ∨ o.dst1 = .reg r then some w else s.producer r) := by
  have hin := (allocate_sameInputs s g o).trans (stampIssue_sameInputs (s.allocate g o))
  obtain ⟨-, -, hmap, -, hstations, hstations', hq, hfuInt, hfuFp, hcdb, hcycle, hcursor, -, -, -, hvisit⟩ :=
    allocate_effect (o := o) hifq hholds hfree
  obtain ⟨m, hm, -⟩ := stampIssue_frame (s.allocate g o)
  have stations (k : Group) : (s.placeHead g o).stations k = (s.allocate g o).stations k := by
    rw [State.placeHead, hm]
    cases k <;> rfl
  refine ⟨hin, ?_, ?_, fun k => ?_, fun k => ?_, ?_, ?_, ?_, fun r hr => ?_⟩
  · rw [State.placeHead, hm]; exact hq
  · rw [State.placeHead, hm]; exact hcursor
  · rw [stations]
    split
    case isTrue hk => exact hk ▸ hstations
    case isFalse hk => exact hstations' k hk
  · rw [State.placeHead, hm]
    cases k
    · exact hfuInt
    · exact hfuFp
  · rw [State.placeHead, hm]; exact hcdb
  · rw [State.placeHead, hm]; exact hcycle
  · rw [State.placeHead, hm]; exact hvisit
  · rw [State.placeHead, hm]; exact hmap r hr

theorem SlotInv.issued {b : Nat} {s : State} (h : SlotInv b s) {i : Nat} (hi : s.inStation i) :
    (s.record i).tIssue ≠ 0 := by
  obtain ⟨g, hg⟩ := hi
  obtain ⟨-, -, -, hissue, -⟩ := h.station g i hg
  exact hissue

theorem Group.takes_station (g : Group) (c : OpClass) (h : g.takes c = true) : (c.isInt || c.isFp) = true := by
  cases g <;> simp_all [Group.takes]

theorem classHas_mono {s : State} {P Q : OpClass → Bool} {i : Nat} (hPQ : ∀ c, P c = true → Q c = true)
    (h : s.classHas P i = true) : s.classHas Q i = true := by
  obtain ⟨c, hc, hall⟩ := exists_class h
  rw [hall, hPQ c hc]

/-- The head of the queue has been placed in a station. -/
theorem placeHead_cycleInv {c j w : Nat} {rest : List Nat} {g : Group} {instr : Instr} {s : State}
    (h : BeforeDispatch c (c + 1) (c + 1) s) (hifq : s.ifq = w :: rest) (hinstr : s.instrAt w = some instr)
    (hclass : s.classHas g.takes w = true) (hfree : firstFree (s.stations g) = some j) :
    CycleInv c (c + 1) (c + 1) (c + 1) (s.placeHead g instr.operands) := by
  obtain ⟨hwf, hv, hc⟩ := h.inv.shape
  have hrecords := h.inv.records
  obtain ⟨hle, hascend, hmem, -⟩ := hrecords.queue
  have hwq : w ∈ s.ifq := by rw [hifq]; exact List.mem_cons_self
  obtain ⟨hw1, hwle, -⟩ := hmem w hwq
  obtain ⟨hnew, hexec, hcdb⟩ := hrecords.queued w hwq
  have hholds : s.mem.holds w := (holds_iff_of_wf hwf w).mpr ⟨hw1, hwle.trans hle⟩
  have hrest : ∀ q ∈ rest, w < q := by
    rw [hifq] at hascend
    exact (List.pairwise_cons.mp hascend).1
  have hissued : ∀ i ≤ s.size, (s.record i).tIssue ≠ 0 → i < w := fun i hi hne =>
    hrecords.inOrder.2.2.1 i hi hne w hwq
  have hc0 : c ≠ 0 := Nat.ne_of_gt (h.cycle ▸ hc)
  have hrec := placeHead_record (o := instr.operands) hifq hfree (fun i hi => h.inv.slots.issued hi) hholds hnew
  rw [h.cycle] at hrec
  obtain ⟨hin, hq, hcursor, hstations, hunits, hbus, hcycle, hvisit, hmap⟩ :=
    placeHead_frame (o := instr.operands) hifq hfree hholds
  have htail : s.ifq.tail = rest := by rw [hifq]; rfl
  refine ⟨⟨by simpa [Memory.wf, hin.1, hin.2.1] using hwf, hvisit.trans hv, by rwa [hcycle]⟩, ?records, ?slots, ?map⟩
  case records =>
    exact RecordInv.place (s := { s with ifq := s.ifq.tail }) hrecords.popHead h.inv.map hin
      ⟨hq.trans htail.symm, hcursor⟩ hrec hinstr (classHas_mono g.takes_station hclass) hwle
      (fun q hq => hrest q (htail ▸ hq)) hissued (h.head w (by simp [hifq])) hexec hcdb hc0
  case slots =>
    refine h.inv.slots.place hin hifq hq hcursor hclass (firstFree_eq_some.mp hfree).1 hstations hunits hbus
      (fun i => ⟨_, _, _, hrec i⟩) hc0 ⟨hw1, hwle⟩ hrest ⟨hexec, hcdb⟩ fun i hi => ?_
    obtain ⟨-, -, hstamp, -⟩ := h.inv.slots.bus i hi
    omega
  case map =>
    refine mapInv_place h.inv.map hin hcursor hinstr ⟨hw1, hwle⟩ (fun i => ?_) hc0 hissued hmap
    rw [hrec]
    split <;> rfl

theorem dispatchToIssue_cycleInv {c : Nat} {s t : State} (h : BeforeDispatch c (c + 1) (c + 1) s)
    (ht : dispatchToIssue s = .next t) (hfatal : t.fatal = none) : CycleInv c (c + 1) (c + 1) (c + 1) t := by
  obtain ⟨-, rfl⟩ | ⟨w, rest, hifq, hclass, rfl⟩ | ⟨w, rest, g, j, instr, hifq, hinstr, hclass, hfree, rfl⟩ :=
    dispatchToIssue_cases h.inv.shape.2.1 (fun i hi => h.inv.slots.issued hi) ht hfatal
  · exact { h.inv with records := h.inv.records.mono (Nat.le_refl _) (Nat.le_succ c) (Nat.le_refl _) (Nat.le_refl _) }
  · exact
      { shape := h.inv.shape
        records := h.inv.records.popHead.mono (Nat.le_refl _) (Nat.le_succ c) (Nat.le_refl _) (Nat.le_refl _)
        slots := h.inv.slots.discard hifq hclass (h.head w (by simp [hifq]))
        map := h.inv.map }
  · exact placeHead_cycleInv h hifq hinstr hclass hfree

/-! ### The fetch stage and the end of the cycle -/

theorem CycleInv.fetched {d u e b k : Nat} {s : State} (h : CycleInv d u e b s) (htraps : s.trapsAhead k)
    (hclass : s.classHas (fun c => !c.isTrap) (s.fetchIndex + k + 1) = true)
    (hguard : s.fetchGuard Config.ifqBound = true) : CycleInv d u e b (s.fetched k) where
  shape := h.shape
  records := h.records.fetched hclass (fetchGuard_eq_true.mp hguard).1
  slots := h.slots.fetched htraps hclass h.records.unfetched
  map := mapInv_mono (t := s.fetched k) h.map (SameInputs.refl s) (by simp only [State.fetched]; omega) (fun _ => rfl)
    fun _ _ h => h

theorem CycleInv.stampHead {c u e b : Nat} {s : State} (h : CycleInv c u e b s) (hc : s.cycle = c) :
    CycleInv (c + 1) u e b (stampHead s) ∧ (stampHead s).HeadStamped := by
  obtain ⟨hwf, hv, hc1⟩ := h.shape
  obtain ⟨m, hm, htrace, hlen⟩ := stampHead_frame s
  have hrec := stampHead_record s
  refine ⟨⟨?shape, h.records.stampHead hc hwf, h.slots.stampHead h.records.queue, ?map⟩, ?head⟩
  case shape =>
    rw [hm]
    exact ⟨by rw [Memory.wf, htrace, hlen]; exact hwf, hv, hc1⟩
  case map =>
    refine mapInv_mono h.map (stampHead_sameInputs s) (stampHead_sameQueue s).2.ge (fun i => ?_) fun r p hp => ?_
    · rw [hrec]
      split <;> rfl
    · rw [hm] at hp
      exact hp
  case head =>
    intro i hi
    rw [(stampHead_sameQueue s).1] at hi
    obtain ⟨hle, -, hmem, -⟩ := h.records.queue
    obtain ⟨h1, h2, -⟩ := hmem i (List.mem_of_head? hi)
    have hholds : s.mem.holds i := (holds_iff_of_wf hwf i).mpr ⟨h1, h2.trans hle⟩
    rw [hrec]
    by_cases h0 : (s.record i).tDisp = 0
    · rw [if_pos ⟨hi, hholds, h0⟩]
      exact Nat.ne_of_gt hc1
    · rw [if_neg fun e => h0 e.2.2]
      exact h0

theorem fetchToDispatch_cycleInv {c : Nat} {s t : State} (h : CycleInv c (c + 1) (c + 1) (c + 1) s) (hc : s.cycle = c)
    (hs : s.fatal = none) (ht : fetchToDispatch Config.ifqBound s = .next t) (hfatal : t.fatal = none) :
    CycleInv (c + 1) (c + 1) (c + 1) (c + 1) t ∧ t.HeadStamped := by
  obtain ⟨-, hne⟩ | ⟨u, hu, hufatal, rfl⟩ := fetchToDispatch_eq_next.mp ht
  · exact absurd hfatal hne
  obtain ⟨-, rfl⟩ | ⟨hguard, ⟨k, htraps, hclass, rfl⟩ | ⟨-, rfl⟩⟩ := fetchPart_eq_next h.shape.2.1 hs hu
  · exact h.stampHead hc
  · exact (h.fetched htraps hclass hguard).stampHead hc
  · exact absurd hufatal (raiseFatal_fatal_ne_none _ _)

theorem CycleInv.tick {d u e b : Nat} {s : State} (h : CycleInv d u e b s) : CycleInv d u e b s.tick := by
  obtain ⟨⟨hwf, hv, hc⟩, ⟨h1, h2, h3, h4, h5, h6, h7, h8, h9, h10, h11, h12⟩,
    ⟨k1, k2, k3, k4, k5, k6, k7, k8, k9, k10⟩, hmap⟩ := h
  exact ⟨⟨hwf, hv, Nat.le_succ_of_le hc⟩, ⟨h1, h2, h3, h4, h5, h6, h7, h8, h9, h10, h11, h12⟩,
    ⟨k1, k2, k3, k4, k5, k6, k7, k8, k9, k10⟩, hmap⟩

/-! ### The step -/

/-- The states after stages 2, 4 and 5 of a cycle from `s` that is not fatal, each with the invariant of its place. -/
structure CycleTrace (s s2 s4 s5 : State) : Prop where
  run2 : executeToCdb (cdbToRetire s) = .next s2
  run4 : dispatchToIssue (issueToExecute s2) = .next s4
  run5 : fetchToDispatch Config.ifqBound s4 = .next s5
  fatal2 : s2.fatal = none
  fatal4 : s4.fatal = none
  fatal5 : s5.fatal = none
  inv1 : BeforeDispatch s.cycle s.cycle s.cycle (cdbToRetire s)
  cdb1 : (cdbToRetire s).cdb = none
  inv2 : BeforeDispatch s.cycle s.cycle (s.cycle + 1) s2
  inv3 : BeforeDispatch s.cycle (s.cycle + 1) (s.cycle + 1) (issueToExecute s2)
  inv4 : CycleInv s.cycle (s.cycle + 1) (s.cycle + 1) (s.cycle + 1) s4
  cycle4 : s4.cycle = s.cycle
  inv5 : CycleInv (s.cycle + 1) (s.cycle + 1) (s.cycle + 1) (s.cycle + 1) s5
  cycle5 : s5.cycle = s.cycle
  head5 : s5.HeadStamped

theorem cycleWith_trace {s t : State} (h : s.PipelineInv) (hcycle : cycleWith Config.ifqBound s = .next t)
    (hfatal : t.fatal = none) : ∃ s2 s4 s5, CycleTrace s s2 s4 s5 ∧ t = s5.tick := by
  obtain ⟨s2, s4, s5, h2, hf2, h4, hf4, h5, hf5, rfl⟩ := cycleWith_stages hcycle hfatal
  have b1 := cdbToRetire_beforeDispatch h.beforeDispatch
  have hcdb := cdbToRetire_cdb h.beforeDispatch
  have b2 := executeToCdb_beforeDispatch b1 hcdb h2 hf2
  have b3 := issueToExecute_beforeDispatch b2
  have i4 := dispatchToIssue_cycleInv b3 h4 hf4
  have c4 : s4.cycle = s.cycle := (sameCycle_actionRel.dispatchToIssue h4).trans b3.cycle
  obtain ⟨i5, head5⟩ := fetchToDispatch_cycleInv i4 c4 hf4 h5 hf5
  have c5 : s5.cycle = s.cycle := (sameCycle_actionRel.fetchToDispatch h5).trans c4
  exact ⟨s2, s4, s5, ⟨h2, h4, h5, hf2, hf4, hf5, b1, hcdb, b2, b3, i4, c4, i5, c5, head5⟩, rfl⟩

/-- Settles O46: a step is an ended run that stays, or a cycle, whose stages keep `CycleInv`; the increment of the counter
turns the bounds of the end of the cycle into those between cycles. -/
theorem stepKeepsPipelineInvariant : Obligations.StepKeepsPipelineInvariant := by
  intro s t h hstep hfatal
  obtain ⟨-, ⟨-, rfl⟩ | ⟨-, hcycle⟩⟩ := stepWith_eq_next hstep
  · exact h
  obtain ⟨s2, s4, s5, htrace, rfl⟩ := cycleWith_trace h hcycle hfatal
  refine CycleInv.pipelineInv ?_ htrace.head5
  have hnext : s5.tick.cycle = s.cycle + 1 := congrArg (· + 1) htrace.cycle5
  rw [hnext]
  exact htrace.inv5.tick

/-- Settles O41. -/
theorem stepKeepsSlotOccupancy : Obligations.StepKeepsSlotOccupancy := by
  intro s t h hstep hfatal
  obtain ⟨-, -, -, hstation, hunit, -⟩ := stepKeepsPipelineInvariant s t h hstep hfatal
  exact ⟨hstation, hunit⟩

/-- Settles O42. -/
theorem stepKeepsStampOrder : Obligations.StepKeepsStampOrder := by
  intro s t h hstep hfatal
  obtain ⟨-, -, -, -, -, hstamp, -⟩ := stepKeepsPipelineInvariant s t h hstep hfatal
  exact hstamp

/-- Settles O43. -/
theorem stepKeepsFrontEndOrder : Obligations.StepKeepsFrontEndOrder := by
  intro s t h hstep hfatal
  obtain ⟨-, -, hfront, -, -, -, -, hinOrder, -⟩ := stepKeepsPipelineInvariant s t h hstep hfatal
  exact ⟨hfront, hinOrder⟩

/-- Settles O44. -/
theorem stepKeepsMapAndDependencyLaw : Obligations.StepKeepsMapAndDependencyLaw := by
  intro s t h hstep hfatal
  obtain ⟨-, -, -, -, -, -, -, -, hmap, hdep, -⟩ := stepKeepsPipelineInvariant s t h hstep hfatal
  exact ⟨hmap, hdep⟩

/-- Settles O45. -/
theorem stepKeepsBusConsistency : Obligations.StepKeepsBusConsistency := by
  intro s t h hstep hfatal
  obtain ⟨-, -, -, -, -, -, -, -, -, -, hbus, hbroadcast, -⟩ := stepKeepsPipelineInvariant s t h hstep hfatal
  exact ⟨hbus, hbroadcast⟩

/-- Settles O49: it is the dependency law of the state after the step. -/
theorem noSameCycleForwarding : Obligations.NoSameCycleForwarding := by
  intro s t i h hstep hfatal _ hstarted p hp
  obtain ⟨hshape, -, -, -, -, -, -, -, -, hdep, -⟩ := stepKeepsPipelineInvariant s t h hstep hfatal
  have hi : i ≤ t.size := by
    by_contra hlt
    exact hstarted (congrArg RecordState.tExec (record_of_not_holds (t := t) fun hholds =>
      hlt ((holds_iff_of_wf hshape.1 i).mp hholds).2))
  obtain ⟨-, -, -, -, hlaw⟩ := State.DepInv.of_mem hdep hi hp
  exact hlaw hstarted

end Sys2Proof.Machine
end

section

/-! # Proofs: map-table producers of a well-formed trace stay live (spec/47_invariants.md R237) -/

namespace Sys2Proof.Machine

/-- Every map-table producer is in a station or on the bus. -/
def State.MapLive (s : State) : Prop := ∀ r p, s.producer r = some p → s.inStation p ∨ s.cdb = some p

theorem producer_eq_some {s : State} {r p : Nat} : s.producer r = some p ↔ s.mapTable[r]? = some (some p) := by
  unfold State.producer
  cases s.mapTable[r]? <;> simp

theorem lt_nRegs_of_producer {s : State} {r p : Nat} (h : s.producer r = some p) : r < s.nRegs :=
  (List.getElem?_eq_some_iff.mp (producer_eq_some.mp h)).1

theorem liveMapInv_iff {s : State} : s.LiveMapInv ↔ s.MapLive := by
  constructor
  · intro h r p hr
    have hp := h p (mem_occupants.mpr (List.mem_of_getElem? (producer_eq_some.mp hr)))
    rwa [mem_stationed] at hp
  · intro h p hp
    obtain ⟨r, hr⟩ := List.mem_iff_getElem?.mp (mem_occupants.mp hp)
    rw [mem_stationed]
    exact h r p (producer_eq_some.mpr hr)

/-- In a well-formed trace a record with a destination is no store (R308). -/
def State.noStoreDest (s : State) : Prop := ∀ p r, s.namesDest p r = true → s.classHas (· == .store) p = false

theorem word_mem_trace {m : Memory} {i : Nat} {w : TraceWord} (h : m.word i = some w) : w ∈ m.trace := by
  cases i with
  | zero => cases h
  | succ n => exact List.mem_of_getElem? h

theorem noStoreDest_of_traceOk {s : State} (h : s.traceOk = true) : s.noStoreDest := by
  intro p r hdst
  simp only [State.traceOk, traceWellFormed, Bool.and_eq_true, List.all_eq_true] at h
  cases hread : s.traceRead p with
  | none => simp [State.namesDest, State.instrAt, hread] at hdst
  | some x =>
    cases x with
    | error e => simp [State.namesDest, State.instrAt, hread] at hdst
    | ok i =>
      obtain ⟨w, hw, hdecode⟩ := Option.map_eq_some_iff.mp hread
      have hwf := h.1 w (word_mem_trace hw)
      rw [wordWellFormed, hdecode] at hwf
      simp only [State.namesDest, State.instrAt, hread, Bool.or_eq_true, decide_eq_true_eq] at hdst
      rw [classHas_of_traceRead hread]
      by_contra hstore
      have hstore : i.cls = .store := by simpa using hstore
      simp only [hstore, bne_self_eq_false, Bool.false_or, Bool.and_eq_true, beq_iff_eq] at hwf
      rw [hwf.1, hwf.2] at hdst
      simp at hdst

theorem SameInputs.noStoreDest {s t : State} (hin : SameInputs s t) (h : s.noStoreDest) : t.noStoreDest := by
  simpa only [State.noStoreDest, hin.namesDest, hin.classHas] using h

/-- A non-writer of a station class is a store. -/
theorem isStore_of_leaves (g : Group) (c : OpClass) (hg : g.takes c = true) (hw : c.writesResult = false) :
    (c == .store) = true := by
  cases g <;> cases c <;> simp_all [Group.takes, OpClass.isInt, OpClass.isFp, OpClass.writesResult]

/-- The bus occupant goes from the map table with the bus (R201). -/
theorem cdbToRetire_mapLive {c e : Nat} {s : State} (h : BeforeDispatch c e c s) (hlive : s.MapLive) :
    (cdbToRetire s).MapLive := by
  intro r p hp
  obtain ⟨-, -, -, -, hstations, -⟩ := cdbToRetire_frame s
  have hnone := cdbToRetire_cdb h
  have hold := hlive r p (cdbToRetire_producer hp)
  simp only [State.inStation, hstations] at hold ⊢
  refine .inl (hold.resolve_right fun hbus => ?_)
  obtain ⟨-, e⟩ | ⟨i, hi, -, e⟩ := cdbToRetire_cases s
  · rw [e, hbus] at hnone
    cases hnone
  · rw [hbus] at hi
    cases hi
    rw [e, producer_clear] at hp
    split at hp
    case isTrue => cases hp
    case isFalse hne => exact hne hp

theorem releaseSlots_mapLive {c : Nat} {s : State} {g : Group} {i : Nat} (h : BeforeDispatch c c c s)
    (hlive : s.MapLive) (hstores : s.noStoreDest) (hi : some i ∈ s.units g) (hl : s.leaves g i) :
    (s.releaseSlots g i).MapLive := by
  intro r p hp
  replace hp : s.producer r = some p := by simpa [State.producer] using hp
  obtain ⟨hstation, -⟩ := h.inv.slots.unit g i hi
  have hne : p ≠ i := by
    rintro rfl
    obtain ⟨-, -, hdst, -⟩ := h.inv.map r (lt_nRegs_of_producer hp) p hp
    obtain ⟨cl, hcl, hall⟩ := exists_class (h.inv.slots.station_class g p hstation)
    have hwrites := hl.2
    have hstore := hstores p r hdst
    rw [hall] at hwrites hstore
    rw [isStore_of_leaves g cl hcl hwrites] at hstore
    cases hstore
  rw [releaseSlots_cdb]
  refine (hlive r p hp).imp_left fun ⟨k, hk⟩ => ⟨k, ?_⟩
  rw [releaseSlots_stations]
  split
  · exact some_mem_clearRef.mpr ⟨hk, hne⟩
  · exact hk

/-- The winner is on the bus, every other producer keeps its station. -/
theorem broadcast_mapLive {s : State} {g : Group} {w : Nat} (hlive : s.MapLive) (hcdb : s.cdb = none) :
    (s.broadcast g w).MapLive := by
  intro r p hp
  replace hp : s.producer r = some p := by simpa [State.producer] using hp
  rw [broadcast_cdb]
  by_cases hne : p = w
  · exact .inr (congrArg some hne.symm)
  · obtain ⟨k, hk⟩ := (hlive r p hp).resolve_right (by rw [hcdb]; nofun)
    exact .inl ⟨k, (some_mem_broadcast_stations hne k).mpr hk⟩

theorem executeToCdb_mapLive {c : Nat} {s t : State} (h : BeforeDispatch c c c s) (hcdb : s.cdb = none)
    (hlive : s.MapLive) (hstores : s.noStoreDest) (ht : executeToCdb s = .next t) (hfatal : t.fatal = none) :
    t.MapLive := by
  obtain ⟨u, ⟨-, hucdb, hulive, -⟩, -, ⟨-, rfl⟩ | ⟨w, -, -, rfl⟩⟩ :=
    executeToCdb_induct (P := fun u => BeforeDispatch c c c u ∧ u.cdb = none ∧ u.MapLive ∧ u.noStoreDest)
      (fun u g i ⟨hu, hucdb, hulive, hustores⟩ hi hl =>
        ⟨releaseSlots_beforeDispatch hu hucdb hi hl, (releaseSlots_cdb ..).trans hucdb,
          releaseSlots_mapLive hu hulive hustores hi hl, (releaseSlots_sameInputs u g i).noStoreDest hustores⟩)
      h.inv.shape.2.1 ⟨h, hcdb, hlive, hstores⟩ ht hfatal
  · exact hulive
  · exact broadcast_mapLive hulive hucdb

theorem mapLive_congr {s t : State} (h : s.MapLive) (hmap : t.mapTable = s.mapTable) (hcdb : t.cdb = s.cdb)
    (hstations : ∀ g, t.stations g = s.stations g) : t.MapLive := by
  simpa only [State.MapLive, State.producer, State.inStation, hmap, hcdb, hstations] using h

theorem issueToExecute_mapLive {s : State} (h : s.MapLive) : (issueToExecute s).MapLive := by
  have slot (g : Group) (u : State) (k : Nat) (hu : u.MapLive) : (issueSlot g u k).MapLive := by
    obtain e | ⟨i, -, -, e⟩ := issueSlot_cases g u k <;> rw [e]
    · exact hu
    · exact mapLive_congr hu (assignUnit_mapTable ..) (assignUnit_cdb ..) fun l => assignUnit_stations u g l k i
  exact issueGroup_induct (slot .fp) (issueGroup_induct (slot .int) h)

/-- The new producer is in the station it took. -/
theorem dispatchToIssue_mapLive {c : Nat} {s t : State} (h : BeforeDispatch c (c + 1) (c + 1) s) (hlive : s.MapLive)
    (ht : dispatchToIssue s = .next t) (hfatal : t.fatal = none) : t.MapLive := by
  obtain ⟨-, rfl⟩ | ⟨w, rest, hifq, hclass, rfl⟩ | ⟨w, rest, g, j, instr, hifq, hinstr, hclass, hfree, rfl⟩ :=
    dispatchToIssue_cases h.inv.shape.2.1 (fun i hi => h.inv.slots.issued hi) ht hfatal
  · exact hlive
  · exact hlive
  · obtain ⟨hle, -, hmem, -⟩ := h.inv.records.queue
    obtain ⟨h1, h2, -⟩ := hmem w (by simp [hifq])
    have hholds : s.mem.holds w := (holds_iff_of_wf h.inv.shape.1 w).mpr ⟨h1, h2.trans hle⟩
    obtain ⟨hin, -, -, hstations, -, hcdb, -, -, hmap⟩ := placeHead_frame (o := instr.operands) hifq hfree hholds
    have hslot := (firstFree_eq_some.mp hfree).1
    intro r p hp
    have hr := lt_nRegs_of_producer hp
    rw [hin.nRegs] at hr
    rw [hmap r hr] at hp
    rw [hcdb]
    split at hp
    case isTrue =>
      cases hp
      refine .inl ⟨g, ?_⟩
      rw [hstations, if_pos rfl]
      exact (some_mem_set_of_free hslot).mpr (.inl rfl)
    case isFalse =>
      refine (hlive r p hp).imp_left fun ⟨k, hk⟩ => ⟨k, ?_⟩
      rw [hstations]
      split
      case isTrue e => exact (some_mem_set_of_free (e ▸ hslot)).mpr (.inr hk)
      case isFalse => exact hk

theorem stampHead_mapLive {s : State} (h : s.MapLive) : (stampHead s).MapLive := by
  obtain ⟨m, hm, -⟩ := stampHead_frame s
  rw [hm]
  exact mapLive_congr h rfl rfl fun g => by cases g <;> rfl

theorem fetchToDispatch_mapLive {b : Nat} {s t : State} (hv : s.visit = .fetch) (hs : s.fatal = none) (h : s.MapLive)
    (ht : fetchToDispatch b s = .next t) (hfatal : t.fatal = none) : t.MapLive := by
  obtain ⟨-, hne⟩ | ⟨u, hu, hufatal, rfl⟩ := fetchToDispatch_eq_next.mp ht
  · exact absurd hfatal hne
  obtain ⟨-, rfl⟩ | ⟨-, ⟨k, -, -, rfl⟩ | ⟨-, rfl⟩⟩ := fetchPart_eq_next hv hs hu
  · exact stampHead_mapLive h
  · exact stampHead_mapLive (mapLive_congr (t := s.fetched k) h rfl rfl fun g => by cases g <;> rfl)
  · exact absurd hufatal (raiseFatal_fatal_ne_none _ _)

/-- Settles O47: the bus occupant leaves the map with the bus, a store has no map entry to leave behind, a winner goes to
the bus, and the head becomes a producer as it takes a station. -/
theorem stepKeepsMapProducersLive : Obligations.StepKeepsMapProducersLive := by
  intro s t h htraceOk hlive hstep hfatal
  obtain ⟨-, ⟨-, rfl⟩ | ⟨-, hcycle⟩⟩ := stepWith_eq_next hstep
  · exact hlive
  obtain ⟨s2, s4, s5, htr, rfl⟩ := cycleWith_trace h hcycle hfatal
  have hstores := (cdbToRetire_sameInputs s).noStoreDest (noStoreDest_of_traceOk htraceOk)
  have live1 := cdbToRetire_mapLive h.beforeDispatch (liveMapInv_iff.mp hlive)
  have live2 := executeToCdb_mapLive htr.inv1 htr.cdb1 live1 hstores htr.run2 htr.fatal2
  have live4 := dispatchToIssue_mapLive htr.inv3 (issueToExecute_mapLive live2) htr.run4 htr.fatal4
  have live5 := fetchToDispatch_mapLive htr.inv4.shape.2.1 htr.fatal4 live4 htr.run5 htr.fatal5
  exact liveMapInv_iff.mpr live5

end Sys2Proof.Machine
end

section

/-! # Proofs: which steps are fatal and which are refused (spec/60_exceptions.md R262, spec/46_driver.md R217) -/

namespace Sys2Proof.Machine

/-! ### Fatal conditions -/

/-- Record `i` exists, so a finished occupant's visit raises nothing. -/
theorem completeSlot_fatal {c : Nat} {s t : State} {g : Group} {k : Nat} (h : BeforeDispatch c c c s)
    (ht : completeSlot g k s = .next t) : t.fatal = s.fatal := by
  obtain ⟨-, e⟩ | ⟨i, hi, -, e⟩ := completeSlot_cases g k s <;> rw [e] at ht
  · cases ht
    rfl
  obtain ⟨hnone, -⟩ | ⟨instr, u, -, hu, rfl⟩ := visitRecord_eq_next.mp ht
  · obtain ⟨hstation, -⟩ := h.inv.slots.unit g i (List.mem_of_getElem? hi)
    obtain ⟨h1, hle, -⟩ := h.inv.slots.station g i hstation
    have := (traceRead_isSome_iff s i).mpr ⟨h1, hle.trans h.inv.records.queue.1⟩
    rw [hnone] at this
    cases this
  · rw [exec_at_complete rfl] at hu
    cases hu
    split
    · rfl
    · exact releaseSlots_fatal ..

theorem completeSlot_beforeDispatch {c : Nat} {s t : State} {g : Group} {k : Nat} (h : BeforeDispatch c c c s)
    (hcdb : s.cdb = none) (ht : completeSlot g k s = .next t) (hfatal : t.fatal = none) :
    BeforeDispatch c c c t ∧ t.cdb = none := by
  have hv := h.inv.shape.2.1
  obtain ⟨-, rfl | rfl⟩ | ⟨i, hi, hl, rfl⟩ := completeSlot_eq_next ht hfatal
  · exact ⟨h, hcdb⟩
  · rw [withVisit_eq_self hv]
    exact ⟨h, hcdb⟩
  · rw [withVisit_eq_self ((releaseSlots_visit ..).trans hv)]
    exact ⟨releaseSlots_beforeDispatch h hcdb (List.mem_of_getElem? hi) hl, (releaseSlots_cdb ..).trans hcdb⟩

/-- The invariant of stage 2, with no fatal mark. -/
def CompletionReady (c : Nat) (s : State) : Prop := BeforeDispatch c c c s ∧ s.cdb = none ∧ s.fatal = none

theorem completeGroup_ready {c : Nat} {g : Group} {s t : State} (h : CompletionReady c s)
    (ht : completeGroup g s = .next t) : CompletionReady c t := by
  refine forSlots_induct (P := CompletionReady c) (fun k u v ⟨hu, hcdb, hfatal⟩ _ hv => ?_) h ht
  have hvfatal : v.fatal = none := (completeSlot_fatal hu hv).trans hfatal
  obtain ⟨hinv, hvcdb⟩ := completeSlot_beforeDispatch hu hcdb hv hvfatal
  exact ⟨hinv, hvcdb, hvfatal⟩

theorem executeToCdb_fatal {c : Nat} {s t : State} (h : CompletionReady c s) (ht : executeToCdb s = .next t) :
    t.fatal = none := by
  have arb {u : State} (hu : CompletionReady c u) (ht : arbitrate u = .next t) : t.fatal = none := by
    obtain ⟨-, -, hfatal⟩ := hu
    obtain ⟨-, e⟩ | ⟨w, -, -, e⟩ := arbitrate_eq u <;> rw [e] at ht <;> cases ht
    · exact hfatal
    · exact (broadcast_fatal ..).trans hfatal
  have groups {u : State} (hu : thenStage (completeGroup .int s) (completeGroup .fp) = .next u) :
      CompletionReady c u := by
    obtain ⟨hint, -⟩ | ⟨v, hint, -, hfp⟩ := thenStage_eq_next.mp hu
    · exact completeGroup_ready h hint
    · exact completeGroup_ready (completeGroup_ready h hint) hfp
  obtain ⟨hu, hne⟩ | ⟨u, hu, -, ht⟩ := thenStage_eq_next.mp ht
  · exact absurd (groups hu).2.2 hne
  · exact arb (groups hu) ht

theorem issueToExecute_fatal (s : State) : (issueToExecute s).fatal = s.fatal := by
  have slot (g : Group) (u : State) (k : Nat) (hu : u.fatal = s.fatal) : (issueSlot g u k).fatal = s.fatal := by
    obtain e | ⟨i, -, -, e⟩ := issueSlot_cases g u k <;> rw [e]
    · exact hu
    · exact (assignUnit_fatal ..).trans hu
  exact issueGroup_induct (P := fun u => u.fatal = s.fatal) (slot .fp)
    (issueGroup_induct (P := fun u => u.fatal = s.fatal) (slot .int) rfl)

theorem stampIssue_fatal (s : State) : (stampIssue s).fatal = s.fatal := by
  obtain ⟨m, hm, -⟩ := stampIssue_frame s
  rw [hm]

theorem allocate_fatal (s : State) (g : Group) (o : Operands) : (s.allocate g o).fatal = s.fatal := by
  obtain ⟨-, e⟩ | ⟨_, _, -, -, e⟩ | ⟨_, _, _, -, -, e⟩ := allocate_cases s g o <;> rw [e]
  simp

/-- The queue holds records that exist and are no traps. -/
theorem dispatchHead_fatal {s t : State} (h : s.QueueInv) (ht : dispatchHead s = .next t) : t.fatal = s.fatal := by
  obtain ⟨-, e⟩ | ⟨w, q, hifq, e⟩ := dispatchHead_cases s <;> rw [e] at ht
  · cases ht
    rfl
  obtain ⟨hle, -, hmem, -⟩ := h
  obtain ⟨-, -, hclass⟩ := hmem w (by simp [hifq])
  obtain ⟨hnone, -⟩ | ⟨instr, u, hr, hu, rfl⟩ := visitRecord_eq_next.mp ht
  · obtain ⟨instr, hr, -⟩ := classHas_eq_true.mp hclass
    rw [hnone] at hr
    cases hr
  · rw [classHas_of_traceRead hr] at hclass
    obtain htrap | hbranch | ⟨g, hg⟩ := trap_or_branch_or_taken instr.cls
    · rw [htrap] at hclass
      cases hclass
    · rw [exec_at_dispatch rfl, if_pos hbranch] at hu
      cases hu
      rfl
    · rw [exec_eq_allocate (g := g) rfl (by rintro rfl; exact hg) (by rintro rfl; exact hg)] at hu
      cases hu
      exact allocate_fatal ..

theorem dispatchToIssue_fatal {s t : State} (h : s.QueueInv) (hs : s.fatal = none)
    (ht : dispatchToIssue s = .next t) : t.fatal = none := by
  obtain ⟨hd, -⟩ | ⟨u, hd, hu, rfl⟩ := dispatchToIssue_eq_next.mp ht
  · exact (dispatchHead_fatal h hd).trans hs
  · exact (stampIssue_fatal u).trans hu

theorem stampHead_fatal (s : State) : (stampHead s).fatal = s.fatal := by
  obtain ⟨m, hm, -⟩ := stampHead_frame s
  rw [hm]

theorem fetchToDispatch_fatal {b : Nat} {s t : State} (hv : s.visit = .fetch) (hs : s.fatal = none)
    (ht : fetchToDispatch b s = .next t) (hfatal : t.fatal ≠ none) :
    t.fatal = some .traceOverrun ∧ s.classHas OpClass.isTrap s.size = true := by
  obtain ⟨hpart, -⟩ | ⟨u, -, hu, rfl⟩ := fetchToDispatch_eq_next.mp ht
  · obtain ⟨-, rfl⟩ | ⟨hguard, ⟨k, -, -, rfl⟩ | ⟨htraps, rfl⟩⟩ := fetchPart_eq_next hv hs hpart
    · exact absurd hs hfatal
    · exact absurd hs hfatal
    · have hlt := (fetchGuard_eq_true.mp hguard).2
      exact ⟨raiseFatal_fatal_of_none hs _, htraps s.size hlt (by omega)⟩
  · exact absurd ((stampHead_fatal u).trans hu) hfatal

/-- Settles O50: stages 2 and 4 visit only records that exist and can act there; the fetch stage raises the overrun when
nothing but traps is left. -/
theorem onlyATrailingTrapIsFatal : Obligations.OnlyATrailingTrapIsFatal := by
  intro s t h hstep hfatal
  obtain ⟨hs, ⟨-, rfl⟩ | ⟨-, hcycle⟩⟩ := stepWith_eq_next hstep
  · exact absurd hs hfatal
  obtain ⟨-, -, -, hretire, -⟩ := cdbToRetire_frame s
  have ready : CompletionReady s.cycle (cdbToRetire s) :=
    ⟨cdbToRetire_beforeDispatch h.beforeDispatch, cdbToRetire_cdb h.beforeDispatch, hretire.trans hs⟩
  obtain ⟨h2, -⟩ | ⟨s2, h2, hf2, hcycle⟩ := cycleWith_eq_next hcycle
  · exact absurd (executeToCdb_fatal ready h2) hfatal
  have inv3 := issueToExecute_beforeDispatch (executeToCdb_beforeDispatch ready.1 ready.2.1 h2 hf2)
  have hf3 : (issueToExecute s2).fatal = none := (issueToExecute_fatal s2).trans hf2
  obtain ⟨h4, -⟩ | ⟨s4, h4, hf4, hcycle⟩ := hcycle
  · exact absurd (dispatchToIssue_fatal inv3.inv.records.queue hf3 h4) hfatal
  have inv4 := dispatchToIssue_cycleInv inv3 h4 hf4
  obtain ⟨h5, -⟩ | ⟨s5, -, hf5, rfl⟩ := hcycle
  · have hin := (beforeDispatch_sameInputs h2).trans (dispatchToIssue_sameInputs h4)
    obtain ⟨hreason, htrap⟩ := fetchToDispatch_fatal inv4.shape.2.1 hf4 h5 hfatal
    rw [hin.size, hin.classHas] at htrap
    exact ⟨hreason, htrap⟩
  · exact absurd hf5 hfatal

/-! ### Refusals -/

/-- Every word of the trace is a record. -/
def State.Decodes (s : State) : Prop := ∀ i e, s.traceRead i ≠ some (.error e)

theorem SameInputs.decodes {s t : State} (hin : SameInputs s t) (h : s.Decodes) : t.Decodes := fun i e => by
  rw [hin.traceRead]
  exact h i e

theorem visitRecord_answers {s : State} (h : s.Decodes) (v : Visit) (i : Nat) : ∃ t, visitRecord v i s = .next t := by
  unfold visitRecord
  rcases hr : s.traceRead i with _ | ⟨e | instr⟩
  · exact ⟨_, rfl⟩
  · exact absurd hr (h i e)
  · obtain ⟨t, ht⟩ := exec_answers_next instr { s with visit := v }
    exact ⟨{ t with visit := .fetch }, by simp only [ht, leaveVisit]⟩

/-- A sequence answers if its first part does and its second part does on every trace that decodes. -/
theorem thenStage_answers {o : Result} {f : State → Result} {s : State} (h : s.Decodes)
    (ho : ∃ u, o = .next u ∧ SameInputs s u) (hf : ∀ u, u.Decodes → ∃ t, f u = .next t) :
    ∃ t, thenStage o f = .next t := by
  obtain ⟨u, rfl, hin⟩ := ho
  by_cases hfatal : u.fatal = none
  · rw [thenStage_next_none hfatal]
    exact hf u (hin.decodes h)
  · exact ⟨u, thenStage_next_some hfatal f⟩

theorem completeGroup_answers {s : State} (h : s.Decodes) (g : Group) : ∃ t, completeGroup g s = .next t := by
  unfold completeGroup
  generalize (s.units g).length = n
  have keeps (n : Nat) (u : State) (hu : forSlots (completeSlot g) n s = .next u) : SameInputs s u :=
    forSlots_induct (P := SameInputs s) (fun _ _ _ hu _ ht => hu.trans (completeSlot_sameInputs ht))
      (SameInputs.refl s) hu
  induction n with
  | zero => exact ⟨s, rfl⟩
  | succ n ih =>
    obtain ⟨u, hu⟩ := ih
    rw [forSlots_succ]
    refine thenStage_answers h ⟨u, hu, keeps n u hu⟩ fun v hv => ?_
    obtain ⟨-, e⟩ | ⟨i, -, -, e⟩ := completeSlot_cases g n v <;> rw [e]
    · exact ⟨v, rfl⟩
    · exact visitRecord_answers hv _ i

theorem executeToCdb_answers {s : State} (h : s.Decodes) : ∃ t, executeToCdb s = .next t := by
  have groups : ∃ u, thenStage (completeGroup .int s) (completeGroup .fp) = .next u ∧ SameInputs s u := by
    obtain ⟨v, hv⟩ := completeGroup_answers h .int
    have hin := completeGroup_sameInputs hv
    obtain ⟨u, hu⟩ := thenStage_answers h ⟨v, hv, hin⟩ fun w hw => completeGroup_answers hw .fp
    exact ⟨u, hu, thenStage_sameInputs (fun _ => completeGroup_sameInputs) (fun _ _ => completeGroup_sameInputs) hu⟩
  refine thenStage_answers h groups fun u hu => ?_
  obtain ⟨-, e⟩ | ⟨w, -, -, e⟩ := arbitrate_cases u <;> rw [e]
  · exact ⟨u, rfl⟩
  · exact visitRecord_answers hu _ w

theorem dispatchToIssue_answers {s : State} (h : s.Decodes) : ∃ t, dispatchToIssue s = .next t := by
  obtain ⟨-, e⟩ | ⟨w, -, -, e⟩ := dispatchHead_cases s <;> rw [dispatchToIssue, e]
  · exact thenStage_answers h ⟨s, rfl, SameInputs.refl s⟩ fun u _ => ⟨_, rfl⟩
  · obtain ⟨u, hu⟩ := visitRecord_answers h .dispatch w
    exact thenStage_answers h ⟨u, hu, visitRecord_sameInputs hu⟩ fun u _ => ⟨_, rfl⟩

theorem fetchLoop_answers {n : Nat} {s : State} (h : s.Decodes) : ∃ t, fetchLoop n s = .next t := by
  induction n generalizing s with
  | zero => exact ⟨_, rfl⟩
  | succ n ih =>
    obtain ⟨u, hu⟩ := visitRecord_answers h .fetch (s.fetchIndex + 1)
    refine thenStage_answers h ⟨u, hu, visitRecord_sameInputs hu⟩ fun v hv => ?_
    split
    · exact ih hv
    · exact ⟨v, rfl⟩

theorem fetchPart_answers {s : State} (h : s.Decodes) (b : Nat) : ∃ t, fetchPart b s = .next t ∧ SameInputs s t := by
  unfold fetchPart
  split
  · obtain ⟨t, ht⟩ := fetchLoop_answers (n := s.size - s.fetchIndex) h
    exact ⟨t, ht, fetchLoop_sameInputs ht⟩
  · exact ⟨s, rfl, SameInputs.refl s⟩

theorem fetchToDispatch_answers {s : State} (h : s.Decodes) (b : Nat) : ∃ t, fetchToDispatch b s = .next t :=
  thenStage_answers h (fetchPart_answers h b) fun u _ => ⟨stampHead u, rfl⟩

/-- On a trace of records a cycle answers a next state. -/
theorem cycleWith_answers {s : State} (h : s.Decodes) (b : Nat) : ∃ t, cycleWith b s = .next t := by
  have h1 := (cdbToRetire_sameInputs s).decodes h
  obtain ⟨s2, h2⟩ := executeToCdb_answers h1
  have in2 := (cdbToRetire_sameInputs s).trans (executeToCdb_sameInputs h2)
  rw [cycleWith, stagesBeforeFetch, thenStage_assoc, thenStage_assoc]
  refine thenStage_answers h ⟨s2, h2, in2⟩ fun u hu => ?_
  have hu3 := (issueToExecute_sameInputs u).decodes hu
  obtain ⟨s4, h4⟩ := dispatchToIssue_answers hu3
  refine thenStage_answers hu3 ⟨s4, h4, dispatchToIssue_sameInputs h4⟩ fun v hv => ?_
  obtain ⟨s5, h5⟩ := fetchToDispatch_answers hv b
  exact thenStage_answers hv ⟨s5, h5, fetchToDispatch_sameInputs h5⟩ fun w _ => ⟨w.tick, rfl⟩

theorem stepWith_answers {s : State} (h : s.Decodes) (hfatal : s.fatal = none) (b : Nat) :
    ∃ t, stepWith b s = .next t := by
  simp only [stepWith, hfatal]
  split
  · exact ⟨s, rfl⟩
  · exact cycleWith_answers h b

/-- Settles O51. -/
theorem stepAnswersOnWellFormedRecords : Obligations.StepAnswersOnWellFormedRecords := by
  intro s _ hfatal hrecords
  refine stepWith_answers (fun i e hread => ?_) hfatal _
  obtain ⟨h1, hle⟩ := le_size_of_traceRead hread
  obtain ⟨instr, hok⟩ := hrecords i h1 hle
  rw [hread] at hok
  cases hok

end Sys2Proof.Machine
end

section

/-! # Proofs: the end of a run (spec/47_invariants.md section 3) -/

namespace Sys2Proof.Machine

theorem done_slots {s : State} (h : s.done = true) :
    (∀ i, ¬ s.inStation i) ∧ s.ifq = [] ∧ s.cdb = none ∧ s.fetchIndex = s.size := by
  obtain ⟨hint, hfp, -, -, hifq, hcdb, hend⟩ := (terminationPredicate s).mp h
  refine ⟨?_, List.length_eq_zero_iff.mp hifq, hcdb, hend⟩
  rintro i ⟨_ | _, hi⟩
  · cases hint _ hi
  · cases hfp _ hi

/-- Settles O52: a record that is nowhere has finished (`ProgressInv`); the stamps it has bring the earlier ones
(`StampInv`), and its class allows no others (`ClassInv`). -/
theorem finalStampsByClass : Obligations.FinalStampsByClass := by
  intro s i h hdone h1 hi
  obtain ⟨hstation, hifq, -, hend⟩ := done_slots hdone
  obtain ⟨-, hrecords, hslots, -⟩ := h.cycleInv
  have hconsumed : i ≤ s.fetchIndex := hend ▸ hi
  have hissue := hrecords.issueOrder i hi
  have hexec := hrecords.execOrder i hi
  obtain ⟨-, issueClass, cdbClass⟩ := hrecords.classes i hi
  have finished (hc : s.classHas (fun c => c.isInt || c.isFp) i = true) :
      (s.record i).tExec ≠ 0 ∧ (s.classHas OpClass.writesResult i = true → (s.record i).tCdb ≠ 0) :=
    ((hslots.progress i hconsumed h1 hc).resolve_left (by simp [hifq])).resolve_left (hstation i)
  have unissued {P : OpClass → Bool} (hP : ∀ c, P c = true → (c.isInt || c.isFp) = false)
      (hc : s.classHas P i = true) : (s.record i).tIssue = 0 ∧ (s.record i).tExec = 0 := by
    have h0 : (s.record i).tIssue = 0 := by
      by_contra hne
      have := issueClass hne
      rw [classHas_exclusive hP hc] at this
      cases this
    refine ⟨h0, ?_⟩
    by_contra hne
    have := hexec hne
    omega
  have unbroadcast {P : OpClass → Bool} (hP : ∀ c, P c = true → c.writesResult = false)
      (hc : s.classHas P i = true) : (s.record i).tCdb = 0 := by
    by_contra hne
    have := cdbClass hne
    rw [classHas_exclusive hP hc] at this
    cases this
  refine ⟨fun hc => ?writer, fun hc => ?store, fun hc => ?branch, fun hc => hslots.trap i hconsumed h1 hc⟩
  case writer =>
    obtain ⟨he, hb⟩ := finished (classHas_mono (fun c h => by cases c <;> first | rfl | cases h) hc)
    have := hexec he
    have := hissue (by omega)
    exact ⟨by omega, by omega, he, hb hc⟩
  case store =>
    obtain ⟨he, -⟩ := finished (classHas_mono (fun c h => by cases c <;> first | rfl | cases h) hc)
    have := hexec he
    have := hissue (by omega)
    exact ⟨by omega, by omega, he, unbroadcast (fun c h => by cases c <;> first | rfl | cases h) hc⟩
  case branch =>
    obtain ⟨hi0, he0⟩ := unissued OpClass.isBranch_not_station hc
    exact ⟨(hslots.branch i hconsumed h1 hc).resolve_left (by simp [hifq]), hi0, he0,
      unbroadcast (fun c h => by cases c <;> first | rfl | cases h) hc⟩

/-- What holds of every state of a run of a well-formed trace. -/
structure WellRun (s : State) : Prop where
  fatal : s.fatal = none
  inv : s.PipelineInv
  live : s.LiveMapInv
  traceOk : s.traceOk = true

theorem SameInputs.traceOk {s t : State} (h : SameInputs s t) : t.traceOk = s.traceOk := by
  rw [State.traceOk, State.traceOk, h.nRegs, h.1]

/-- A trace whose last word is no trap has no trap as its last record. -/
theorem not_isTrap_of_lastNoTrap {s : State} (h : lastNoTrap s.nRegs s.mem.trace = true) :
    s.classHas OpClass.isTrap s.size = false := by
  by_contra htrap
  obtain ⟨instr, hr, hclass⟩ := classHas_eq_true.mp (Bool.not_eq_false _ ▸ htrap)
  obtain ⟨w, hw, hdecode⟩ := Option.map_eq_some_iff.mp hr
  have hlast : s.mem.trace.getLast? = some w := by
    rw [List.getLast?_eq_getElem?]
    cases hsize : s.size with
    | zero => rw [hsize] at hw; cases hw
    | succ n =>
      rw [hsize] at hw
      have : s.mem.trace.length - 1 = n := by
        change s.mem.trace.length = n + 1 at hsize
        omega
      rw [this]
      exact hw
  simp only [lastNoTrap, hlast, hdecode, hclass] at h
  cases h

/-- The last record of a well-formed trace is no trap (R308). -/
theorem not_isTrap_size {s : State} (h : s.traceOk = true) : s.classHas OpClass.isTrap s.size = false := by
  simp only [State.traceOk, traceWellFormed, Bool.and_eq_true] at h
  exact not_isTrap_of_lastNoTrap h.2

theorem decodes_of_traceOk {s : State} (h : s.traceOk = true) : s.Decodes := by
  intro i e hread
  obtain ⟨w, hw, hdecode⟩ := Option.map_eq_some_iff.mp hread
  simp only [State.traceOk, traceWellFormed, Bool.and_eq_true, List.all_eq_true] at h
  have hwf := h.1 w (word_mem_trace hw)
  rw [wordWellFormed, hdecode] at hwf
  cases hwf

theorem WellRun.step {s t : State} (h : WellRun s) (ht : step s = .next t) : WellRun t := by
  have hfatal : t.fatal = none := by
    by_contra hne
    obtain ⟨-, htrap⟩ := onlyATrailingTrapIsFatal s t h.inv ht hne
    rw [not_isTrap_size h.traceOk] at htrap
    cases htrap
  exact
    { fatal := hfatal
      inv := stepKeepsPipelineInvariant s t h.inv ht hfatal
      live := stepKeepsMapProducersLive s t h.inv h.traceOk h.live ht hfatal
      traceOk := (stepWith_sameInputs ht).traceOk.trans h.traceOk }

theorem wellRun_resetWith {p : Config.Params} {trace : List TraceWord} (h : traceWellFormed p.nRegs trace = true) :
    WellRun (State.resetWith p trace) where
  fatal := rfl
  inv := resetHasPipelineInvariant p trace
  live := liveMapInv_iff.mpr fun r q hq => by
    rw [producer_resetWith] at hq
    cases hq
  traceOk := by
    have : (State.resetWith p trace).nRegs = p.nRegs := by simp [State.nRegs, State.resetWith]
    rw [State.traceOk, this]
    exact h

/-- Settles O53: at the end no record is in a station or on the bus, so none is a live producer. -/
theorem mapTableConverges : Obligations.MapTableConverges := by
  intro p trace n s hwf hrun hdone r
  have h : WellRun s := runSteps_induct (P := WellRun) (fun _ _ => WellRun.step) (wellRun_resetWith hwf) hrun
  obtain ⟨hstation, -, hcdb, -⟩ := done_slots hdone
  cases hq : s.producer r with
  | none => rfl
  | some q =>
    obtain hq | hq := liveMapInv_iff.mp h.live r q hq
    · exact absurd hq (hstation q)
    · rw [hcdb] at hq
      cases hq

/-! ### A reader of a store's destination (R307) -/

/-- Records that have left the queue stay out of it and keep their dependency arrays. -/
def KeepsDispatched (s t : State) : Prop :=
  ∀ i ≤ s.fetchIndex, i ∉ s.ifq → i ≤ t.fetchIndex ∧ i ∉ t.ifq ∧ (t.record i).deps = (s.record i).deps

theorem KeepsDispatched.of_mem {s t : State} (hq : SameQueue s t) (hrec : ∀ i, (t.record i).deps = (s.record i).deps) :
    KeepsDispatched s t := fun i hi hnot => by
  rw [hq.1, hq.2]
  exact ⟨hi, hnot, hrec i⟩

theorem updateRecord_deps {f : RecordState → RecordState} (hf : ∀ r, (f r).deps = r.deps) (s : State) (i j : Nat) :
    ((s.updateRecord i f).record j).deps = (s.record j).deps := by
  rw [record_updateRecord]
  split
  · exact hf _
  · rfl

/-- An allocation writes the record of the head only, which is in the queue. -/
theorem allocate_keepsDispatched (s : State) (g : Group) (o : Operands) : KeepsDispatched s (s.allocate g o) := by
  intro i hi hnot
  obtain ⟨-, e⟩ | ⟨_, _, -, -, e⟩ | ⟨h, q, _, hq, -, e⟩ := allocate_cases s g o <;> rw [e]
  · exact ⟨hi, hnot, rfl⟩
  · exact ⟨hi, hnot, rfl⟩
  · rw [hq] at hnot
    have hne : h ≠ i := by
      rintro rfl
      exact hnot List.mem_cons_self
    refine ⟨by simpa using hi, fun hmem => hnot (List.mem_cons_of_mem h hmem), ?_⟩
    rw [record_of_mem_eq (s := s.captureDeps h o) (by simp only [setStations_mem, renameDests_mem])]
    rw [captureDeps_record_other hne]

theorem fetchEnqueue_keepsDispatched (s : State) : KeepsDispatched s s.fetchEnqueue := by
  intro i hi hnot
  have hrec := record_of_mem_eq (fetchEnqueue_mem s) i
  unfold State.fetchEnqueue at hrec ⊢
  split
  · refine ⟨Nat.le_succ_of_le hi, fun hmem => ?_, rfl⟩
    obtain hmem | hmem := List.mem_append.mp hmem
    · exact hnot hmem
    · have := List.mem_singleton.mp hmem
      omega
  · exact ⟨hi, hnot, rfl⟩

theorem fetchSkip_keepsDispatched (s : State) : KeepsDispatched s s.fetchSkip := by
  intro i hi hnot
  unfold State.fetchSkip State.advanceCursor
  split
  · exact ⟨Nat.le_succ_of_le hi, hnot, rfl⟩
  · exact ⟨hi, hnot, rfl⟩

theorem visitRecord_keepsDispatched {v : Visit} {i : Nat} {s t : State} (h : visitRecord v i s = .next t) :
    KeepsDispatched s t := by
  obtain ⟨-, rfl⟩ | ⟨instr, u, -, hu, rfl⟩ := visitRecord_eq_next.mp h
  · exact .of_mem (.refl s) fun _ => rfl
  cases v with
  | fetch =>
    rw [exec_at_fetch rfl] at hu
    cases hu
    split
    · exact fetchSkip_keepsDispatched { s with visit := .fetch }
    · exact fetchEnqueue_keepsDispatched { s with visit := .fetch }
  | dispatch =>
    rw [exec_at_dispatch rfl] at hu
    cases hu
    split
    · exact fun j hj hnot => ⟨hj, fun hmem => hnot (List.mem_of_mem_tail hmem), rfl⟩
    split
    · exact allocate_keepsDispatched { s with visit := .dispatch } .fp instr.operands
    split
    · exact allocate_keepsDispatched { s with visit := .dispatch } .int instr.operands
    · exact .of_mem (.refl s) fun _ => rfl
  | complete g n =>
    rw [exec_at_complete rfl] at hu
    cases hu
    split
    · exact .of_mem (.refl s) fun _ => rfl
    · exact .of_mem ⟨releaseSlots_ifq .., releaseSlots_fetchIndex ..⟩
        fun j => congrArg RecordState.deps (releaseSlots_record ..)
  | broadcast w =>
    rw [exec_at_broadcast rfl] at hu
    cases hu
    refine .of_mem ⟨broadcast_ifq .., broadcast_fetchIndex ..⟩ fun j => ?_
    have hrec := broadcast_record { s with visit := .broadcast w } (if instr.cls.isFp = true then .fp else .int) w j
    refine (congrArg RecordState.deps hrec).trans ?_
    split <;> rfl

theorem keepsDispatched_actionRel : ActionRel KeepsDispatched where
  refl s := .of_mem (.refl s) fun _ => rfl
  trans s t u h k := fun i hi hnot => by
    obtain ⟨hi, hnot, hdeps⟩ := h i hi hnot
    obtain ⟨hi, hnot, hdeps'⟩ := k i hi hnot
    exact ⟨hi, hnot, hdeps'.trans hdeps⟩
  retire s := .of_mem (cdbToRetire_sameQueue s) fun i => by rw [record_of_mem_eq (cdbToRetire_frame s).1]
  complete _ _ _ _ := visitRecord_keepsDispatched
  broadcast _ _ _ _ := visitRecord_keepsDispatched
  start g k i s := .of_mem ⟨assignUnit_ifq .., assignUnit_fetchIndex ..⟩ fun j => by
    rw [State.assignUnit, updateRecord_deps (by intro; rfl), record_of_mem_eq (setUnits_mem ..)]
  dispatch _ _ _ := visitRecord_keepsDispatched
  stampIssue i s := .of_mem ⟨rfl, rfl⟩ (updateRecord_deps (fun r => by split <;> rfl) s i)
  fetch _ _ _ := visitRecord_keepsDispatched
  overrun s := .of_mem ⟨rfl, rfl⟩ fun _ => rfl
  stampHead s := .of_mem (stampHead_sameQueue s) fun j => by
    rw [stampHead_record]
    split <;> rfl

theorem stepWith_keepsDispatched {b : Nat} {s t : State} (h : stepWith b s = .next t) : KeepsDispatched s t := by
  obtain ⟨-, ⟨-, rfl⟩ | ⟨-, h⟩⟩ := stepWith_eq_next h
  · exact keepsDispatched_actionRel.refl t
  · obtain ⟨u, hu, ⟨-, rfl⟩ | rfl⟩ := keepsDispatched_actionRel.cycleWith h
    · exact hu
    · exact hu

/-- Record `i` waits in a station for store `p`, which never broadcasts. -/
structure Waits (i p : Nat) (s : State) : Prop where
  inv : s.PipelineInv
  station : s.inStation i
  dep : p ∈ (s.record i).deps
  store : s.classHas (· == .store) p = true

theorem Waits.le_size {i p : Nat} {s : State} (h : Waits i p s) : i ≤ s.fetchIndex ∧ i ∉ s.ifq ∧ i ≤ s.size := by
  obtain ⟨-, hrecords, hslots, -⟩ := h.inv.cycleInv
  obtain ⟨g, hg⟩ := h.station
  obtain ⟨-, hle, hifq, -⟩ := hslots.station g i hg
  exact ⟨hle, fun hmem => absurd (hifq i hmem) (Nat.lt_irrefl i), hle.trans hrecords.queue.1⟩

/-- A record that depends on a store has not started. -/
theorem tExec_of_store_dep {i p : Nat} {s : State} (h : s.PipelineInv) (hi : i ≤ s.size)
    (hdep : p ∈ (s.record i).deps) (hstore : s.classHas (· == .store) p = true) : (s.record i).tExec = 0 := by
  obtain ⟨-, hrecords, -, -⟩ := h.cycleInv
  by_contra hne
  obtain ⟨-, hlt, -, -, hlaw⟩ := hrecords.dep.of_mem hi hdep
  obtain ⟨-, -, hclass⟩ := hrecords.classes p (hlt.le.trans hi)
  have hwrites := hclass (hlaw hne).1
  rw [classHas_exclusive (fun c hc => by cases c <;> first | rfl | cases hc) hstore] at hwrites
  cases hwrites

theorem Waits.step {i p : Nat} {s t : State} (h : Waits i p s) (ht : stepWith Config.ifqBound s = .next t)
    (hfatal : t.fatal = none) : Waits i p t := by
  have hin := stepWith_sameInputs ht
  have hinv := stepKeepsPipelineInvariant s t h.inv ht hfatal
  obtain ⟨hle, hnot, hsize⟩ := h.le_size
  obtain ⟨hle', hnot', hdeps⟩ := stepWith_keepsDispatched ht i hle hnot
  have hdep : p ∈ (t.record i).deps := hdeps.symm ▸ h.dep
  have hstore : t.classHas (· == .store) p = true := by rw [hin.classHas]; exact h.store
  refine ⟨hinv, ?_, hdep, hstore⟩
  obtain ⟨-, -, hslots, -⟩ := h.inv.cycleInv
  obtain ⟨-, -, hslots', -⟩ := hinv.cycleInv
  obtain ⟨g, hg⟩ := h.station
  obtain ⟨h1, -⟩ := hslots.station g i hg
  have hclass : t.classHas (fun c => c.isInt || c.isFp) i = true := by
    rw [hin.classHas]
    exact classHas_mono g.takes_station (hslots.station_class g i hg)
  obtain hq | hst | ⟨hne, -⟩ := hslots'.progress i hle' h1 hclass
  · exact absurd hq hnot'
  · exact hst
  · exact absurd (tExec_of_store_dep hinv (hin.size ▸ hsize) hdep hstore) hne

/-- Settles O54: the reader keeps waiting, so the run never ends. -/
theorem readerOfAStoreDestinationHangs : Obligations.ReaderOfAStoreDestinationHangs := by
  intro s i p hinv hstation hdep hstore n t hrun hfatal
  have hwait : Waits i p t := by
    refine runSteps_induct (P := fun u => u.fatal = none → Waits i p u) (fun u v hu huv hvfatal => ?_)
      (fun _ => ⟨hinv, mem_stationed.mp hstation, hdep, hstore⟩) hrun hfatal
    exact (hu (stepWith_eq_next huv).1).step huv hvfatal
  refine ⟨mem_stationed.mpr hwait.station, tExec_of_store_dep hwait.inv hwait.le_size.2.2 hwait.dep hwait.store, ?_⟩
  have hdone : t.done = false := by
    by_contra hd
    exact (done_slots (Bool.not_eq_false _ ▸ hd)).1 i hwait.station
  rw [State.ended, hdone, Bool.false_and]

end Sys2Proof.Machine
end

section

/-! # Proofs: the bound of the fetch queue is unobservable (R133)

Two runs of one trace with different queue bounds are compared by a simulation: between two cycles their states differ
in the queue and the cursor only, the records they have still to dispatch are the same, and so is the head. -/

namespace Sys2Proof.Machine

/-! ### What a run has still to dispatch -/

/-- The records behind the cursor that are no traps, in program order. -/
def State.upcoming (s : State) : List Nat :=
  (List.range' (s.fetchIndex + 1) (s.size - s.fetchIndex)).filter fun i => !s.classHas OpClass.isTrap i

/-- The records a run has still to dispatch: the queued ones, then those not yet fetched. -/
def State.remaining (s : State) : List Nat := s.ifq ++ s.upcoming

theorem upcoming_congr {s t : State} (hin : SameInputs s t) (hcursor : t.fetchIndex = s.fetchIndex) :
    t.upcoming = s.upcoming := by
  simp only [State.upcoming, hcursor, hin.size, hin.classHas]

theorem remaining_congr {s t : State} (hin : SameInputs s t) (hq : SameQueue s t) : t.remaining = s.remaining := by
  simp only [State.remaining, hq.1, upcoming_congr hin hq.2]

/-- The fetch part moves one record from the trace to the queue. -/
theorem remaining_fetched {s : State} {k : Nat} (htraps : s.trapsAhead k)
    (hclass : s.classHas (fun c => !c.isTrap) (s.fetchIndex + k + 1) = true) :
    (s.fetched k).remaining = s.remaining := by
  have hlt : s.fetchIndex + k + 1 ≤ s.size := (le_size_of_classHas hclass).2
  have hnot : s.classHas OpClass.isTrap (s.fetchIndex + k + 1) = false :=
    classHas_exclusive (fun c hc => by simpa using hc) hclass
  have hskipped : (List.range' (s.fetchIndex + 1) k).filter (fun i => !s.classHas OpClass.isTrap i) = [] := by
    refine List.filter_eq_nil_iff.mpr fun i hi => ?_
    obtain ⟨hlo, hhi⟩ := List.mem_range'_1.mp hi
    simp [htraps i (by omega) (by omega)]
  have hsplit : List.range' (s.fetchIndex + 1) (s.size - s.fetchIndex) =
      List.range' (s.fetchIndex + 1) k ++
        (s.fetchIndex + k + 1) :: List.range' (s.fetchIndex + k + 1 + 1) (s.size - (s.fetchIndex + k + 1)) := by
    rw [← List.range'_succ, show s.fetchIndex + k + 1 = s.fetchIndex + 1 + k by omega, List.range'_append_1]
    congr 1
    omega
  have hup : s.upcoming = (s.fetchIndex + k + 1) :: (s.fetched k).upcoming := by
    rw [State.upcoming, hsplit, List.filter_append, hskipped, List.nil_append, List.filter_cons_of_pos (by simp [hnot])]
    rfl
  rw [State.remaining, State.remaining, hup]
  exact List.append_cons .. ▸ rfl

/-- The fetch stage finds the state in order: the cursor is within the trace, whose last record is no trap. -/
structure FetchReady (s : State) : Prop where
  visit : s.visit = .fetch
  cursor : s.fetchIndex ≤ s.size
  last : s.classHas OpClass.isTrap s.size = false

/-- The last record is no trap, so while records are left to fetch, records are left to dispatch. -/
theorem FetchReady.remaining_eq_nil {s : State} (h : FetchReady s) :
    s.remaining = [] ↔ s.ifq = [] ∧ s.fetchIndex = s.size := by
  rw [State.remaining, List.append_eq_nil_iff, and_congr_right_iff]
  intro _
  constructor
  · intro hnil
    by_contra hne
    have hcursor := h.cursor
    have hmem : s.size ∈ s.upcoming := List.mem_filter.mpr ⟨List.mem_range'_1.mpr (by omega), by simp [h.last]⟩
    rw [hnil] at hmem
    cases hmem
  · intro hend
    rw [State.upcoming, hend, Nat.sub_self]
    rfl

theorem fetchReady_of_sameQueue {s t : State} (h : FetchReady s) (hin : SameInputs s t)
    (hq : t.fetchIndex = s.fetchIndex) (hv : t.visit = .fetch) : FetchReady t where
  visit := hv
  cursor := by rw [hq, hin.size]; exact h.cursor
  last := by rw [hin.size, hin.classHas]; exact h.last

/-- Whatever a visit does, it leaves the resting value of `visit` behind. -/
theorem visitRecord_visit {v : Visit} {i : Nat} {s t : State} (hv : s.visit = .fetch)
    (h : visitRecord v i s = .next t) : t.visit = .fetch := by
  obtain ⟨-, rfl⟩ | ⟨_, _, -, -, rfl⟩ := visitRecord_eq_next.mp h
  · exact hv
  · rfl

theorem restingVisit_actionRel : ActionRel fun s t => s.visit = .fetch → t.visit = .fetch where
  refl _ h := h
  trans _ _ _ h k hv := k (h hv)
  retire s hv := by
    obtain ⟨-, -, h, -⟩ := cdbToRetire_frame s
    rwa [h]
  complete _ _ _ _ h hv := visitRecord_visit hv h
  broadcast _ _ _ _ h hv := visitRecord_visit hv h
  start g k i s hv := (assignUnit_visit ..).trans hv
  dispatch _ _ _ h hv := visitRecord_visit hv h
  stampIssue _ _ hv := hv
  fetch _ _ _ h hv := visitRecord_visit hv h
  overrun _ hv := hv
  stampHead s hv := by
    obtain ⟨m, h, -⟩ := stampHead_frame s
    rw [h]
    exact hv

theorem stagesBeforeFetch_fetchReady {s t : State} (h : FetchReady s) (ht : stagesBeforeFetch s = .next t) :
    FetchReady t := by
  obtain ⟨hin, hcursor⟩ := stagesBeforeFetch_keeps ht
  have hR := restingVisit_actionRel
  refine fetchReady_of_sameQueue h hin hcursor (hR.thenStage (s := s)
    (fun u hu hv => hR.executeToCdb hu (hR.retire s hv))
    (fun u v hv => hR.trans _ _ _ (hR.issueToExecute u) (hR.dispatchToIssue hv)) ht h.visit)

/-! ### The simulation -/

/-- The state with another queue and cursor. -/
def State.withQueue (s : State) (q : List Nat) (n : Nat) : State := { s with ifq := q, fetchIndex := n }

/-- Two states that differ in the queue and the cursor only and have the same records still to dispatch. -/
structure SameBehindQueue (s t : State) : Prop where
  frame : t = s.withQueue t.ifq t.fetchIndex
  remaining : t.remaining = s.remaining

/-- … and the same head of the queue, as between two cycles. -/
structure SameHead (s t : State) : Prop extends SameBehindQueue s t where
  head : t.ifq.head? = s.ifq.head?

/-- A function that neither reads nor writes the queue and the cursor. -/
def QueueBlind (F : State → State) : Prop := ∀ s q n, F (s.withQueue q n) = (F s).withQueue q n

theorem QueueBlind.sameQueue {F : State → State} (hF : QueueBlind F) (s : State) : SameQueue s (F s) := by
  have h : F s = (F s).withQueue s.ifq s.fetchIndex := hF s s.ifq s.fetchIndex
  rw [h]
  exact ⟨rfl, rfl⟩

theorem SameBehindQueue.map {F : State → State} (hF : QueueBlind F) (hin : ∀ s, SameInputs s (F s)) {s t : State}
    (h : SameBehindQueue s t) : SameBehindQueue (F s) (F t) where
  frame := by
    rw [(hF.sameQueue t).1, (hF.sameQueue t).2, ← hF, ← h.frame]
  remaining := by
    rw [remaining_congr (hin t) (hF.sameQueue t), remaining_congr (hin s) (hF.sameQueue s), h.remaining]

theorem SameHead.map {F : State → State} (hF : QueueBlind F) (hin : ∀ s, SameInputs s (F s)) {s t : State}
    (h : SameHead s t) : SameHead (F s) (F t) where
  toSameBehindQueue := h.toSameBehindQueue.map hF hin
  head := by rw [(hF.sameQueue t).1, (hF.sameQueue s).1, h.head]

theorem SameBehindQueue.fatal {s t : State} (h : SameBehindQueue s t) : t.fatal = s.fatal := by rw [h.frame]; rfl

theorem SameBehindQueue.traceRead {s t : State} (h : SameBehindQueue s t) (i : Nat) : t.traceRead i = s.traceRead i := by
  rw [h.frame]
  rfl

/-- Two sequences are related if their parts are. -/
theorem thenStage_related {R S : State → State → Prop} (hfatal : ∀ u u', R u u' → u'.fatal = u.fatal)
    {o o' : Result} {f f' : State → Result} (ho : ∀ u u', o = .next u → o' = .next u' → R u u')
    (hstop : ∀ u u', R u u' → u.fatal ≠ none → S u u')
    (hf : ∀ u u' v v', o = .next u → o' = .next u' → R u u' → u.fatal = none → f u = .next v → f' u' = .next v' →
      S v v')
    {v v' : State} (h : thenStage o f = .next v) (h' : thenStage o' f' = .next v') : S v v' := by
  obtain ⟨h, hne⟩ | ⟨u, hu, hnone, hv⟩ := thenStage_eq_next.mp h <;>
    obtain ⟨h', hne'⟩ | ⟨u', hu', hnone', hv'⟩ := thenStage_eq_next.mp h'
  · exact hstop v v' (ho v v' h h') hne
  · exact absurd ((hfatal v u' (ho v u' h hu')).symm.trans hnone') hne
  · exact absurd ((hfatal u v' (ho u v' hu h')).trans hnone) hne'
  · exact hf u u' v v' hu hu' (ho u u' hu hu') hnone hv hv'

/-! ### Stages 1 to 3 do not see the queue -/

theorem raiseFatal_queueBlind (r : FatalReason) : QueueBlind (State.raiseFatal r) := fun _ _ _ => rfl

theorem cdbToRetire_queueBlind : QueueBlind cdbToRetire := by
  intro s q n
  have hcdb : (s.withQueue q n).cdb = s.cdb := rfl
  cases hc : s.cdb with
  | none => simp only [cdbToRetire, hcdb, hc]
  | some i =>
    simp only [cdbToRetire, hcdb, hc]
    by_cases hpast : (s.record i).tCdb + 1 ≤ s.cycle
    · have hpast' : ((s.withQueue q n).record i).tCdb + 1 ≤ (s.withQueue q n).cycle := hpast
      rw [if_pos hpast, if_pos hpast']
      rfl
    · have hpast' : ¬ ((s.withQueue q n).record i).tCdb + 1 ≤ (s.withQueue q n).cycle := hpast
      rw [if_neg hpast, if_neg hpast']

theorem releaseSlots_queueBlind (g : Group) (i : Nat) : QueueBlind (State.releaseSlots g i) := fun _ _ _ => by
  cases g <;> rfl

theorem broadcast_queueBlind (g : Group) (i : Nat) : QueueBlind (State.broadcast g i) := fun _ _ _ => by
  cases g <;> rfl

theorem assignUnit_queueBlind (g : Group) (k i : Nat) : QueueBlind (State.assignUnit g k i) := fun _ _ _ => by
  cases g <;> rfl

theorem issueSlot_withQueue (g : Group) (s : State) (k : Nat) (q : List Nat) (n : Nat) :
    issueSlot g (s.withQueue q n) k = (issueSlot g s k).withQueue q n := by
  have hunits : (s.withQueue q n).units g = s.units g := by cases g <;> rfl
  have hselect : (s.withQueue q n).selectFor g = s.selectFor g := by cases g <;> rfl
  simp only [issueSlot, hunits, hselect]
  split
  · split
    · exact assignUnit_queueBlind g k _ s q n
    · rfl
  · rfl

theorem issueGroup_queueBlind (g : Group) : QueueBlind (issueGroup g) := by
  intro s q n
  have hunits : (s.withQueue q n).units g = s.units g := by cases g <;> rfl
  unfold issueGroup
  rw [hunits]
  generalize List.range (s.units g).length = l
  induction l generalizing s with
  | nil => rfl
  | cons k l ih =>
    rw [List.foldl_cons, List.foldl_cons, issueSlot_withQueue]
    exact ih (issueSlot g s k) (by cases g <;> rfl)

theorem issueToExecute_queueBlind : QueueBlind issueToExecute := fun s q n => by
  rw [issueToExecute, issueToExecute, issueGroup_queueBlind, issueGroup_queueBlind]

theorem stampIssue_queueBlind : QueueBlind stampIssue := by
  intro s q n
  unfold stampIssue
  show List.foldl stampIssueOne (s.withQueue q n) (occupants s.rsInt ++ occupants s.rsFp) = _
  generalize occupants s.rsInt ++ occupants s.rsFp = l
  induction l generalizing s with
  | nil => rfl
  | cons i l ih => exact ih (stampIssueOne s i)

/-- A visit whose meanings do not see the queue. -/
theorem SameHead.visitRecord {v : Visit} {i : Nat} {s t s' t' : State} (h : SameHead s t)
    (hexec : ∀ instr, ∃ F : State → State, QueueBlind F ∧
      ∀ u : State, exec instr { u with visit := v } = .next (F { u with visit := v }))
    (hs : visitRecord v i s = .next s') (ht : visitRecord v i t = .next t') : SameHead s' t' := by
  have hread := h.traceRead i
  unfold Machine.visitRecord at hs ht
  rw [hread] at ht
  rcases hr : s.traceRead i with _ | ⟨e | instr⟩ <;> simp only [hr] at hs ht
  · cases hs
    cases ht
    exact h.map (raiseFatal_queueBlind _) fun u => raiseFatal_sameInputs u _
  · cases hs
  · obtain ⟨F, hF, hmeans⟩ := hexec instr
    rw [hmeans, leaveVisit] at hs ht
    cases hs
    cases ht
    refine h.map (F := fun u => { F { u with visit := v } with visit := .fetch }) (fun u q n => ?_) fun u => ?_
    · exact congrArg (fun w : State => { w with visit := .fetch }) (hF { u with visit := v } q n)
    · have := exec_sameInputs (hmeans u)
      exact this

theorem SameHead.complete {g : Group} {n i : Nat} {s t s' t' : State} (h : SameHead s t)
    (hs : Machine.visitRecord (.complete g n) i s = .next s') (ht : Machine.visitRecord (.complete g n) i t = .next t') :
    SameHead s' t' := by
  refine h.visitRecord (fun instr => ⟨fun u => if instr.cls.writesResult then u else u.releaseSlots g n, ?_,
    fun u => exec_at_complete rfl⟩) hs ht
  intro u q m
  split
  · rfl
  · exact releaseSlots_queueBlind g n u q m

theorem SameHead.broadcast {w i : Nat} {s t s' t' : State} (h : SameHead s t)
    (hs : Machine.visitRecord (.broadcast w) i s = .next s') (ht : Machine.visitRecord (.broadcast w) i t = .next t') :
    SameHead s' t' :=
  h.visitRecord (fun instr => ⟨State.broadcast (if instr.cls.isFp then .fp else .int) w, broadcast_queueBlind _ w,
    fun _ => exec_at_broadcast rfl⟩) hs ht

theorem SameHead.completeSlot {g : Group} {k : Nat} {s t s' t' : State} (h : SameHead s t)
    (hs : Machine.completeSlot g k s = .next s') (ht : Machine.completeSlot g k t = .next t') : SameHead s' t' := by
  have hunits : t.units g = s.units g := by rw [h.frame]; cases g <;> rfl
  have hfinished (i : Nat) : t.finished g i = s.finished g i := by rw [h.frame]; rfl
  simp only [Machine.completeSlot, hunits, hfinished] at hs ht
  have nothing (hs : s = s') (ht : t = t') : SameHead s' t' := hs ▸ ht ▸ h
  rcases hk : (s.units g)[k]? with _ | _ | i <;> simp only [hk, Host.Outcome.next.injEq] at hs ht
  · exact nothing hs ht
  · exact nothing hs ht
  · cases hfin : s.finished g i <;>
      simp only [hfin, if_true, Bool.false_eq_true, if_false, Host.Outcome.next.injEq] at hs ht
    · exact nothing hs ht
    · exact h.complete hs ht

theorem SameHead.completeGroup {g : Group} {s t s' t' : State} (h : SameHead s t)
    (hs : Machine.completeGroup g s = .next s') (ht : Machine.completeGroup g t = .next t') : SameHead s' t' := by
  have hunits : t.units g = s.units g := by rw [h.frame]; cases g <;> rfl
  unfold Machine.completeGroup at hs ht
  rw [hunits] at ht
  generalize (s.units g).length = n at hs ht
  induction n generalizing s' t' with
  | zero =>
    cases hs
    cases ht
    exact h
  | succ n ih =>
    rw [forSlots_succ] at hs ht
    exact thenStage_related (fun _ _ hu => hu.fatal) (fun _ _ => ih) (fun _ _ hu _ => hu)
      (fun _ _ _ _ _ _ hu _ => hu.completeSlot) hs ht

theorem SameHead.arbitrate {s t s' t' : State} (h : SameHead s t) (hs : Machine.arbitrate s = .next s')
    (ht : Machine.arbitrate t = .next t') : SameHead s' t' := by
  have hcand : t.candidates = s.candidates := by rw [h.frame]; rfl
  unfold Machine.arbitrate at hs ht
  rw [hcand] at ht
  cases hmin : minIndex s.candidates with
  | none =>
    simp only [hmin] at hs ht
    cases hs
    cases ht
    exact h
  | some w =>
    simp only [hmin] at hs ht
    exact h.broadcast hs ht

theorem SameHead.executeToCdb {s t s' t' : State} (h : SameHead s t) (hs : Machine.executeToCdb s = .next s')
    (ht : Machine.executeToCdb t = .next t') : SameHead s' t' := by
  refine thenStage_related (fun _ _ hu => hu.fatal) (fun u u' hu hu' => ?_) (fun _ _ hu _ => hu)
    (fun _ _ _ _ _ _ hu _ => hu.arbitrate) hs ht
  exact thenStage_related (fun _ _ hv => hv.fatal) (fun _ _ => h.completeGroup) (fun _ _ hv _ => hv)
    (fun _ _ _ _ _ _ hv _ => hv.completeGroup) hu hu'

/-! ### The dispatch stage sees the head -/

/-- Taking the head from both queues. -/
theorem SameBehindQueue.tail {s t : State} {h : Nat} {q q' : List Nat} (hst : SameBehindQueue s t) (hs : s.ifq = h :: q)
    (ht : t.ifq = h :: q') : SameBehindQueue { s with ifq := q } { t with ifq := q' } where
  frame := congrArg (fun u : State => { u with ifq := q' }) hst.frame
  remaining := by
    have hrem := hst.remaining
    rw [State.remaining, State.remaining, hs, ht] at hrem
    exact (List.cons.inj hrem).2

theorem captureDeps_queueBlind (h : Nat) (o : Operands) : QueueBlind (State.captureDeps h o) := fun _ _ _ => rfl

theorem rename_queueBlind (h : Nat) (d : RegId) : QueueBlind (State.rename h d) := fun _ _ _ => by cases d <;> rfl

theorem renameDests_queueBlind (h : Nat) (o : Operands) : QueueBlind (State.renameDests h o) := fun s q n => by
  rw [State.renameDests, rename_queueBlind, rename_queueBlind, State.renameDests]

/-- Captures, renaming and the station of an allocation, in that order (R145 to R148). -/
theorem placing_queueBlind (g : Group) (o : Operands) (h j : Nat) :
    QueueBlind fun s => ((s.captureDeps h o).renameDests h o).setStations g ((s.stations g).set j (some h)) := by
  intro s q n
  simp only [captureDeps_queueBlind h o s q n, renameDests_queueBlind h o _ q n]
  cases g <;> rfl

theorem SameBehindQueue.allocate {s t : State} {h : Nat} {q q' : List Nat} (hst : SameBehindQueue s t)
    (hs : s.ifq = h :: q) (ht : t.ifq = h :: q') (g : Group) (o : Operands) :
    SameBehindQueue (s.allocate g o) (t.allocate g o) := by
  have hstations : t.stations g = s.stations g := by rw [hst.frame]; cases g <;> rfl
  cases hfree : firstFree (s.stations g) with
  | none =>
    have hfull := firstFree_eq_none.mp hfree
    rw [allocate_of_full hfull, allocate_of_full (hstations ▸ hfull)]
    exact hst
  | some j =>
    have hplaced := hst.map (placing_queueBlind g o h j) fun u =>
      ((captureDeps_sameInputs u h o).trans (renameDests_sameInputs _ h o)).trans (setStations_sameInputs (by simp))
    rw [allocate_of_firstFree hs hfree, allocate_of_firstFree ht (by rw [hstations]; exact hfree)]
    exact hplaced.tail (by simpa using hs) (by simpa using ht)

theorem SameHead.dispatchHead {s t s' t' : State} (h : SameHead s t) (hs : Machine.dispatchHead s = .next s')
    (ht : Machine.dispatchHead t = .next t') : SameBehindQueue s' t' := by
  have hhead := h.head
  unfold Machine.dispatchHead peek at hs ht
  rw [hhead] at ht
  cases hq : s.ifq with
  | nil =>
    simp only [hq, List.head?_nil] at hs ht
    cases hs
    cases ht
    exact h.toSameBehindQueue
  | cons w q =>
    obtain ⟨q', hq'⟩ : ∃ q', t.ifq = w :: q' := by
      rw [hq] at hhead
      exact List.head?_eq_some_iff.mp hhead
    simp only [hq, List.head?_cons] at hs ht
    have hread := h.traceRead w
    unfold Machine.visitRecord at hs ht
    rw [hread] at ht
    rcases hr : s.traceRead w with _ | ⟨e | instr⟩ <;> simp only [hr] at hs ht
    · cases hs
      cases ht
      exact h.toSameBehindQueue.map (raiseFatal_queueBlind _) fun u => raiseFatal_sameInputs u _
    · cases hs
    · rw [exec_at_dispatch rfl, leaveVisit] at hs ht
      cases hs
      cases ht
      have hvisit (v : Visit) {u u' : State} (hu : SameBehindQueue u u') :
          SameBehindQueue { u with visit := v } { u' with visit := v } :=
        hu.map (F := fun u => { u with visit := v }) (fun _ _ _ => rfl) fun u => SameInputs.refl u
      have hst := hvisit .dispatch h.toSameBehindQueue
      apply hvisit
      split
      · simp only [discardHead_eq_of_ifq_cons (s := { s with visit := .dispatch }) hq,
          discardHead_eq_of_ifq_cons (s := { t with visit := .dispatch }) hq']
        exact hst.tail hq hq'
      split
      · exact hst.allocate hq hq' _ _
      split
      · exact hst.allocate hq hq' _ _
      · exact hst.map (raiseFatal_queueBlind _) fun u => raiseFatal_sameInputs u _

theorem SameHead.dispatchToIssue {s t s' t' : State} (h : SameHead s t) (hs : Machine.dispatchToIssue s = .next s')
    (ht : Machine.dispatchToIssue t = .next t') : SameBehindQueue s' t' := by
  refine thenStage_related (R := SameBehindQueue) (fun _ _ hu => hu.fatal) (fun _ _ => h.dispatchHead)
    (fun _ _ hu _ => hu) (fun u u' v v' _ _ hu _ hv hv' => ?_) hs ht
  cases hv
  cases hv'
  exact hu.map stampIssue_queueBlind stampIssue_sameInputs

theorem SameHead.stagesBeforeFetch {s t s' t' : State} (h : SameHead s t) (hs : Machine.stagesBeforeFetch s = .next s')
    (ht : Machine.stagesBeforeFetch t = .next t') : SameBehindQueue s' t' :=
  thenStage_related (R := SameHead) (fun _ _ hu => hu.fatal)
    (fun _ _ => (h.map cdbToRetire_queueBlind cdbToRetire_sameInputs).executeToCdb)
    (fun _ _ hu _ => hu.toSameBehindQueue)
    (fun _ _ _ _ _ _ hu _ => (hu.map issueToExecute_queueBlind issueToExecute_sameInputs).dispatchToIssue) hs ht

/-! ### The fetch stage makes the heads equal again -/

/-- After the fetch part the head of the queue is the first record to dispatch: on an empty queue the guard holds for
every bound. -/
theorem fetchPart_head {b : Nat} {s t : State} (h : FetchReady s) (hfatal : s.fatal = none)
    (ht : fetchPart b s = .next t) :
    t = s.withQueue t.ifq t.fetchIndex ∧ t.remaining = s.remaining ∧ t.ifq.head? = t.remaining.head? ∧ FetchReady t := by
  have hcursor := h.cursor
  obtain ⟨hguard, rfl⟩ | ⟨hguard, ⟨k, htraps, hclass, rfl⟩ | ⟨htraps, -⟩⟩ := fetchPart_eq_next h.visit hfatal ht
  · refine ⟨rfl, rfl, ?_, h⟩
    cases hq : t.ifq with
    | nil =>
      have hend : t.fetchIndex = t.size := by
        by_contra hne
        rw [fetchGuard_eq_true.mpr ⟨by simp [hq], by omega⟩] at hguard
        cases hguard
      rw [h.remaining_eq_nil.mpr ⟨hq, hend⟩]
    | cons w q => simp [State.remaining, hq]
  · refine ⟨rfl, remaining_fetched htraps hclass, ?_, h.visit, (le_size_of_classHas hclass).2, h.last⟩
    cases hq : s.ifq <;> simp [State.remaining, State.fetched, hq]
  · have hlt := (fetchGuard_eq_true.mp hguard).2
    have hlast := h.last
    rw [htraps s.size hlt (by omega)] at hlast
    cases hlast

theorem SameHead.stampHead {s t : State} (h : SameHead s t) : SameHead (stampHead s) (stampHead t) := by
  cases hq : s.ifq.head? with
  | none =>
    have hq' := h.head.trans hq
    simpa only [Machine.stampHead, peek, hq, hq'] using h
  | some w =>
    have hq' := h.head.trans hq
    simp only [Machine.stampHead, peek, hq, hq']
    have hcycle : t.cycle = s.cycle := by rw [h.frame]; rfl
    rw [hcycle]
    exact h.map (F := fun u => u.updateRecord w fun r => if r.tDisp = 0 then { r with tDisp := s.cycle } else r)
      (fun _ _ _ => rfl) fun u => updateRecord_sameInputs u w _

theorem SameBehindQueue.fetchToDispatch {b c : Nat} {s t s' t' : State} (h : SameBehindQueue s t) (hs : FetchReady s)
    (ht : FetchReady t) (hfatal : s.fatal = none) (hs' : Machine.fetchToDispatch b s = .next s')
    (ht' : Machine.fetchToDispatch c t = .next t') : SameHead s' t' ∧ FetchReady s' ∧ FetchReady t' := by
  have hfatal' : t.fatal = none := h.fatal.trans hfatal
  have part {u u' : State} (hu : fetchPart b s = .next u) (hu' : fetchPart c t = .next u') :
      SameHead u u' ∧ FetchReady u ∧ FetchReady u' := by
    obtain ⟨hframe, hrem, hhead, hready⟩ := fetchPart_head hs hfatal hu
    obtain ⟨hframe', hrem', hhead', hready'⟩ := fetchPart_head ht hfatal' hu'
    refine ⟨⟨⟨?_, ?_⟩, ?_⟩, hready, hready'⟩
    · have hst : t.withQueue u'.ifq u'.fetchIndex = s.withQueue u'.ifq u'.fetchIndex := by
        rw [h.frame]
        rfl
      have hu : u.withQueue u'.ifq u'.fetchIndex = s.withQueue u'.ifq u'.fetchIndex := by
        rw [hframe]
        rfl
      exact hframe'.trans (hst.trans hu.symm)
    · rw [hrem', hrem, h.remaining]
    · rw [hhead, hhead', hrem', hrem, h.remaining]
  refine thenStage_related (R := fun u u' => SameHead u u' ∧ FetchReady u ∧ FetchReady u')
    (S := fun u u' => SameHead u u' ∧ FetchReady u ∧ FetchReady u') (fun _ _ hu => hu.1.fatal) (fun _ _ => part)
    (fun _ _ hu _ => hu) (fun u u' v v' _ _ ⟨hu, hready, hready'⟩ _ hv hv' => ?_) hs' ht'
  cases hv
  cases hv'
  have keeps {u : State} (hu : FetchReady u) : FetchReady (Machine.stampHead u) :=
    fetchReady_of_sameQueue hu (stampHead_sameInputs u) (stampHead_sameQueue u).2
      (restingVisit_actionRel.stampHead u hu.visit)
  exact ⟨hu.stampHead, keeps hready, keeps hready'⟩

/-! ### The step and the run -/

/-- The two runs after the same number of steps: the states agree behind the queue, and if the runs go on, they are in
order for it. -/
structure QueueSim (s t : State) : Prop where
  same : SameBehindQueue s t
  goesOn : s.fatal = none → SameHead s t ∧ FetchReady s ∧ FetchReady t

theorem QueueSim.done {s t : State} (h : QueueSim s t) (hfatal : s.fatal = none) : t.done = s.done := by
  obtain ⟨-, hs, ht⟩ := h.goesOn hfatal
  have hempty : (t.ifq = [] ∧ t.fetchIndex = t.size) ↔ (s.ifq = [] ∧ s.fetchIndex = s.size) := by
    rw [← hs.remaining_eq_nil, ← ht.remaining_eq_nil, h.same.remaining]
  have hframe := h.same.frame
  have hint : t.rsInt = s.rsInt := by rw [hframe]; rfl
  have hfp : t.rsFp = s.rsFp := by rw [hframe]; rfl
  have huint : t.fuInt = s.fuInt := by rw [hframe]; rfl
  have hufp : t.fuFp = s.fuFp := by rw [hframe]; rfl
  have hcdb : t.cdb = s.cdb := by rw [hframe]; rfl
  rw [Bool.eq_iff_iff, terminationPredicate, terminationPredicate]
  simp only [hint, hfp, huint, hufp, hcdb, List.length_eq_zero_iff]
  tauto

theorem QueueSim.ended {s t : State} (h : QueueSim s t) (hfatal : s.fatal = none) : t.ended = s.ended := by
  have hcycle : t.cycle = s.cycle := by rw [h.same.frame]; rfl
  rw [State.ended, State.ended, h.done hfatal, hcycle]

theorem QueueSim.cycleWith {b c : Nat} {s t s' t' : State} (h : QueueSim s t) (hfatal : s.fatal = none)
    (hs' : cycleWith b s = .next s') (ht' : cycleWith c t = .next t') : QueueSim s' t' := by
  obtain ⟨hhead, hs, ht⟩ := h.goesOn hfatal
  have tick {u u' : State} (hu : SameHead u u') : SameHead u.tick u'.tick :=
    hu.map (F := State.tick) (fun _ _ _ => rfl) fun u => SameInputs.refl u
  refine thenStage_related (R := QueueSim) (fun _ _ hu => hu.same.fatal) (fun u u' hu hu' => ?_) (fun _ _ hu _ => hu)
    (fun u u' v v' _ _ hu hnone hv hv' => ?_) hs' ht'
  · refine thenStage_related (fun _ _ hv => hv.fatal) (fun _ _ => hhead.stagesBeforeFetch)
      (fun _ _ hv hne => ⟨hv, fun hnone => absurd hnone hne⟩) (fun v v' w w' hrun hrun' hv hnone hw hw' => ?_) hu hu'
    have hsim := hv.fetchToDispatch (stagesBeforeFetch_fetchReady hs hrun) (stagesBeforeFetch_fetchReady ht hrun') hnone
      hw hw'
    exact ⟨hsim.1.toSameBehindQueue, fun _ => hsim⟩
  · cases hv
    cases hv'
    obtain ⟨hhead, hready, hready'⟩ := hu.goesOn hnone
    exact ⟨(tick hhead).toSameBehindQueue, fun _ => ⟨tick hhead, ⟨hready.1, hready.2, hready.3⟩,
      ⟨hready'.1, hready'.2, hready'.3⟩⟩⟩

theorem QueueSim.stepWith {b c : Nat} {s t s' t' : State} (h : QueueSim s t) (hs' : stepWith b s = .next s')
    (ht' : stepWith c t = .next t') : QueueSim s' t' := by
  obtain ⟨hfatal, hs⟩ := stepWith_eq_next hs'
  obtain ⟨-, ht⟩ := stepWith_eq_next ht'
  rw [h.ended hfatal] at ht
  obtain ⟨hended, rfl⟩ | ⟨hended, hs⟩ := hs <;> obtain ⟨hended', rfl⟩ | ⟨hended', ht⟩ := ht
  · exact h
  · rw [hended] at hended'
    cases hended'
  · rw [hended] at hended'
    cases hended'
  · exact h.cycleWith hfatal hs ht

theorem QueueSim.runSteps {b c n : Nat} {s t s' t' : State} (h : QueueSim s t) (hs : runSteps b n s = .next s')
    (ht : runSteps c n t = .next t') : QueueSim s' t' := by
  induction n generalizing s t with
  | zero =>
    cases hs
    cases ht
    exact h
  | succ n ih =>
    cases hu : Machine.stepWith b s <;> simp only [Machine.runSteps, hu] at hs
    case next u =>
      cases hu' : Machine.stepWith c t <;> simp only [Machine.runSteps, hu'] at ht
      case next u' => exact ih (h.stepWith hu hu') hs ht
      all_goals cases ht
    all_goals cases hs

/-- Settles O55: the two runs start in one state, and the simulation keeps memory, counter and termination equal. -/
theorem queueDepthIsUnobservable : Obligations.QueueDepthIsUnobservable := by
  intro p trace b c n s t _ hlast hs ht
  have hready : FetchReady (State.resetWith p trace) := by
    refine ⟨rfl, Nat.zero_le _, not_isTrap_of_lastNoTrap ?_⟩
    have hregs : (State.resetWith p trace).nRegs = p.nRegs := by simp [State.nRegs, State.resetWith]
    rw [hregs]
    exact hlast
  have hstart : SameHead (State.resetWith p trace) (State.resetWith p trace) := ⟨⟨rfl, rfl⟩, rfl⟩
  have hsim : QueueSim s t := QueueSim.runSteps ⟨hstart.toSameBehindQueue, fun _ => ⟨hstart, hready, hready⟩⟩ hs ht
  have hframe := hsim.same.frame
  have hcycle : t.cycle = s.cycle := by rw [hframe]; rfl
  refine ⟨by rw [hframe]; rfl, hcycle.symm, ?_⟩
  have hfatal := hsim.same.fatal
  by_cases hnone : s.fatal = none
  · simp only [State.returnedCount, hfatal, hsim.ended hnone, hcycle]
  · simp only [State.returnedCount, hfatal, hnone, false_and, if_false]

end Sys2Proof.Machine
end

section

/-! # Proofs: every run of a well-formed trace terminates (R244)

Each record carries a load, which says how far it is from leaving the pipeline. No stage raises a load, the increment of
the counter lowers that of every record that is still computing, and in a cycle in which no record is computing some stage
lowers another one. So the sum of the loads falls in every cycle until nothing is left. -/

namespace Sys2Proof.Machine

/-! ### The load of a record -/

/-- How far record `i` is from leaving the slots: not fetched, queued, waiting in a station, computing for some more
cycles, in no slot. -/
def State.place (s : State) (i : Nat) : Nat :=
  if s.fetchIndex < i then 14
  else if i ∈ s.ifq then 13
  else if i ∈ s.stationed then
    if (s.record i).tExec = 0 then 12 else 2 + min 9 ((s.record i).tExec + s.latencyOf i - s.cycle)
  else 0

/-- How far record `i` is from leaving the pipeline; the bus is the last place. -/
def State.load (s : State) (i : Nat) : Nat := s.place i + if s.cdb = some i then 1 else 0

/-- Record `i` is dispatched: the cursor has passed it and it has left the queue. -/
def State.dispatched (s : State) (i : Nat) : Prop := i ≤ s.fetchIndex ∧ i ∉ s.ifq

section

variable {s : State} {i : Nat}

theorem place_unfetched (h : s.fetchIndex < i) : s.place i = 14 := if_pos h

theorem place_queued (h : i ≤ s.fetchIndex) (hq : i ∈ s.ifq) : s.place i = 13 := by
  simp [State.place, h.not_gt, hq]

theorem place_stationed (h : s.dispatched i) (hst : s.inStation i) :
    s.place i = if (s.record i).tExec = 0 then 12 else 2 + min 9 ((s.record i).tExec + s.latencyOf i - s.cycle) := by
  simp [State.place, h.1.not_gt, h.2, mem_stationed.mpr hst]

theorem place_left (h : s.dispatched i) (hst : ¬ s.inStation i) : s.place i = 0 := by
  simp [State.place, h.1.not_gt, h.2, mem_stationed.not.mpr hst]

theorem place_le_of_dispatched (h : s.dispatched i) : s.place i ≤ 12 := by
  by_cases hst : s.inStation i
  · rw [place_stationed h hst]
    split <;> omega
  · rw [place_left h hst]
    exact Nat.zero_le _

theorem two_le_place (h : s.dispatched i) (hst : s.inStation i) : 2 ≤ s.place i := by
  rw [place_stationed h hst]
  split <;> omega

theorem place_le_load : s.place i ≤ s.load i := Nat.le_add_right ..

theorem load_le_succ : s.load i ≤ s.place i + 1 := by
  unfold State.load
  split <;> omega

theorem load_of_not_bus (h : s.cdb ≠ some i) : s.load i = s.place i := by rw [State.load, if_neg h, Nat.add_zero]

end

/-- No record has a higher load in `t` than in `s`. -/
def Eases (s t : State) : Prop := ∀ i, t.load i ≤ s.load i

/-- Some record of the trace has a lower load in `t` than in `s`. -/
def Moves (s t : State) : Prop := ∃ i, 1 ≤ i ∧ i ≤ s.size ∧ t.load i < s.load i

theorem Eases.refl (s : State) : Eases s s := fun _ => Nat.le_refl _

theorem Eases.trans {s t u : State} (h : Eases s t) (k : Eases t u) : Eases s u := fun i => (k i).trans (h i)

theorem Moves.trans_eases {s t u : State} (h : Moves s t) (k : Eases t u) : Moves s u := by
  obtain ⟨i, h1, hi, hlt⟩ := h
  exact ⟨i, h1, hi, (k i).trans_lt hlt⟩

theorem Eases.trans_moves {s t u : State} (h : Eases s t) (hin : SameInputs s t) (k : Moves t u) : Moves s u := by
  obtain ⟨i, h1, hi, hlt⟩ := k
  exact ⟨i, h1, hin.size ▸ hi, hlt.trans_le (h i)⟩

theorem not_moves_self (s : State) : ¬ Moves s s := fun ⟨_, _, _, hlt⟩ => lt_irrefl _ hlt

/-- What a stage may do to a record without moving it back: records move on in the order of the places, and a start stamp
is written to a record that has none. -/
theorem place_mono {s t : State} {i : Nat} (hin : SameInputs s t) (hcycle : t.cycle = s.cycle)
    (hcursor : s.fetchIndex ≤ t.fetchIndex) (hifq : i ∈ t.ifq → i ∈ s.ifq ∨ s.fetchIndex < i)
    (hstation : s.dispatched i → t.inStation i →
      s.inStation i ∧ ((s.record i).tExec = 0 ∨ (t.record i).tExec = (s.record i).tExec)) : t.place i ≤ s.place i := by
  by_cases hle : s.fetchIndex < i
  · rw [place_unfetched hle]
    unfold State.place
    split_ifs <;> omega
  by_cases hq : i ∈ s.ifq
  · rw [place_queued (by omega) hq]
    have hfetched : ¬ t.fetchIndex < i := by omega
    simp only [State.place, hfetched, if_false]
    split_ifs <;> omega
  have hs : s.dispatched i := ⟨by omega, hq⟩
  have ht : t.dispatched i := ⟨by omega, fun hmem => (hifq hmem).elim hq hle⟩
  by_cases hst : t.inStation i
  · obtain ⟨hst', hexec⟩ := hstation hs hst
    rw [place_stationed hs hst']
    by_cases h0 : (s.record i).tExec = 0
    · rw [if_pos h0]
      exact place_le_of_dispatched ht
    · rw [place_stationed ht hst, hexec.resolve_left h0, hin.latencyOf, hcycle]
  · rw [place_left ht hst]
    exact Nat.zero_le _

/-- A record comes to the bus from a slot only. -/
theorem load_mono {s t : State} {i : Nat} (hplace : t.place i ≤ s.place i)
    (hcdb : t.cdb = some i → s.cdb = some i ∨ t.place i < s.place i) : t.load i ≤ s.load i := by
  by_cases hb : t.cdb = some i
  · obtain hs | hlt := hcdb hb
    · rw [State.load, State.load, if_pos hb, if_pos hs]
      omega
    · exact load_le_succ.trans (Nat.succ_le_of_lt (hlt.trans_le place_le_load))
  · rw [load_of_not_bus hb]
    exact hplace.trans place_le_load

/-- A stage that leaves queue, cursor and bus alone. -/
theorem eases_of_sameQueue {s t : State} (hin : SameInputs s t) (hq : SameQueue s t) (hcycle : t.cycle = s.cycle)
    (hcdb : t.cdb = s.cdb)
    (hstation : ∀ i, t.inStation i →
      s.inStation i ∧ ((s.record i).tExec = 0 ∨ (t.record i).tExec = (s.record i).tExec)) : Eases s t := fun i =>
  load_mono (place_mono hin hcycle hq.2.ge (fun h => .inl (hq.1 ▸ h)) fun _ => hstation i) fun h => .inl (hcdb ▸ h)

theorem SlotInv.dispatched {b : Nat} {s : State} (h : SlotInv b s) {i : Nat} (hi : s.inStation i) : s.dispatched i := by
  obtain ⟨g, hg⟩ := hi
  obtain ⟨-, hle, hifq, -⟩ := h.station g i hg
  exact ⟨hle, fun hmem => lt_irrefl i (hifq i hmem)⟩

theorem CycleInv.index {d u e b : Nat} {s : State} (h : CycleInv d u e b s) {i : Nat} (hi : s.inStation i) :
    1 ≤ i ∧ i ≤ s.size := by
  obtain ⟨g, hg⟩ := hi
  obtain ⟨h1, hle, -⟩ := h.slots.station g i hg
  exact ⟨h1, hle.trans h.records.queue.1⟩

/-! ### Stage 1 -/

theorem cdbToRetire_place (s : State) (i : Nat) : (cdbToRetire s).place i = s.place i := by
  obtain ⟨-, e⟩ | ⟨_, -, -, e⟩ := cdbToRetire_cases s <;> rw [e]
  have hlat : State.latencyOf { s with mapTable := clearRef _ s.mapTable, cdb := none } i = s.latencyOf i :=
    (e ▸ cdbToRetire_sameInputs s : SameInputs s _).latencyOf i
  simp only [State.place, hlat]
  rfl

theorem cdbToRetire_eases (s : State) : Eases s (cdbToRetire s) := fun i => by
  refine load_mono (cdbToRetire_place s i).le fun h => .inl ?_
  obtain ⟨-, e⟩ | ⟨_, -, -, e⟩ := cdbToRetire_cases s <;> rw [e] at h
  · exact h
  · cases h

/-- Retire takes the bus occupant out of the pipeline. -/
theorem cdbToRetire_moves {s : State} (h : s.PipelineInv) (hcdb : s.cdb ≠ none) : Moves s (cdbToRetire s) := by
  obtain ⟨i, hi⟩ := Option.ne_none_iff_exists'.mp hcdb
  obtain ⟨h1, hle, -⟩ := h.cycleInv.slots.bus i hi
  have hnone := cdbToRetire_cdb h.beforeDispatch
  refine ⟨i, h1, hle, ?_⟩
  rw [load_of_not_bus (by rw [hnone]; nofun), cdbToRetire_place, State.load, if_pos hi]
  exact Nat.lt_succ_self _

/-! ### Stage 2 -/

theorem inStation_of_releaseSlots {s : State} {g : Group} {i j : Nat} (h : (s.releaseSlots g i).inStation j) :
    s.inStation j := by
  obtain ⟨k, hk⟩ := h
  rw [releaseSlots_stations] at hk
  split at hk
  · exact ⟨k, (some_mem_clearRef.mp hk).1⟩
  · exact ⟨k, hk⟩

theorem releaseSlots_eases (s : State) (g : Group) (i : Nat) : Eases s (s.releaseSlots g i) :=
  eases_of_sameQueue (releaseSlots_sameInputs s g i) ⟨releaseSlots_ifq .., releaseSlots_fetchIndex ..⟩
    (releaseSlots_cycle ..) (releaseSlots_cdb ..) fun j hj =>
      ⟨inStation_of_releaseSlots hj, .inr (by rw [releaseSlots_record])⟩

theorem not_inStation_broadcast {b : Nat} {s : State} (h : SlotInv b s) (w : Nat) :
    ¬ (s.broadcast (s.groupOf w) w).inStation w := by
  rintro ⟨k, hk⟩
  rw [broadcast_stations] at hk
  split at hk
  · exact (some_mem_clearRef.mp hk).2 rfl
  · rename_i hne
    exact hne (h.groupOf hk).symm

/-- The winner goes from its slot to the bus. -/
theorem broadcast_eases {b : Nat} {s : State} (h : SlotInv b s) {w : Nat} (hw : w ∈ s.candidates) :
    Eases s (s.broadcast (s.groupOf w) w) := by
  have hq : SameQueue s (s.broadcast (s.groupOf w) w) := ⟨broadcast_ifq .., broadcast_fetchIndex ..⟩
  have hleft := not_inStation_broadcast h w
  obtain ⟨-, hstation, -⟩ := h.candidate hw
  have hdispatched := h.dispatched ⟨_, hstation⟩
  have hplace (i : Nat) : (s.broadcast (s.groupOf w) w).place i ≤ s.place i := by
    refine place_mono (broadcast_sameInputs ..) (broadcast_cycle ..) hq.2.ge (fun h => .inl (hq.1 ▸ h)) fun _ hi => ?_
    have hne : i ≠ w := by
      rintro rfl
      exact hleft hi
    obtain ⟨k, hk⟩ := hi
    exact ⟨⟨k, (some_mem_broadcast_stations hne k).mp hk⟩, .inr (by rw [broadcast_record_other (Ne.symm hne)])⟩
  refine fun i => load_mono (hplace i) fun hi => .inr ?_
  rw [broadcast_cdb] at hi
  cases hi
  rw [place_left (by rw [State.dispatched, hq.1, hq.2]; exact hdispatched) hleft]
  exact Nat.zero_lt_two.trans_le (two_le_place hdispatched ⟨_, hstation⟩)

/-- The stations of `t` hold nobody who was not there in `s`. -/
def StationsShrink (s t : State) : Prop := ∀ g i, some i ∈ t.stations g → some i ∈ s.stations g

theorem releaseSlots_stationsShrink (s : State) (g : Group) (i : Nat) : StationsShrink s (s.releaseSlots g i) := by
  intro k j hj
  rw [releaseSlots_stations] at hj
  split at hj
  · exact (some_mem_clearRef.mp hj).1
  · exact hj

/-- Completion in a group leaves the units of the other group alone, and stations only shrink. -/
theorem completeGroup_frame {g : Group} {s t : State} (hv : s.visit = .fetch) (h : completeGroup g s = .next t)
    (hfatal : t.fatal = none) :
    StationsShrink s t ∧ (∀ k, k ≠ g → t.units k = s.units k) ∧ SameInputs s t ∧ t.visit = .fetch := by
  obtain ⟨⟨hshrink, hunits⟩, hv'⟩ := completeGroup_induct
    (P := fun u => StationsShrink s u ∧ ∀ k, k ≠ g → u.units k = s.units k)
    (fun u i ⟨hshrink, hunits⟩ _ _ => ⟨fun k j hj => hshrink k j (releaseSlots_stationsShrink u g i k j hj),
      fun k hk => (releaseSlots_units_other u (Ne.symm hk) i).trans (hunits k hk)⟩)
    hv ⟨fun _ _ h => h, fun _ _ => rfl⟩ h hfatal
  exact ⟨hshrink, hunits, completeGroup_sameInputs h, hv'⟩

/-- After completion in both groups a finished occupant of a unit has left its station, or it is a candidate. -/
theorem completion_leaves_or_candidate {c : Nat} {s u v : State} {g : Group} {i : Nat} (h : BeforeDispatch c c c s)
    (hi : some i ∈ s.units g) (hfin : s.finished g i = true) (hint : completeGroup .int s = .next u)
    (hufatal : u.fatal = none) (hfp : completeGroup .fp u = .next v) (hvfatal : v.fatal = none) :
    some i ∉ v.stations g ∨ i ∈ v.candidates := by
  obtain ⟨-, hotherInt, hinInt, huv⟩ := completeGroup_frame h.inv.shape.2.1 hint hufatal
  obtain ⟨hshrinkFp, hotherFp, hinFp, -⟩ := completeGroup_frame huv hfp hvfatal
  obtain ⟨hint, hservedInt⟩ := forSlots_completeSlot hint hufatal
  obtain ⟨hfp, hservedFp⟩ := forSlots_completeSlot hfp hvfatal
  have hfinished : v.finished g i = true := by
    rw [State.finished, hfp.cycle, hint.cycle, record_of_mem_eq hfp.mem, record_of_mem_eq hint.mem]
    exact hfin
  obtain ⟨k, hk⟩ := List.mem_iff_getElem?.mp hi
  have hlt := (List.getElem?_eq_some_iff.mp hk).1
  cases hw : s.classHas OpClass.writesResult i with
  | false =>
    refine .inl ?_
    cases g with
    | int => exact fun hst => (hservedInt k hlt i hk ⟨hfin, hw⟩).2 (hshrinkFp .int i hst)
    | fp =>
      rw [← hotherInt .fp nofun] at hk hlt
      exact (hservedFp k hlt i hk ((leaves_congr hint.mem hint.cycle hint.mapTable .fp i).mpr ⟨hfin, hw⟩)).2
  | true =>
    refine .inr (mem_candidates.mpr ⟨g, ?_, hfinished, by rw [(hinInt.trans hinFp).classHas]; exact hw⟩)
    have stays {w : State} (hw' : w.classHas OpClass.writesResult i = true) (k : Group) : ¬ w.leaves k i := fun hl => by
      rw [hl.2] at hw'
      cases hw'
    cases g with
    | int =>
      rw [hotherFp .int nofun]
      exact List.mem_of_getElem? ((hint.occupant i).resolve_right (fun hl => stays hw _ hl.1) k hk)
    | fp =>
      rw [← hotherInt .fp nofun] at hk
      have hw' : u.classHas OpClass.writesResult i = true := by rw [hinInt.classHas]; exact hw
      exact List.mem_of_getElem? ((hfp.occupant i).resolve_right (fun hl => stays hw' _ hl.1) k hk)

theorem completeGroup_eases {c : Nat} {g : Group} {s t : State} (h : BeforeDispatch c c c s) (hcdb : s.cdb = none)
    (ht : completeGroup g s = .next t) (hfatal : t.fatal = none) :
    BeforeDispatch c c c t ∧ t.cdb = none ∧ Eases s t :=
  (completeGroup_induct (P := fun u => BeforeDispatch c c c u ∧ u.cdb = none ∧ Eases s u)
    (fun u i ⟨hu, hucdb, heases⟩ hi hl =>
      ⟨releaseSlots_beforeDispatch hu hucdb hi hl, (releaseSlots_cdb ..).trans hucdb,
        heases.trans (releaseSlots_eases u g i)⟩) h.inv.shape.2.1 ⟨h, hcdb, .refl s⟩ ht hfatal).1

/-- Leaving a station is a move. -/
theorem moves_of_left {s t : State} {i : Nat} (hindex : 1 ≤ i ∧ i ≤ s.size) (hs : s.dispatched i) (hst : s.inStation i)
    (ht : t.dispatched i) (hleft : ¬ t.inStation i) : Moves s t := by
  refine ⟨i, hindex.1, hindex.2, (load_le_succ.trans_lt ?_).trans_le place_le_load⟩
  rw [place_left ht hleft]
  exact two_le_place hs hst

theorem SameQueue.dispatched {s t : State} (h : SameQueue s t) {i : Nat} (hi : s.dispatched i) : t.dispatched i := by
  rw [State.dispatched, h.1, h.2]
  exact hi

/-- Stage 2 after completion: nothing, or the oldest candidate moves to the bus. -/
theorem arbitrate_eases {c : Nat} {s t : State} (h : BeforeDispatch c c c s) (ht : arbitrate s = .next t) :
    Eases s t ∧ (s.candidates ≠ [] → Moves s t) := by
  obtain ⟨hnil, e⟩ | ⟨w, hw, -, e⟩ := arbitrate_eq s <;> rw [e] at ht <;> cases ht
  · exact ⟨.refl s, fun hne => absurd hnil hne⟩
  · rw [withVisit_eq_self ((broadcast_visit ..).trans h.inv.shape.2.1)]
    obtain ⟨-, hstation, -⟩ := h.inv.slots.candidate hw
    have hdispatched := h.inv.slots.dispatched ⟨_, hstation⟩
    have hq : SameQueue s (s.broadcast (s.groupOf w) w) := ⟨broadcast_ifq .., broadcast_fetchIndex ..⟩
    exact ⟨broadcast_eases h.inv.slots hw, fun _ => moves_of_left (h.inv.index ⟨_, hstation⟩) hdispatched ⟨_, hstation⟩
      (hq.dispatched hdispatched) (not_inStation_broadcast h.inv.slots w)⟩

/-- Stage 2 eases, and where an occupant of a unit has finished, it moves a record. -/
theorem executeToCdb_eases {c : Nat} {s t : State} (h : BeforeDispatch c c c s) (hcdb : s.cdb = none)
    (ht : executeToCdb s = .next t) (hfatal : t.fatal = none) :
    Eases s t ∧ ((∃ g i, some i ∈ s.units g ∧ s.finished g i = true) → Moves s t) := by
  obtain ⟨-, hne⟩ | ⟨v, hv, hvfatal, ht⟩ := thenStage_eq_next.mp ht
  · exact absurd hfatal hne
  obtain ⟨-, hne⟩ | ⟨u, hint, hufatal, hfp⟩ := thenStage_eq_next.mp hv
  · exact absurd hvfatal hne
  obtain ⟨hu, hucdb, heases⟩ := completeGroup_eases h hcdb hint hufatal
  obtain ⟨hv, -, heases'⟩ := completeGroup_eases hu hucdb hfp hvfatal
  obtain ⟨harb, hmoves⟩ := arbitrate_eases hv ht
  refine ⟨(heases.trans heases').trans harb, fun ⟨g, i, hi, hfin⟩ => ?_⟩
  have hin : SameInputs s v := (completeGroup_sameInputs hint).trans (completeGroup_sameInputs hfp)
  obtain hleft | hcand := completion_leaves_or_candidate h hi hfin hint hufatal hfp hvfatal
  · obtain ⟨hstation, -⟩ := h.inv.slots.unit g i hi
    have hst : s.inStation i := ⟨g, hstation⟩
    have hdispatched := h.inv.slots.dispatched hst
    have hq : SameQueue s v := (completeGroup_sameQueue hint).trans (completeGroup_sameQueue hfp)
    obtain ⟨hshrink, -, -, huv⟩ := completeGroup_frame h.inv.shape.2.1 hint hufatal
    obtain ⟨hshrink', -⟩ := completeGroup_frame huv hfp hvfatal
    refine (moves_of_left (h.inv.index hst) hdispatched hst (hq.dispatched hdispatched) ?_).trans_eases harb
    rintro ⟨k, hk⟩
    have hgroup := h.inv.slots.groupOf (hshrink k i (hshrink' k i hk))
    rw [h.inv.slots.groupOf hstation] at hgroup
    exact hleft (hgroup ▸ hk)
  · exact (heases.trans heases').trans_moves hin (hmoves (List.ne_nil_of_mem hcand))

/-! ### Stage 3 -/

/-- Where the selected occupant starts, it moves. -/
theorem assignUnit_moves {c : Nat} {s : State} {g : Group} {k i : Nat} (h : BeforeDispatch c (c + 1) (c + 1) s)
    (hi : s.selectFor g = some i) : Eases s (s.assignUnit g k i) ∧ Moves s (s.assignUnit g k i) := by
  obtain ⟨⟨hstation, heligible⟩, -⟩ := selectFor_eq_some.mp hi
  obtain ⟨-, -, hnew, -⟩ := (eligibilityCondition s i).mp heligible
  have hst : s.inStation i := ⟨g, hstation⟩
  have hindex := h.inv.index hst
  have hholds : s.mem.holds i := (holds_iff_of_wf h.inv.shape.1 i).mpr hindex
  have hin := assignUnit_sameInputs s g k i
  have hq : SameQueue s (s.assignUnit g k i) := ⟨assignUnit_ifq .., assignUnit_fetchIndex ..⟩
  have hstations (j : Nat) : (s.assignUnit g k i).inStation j ↔ s.inStation j := by
    simp only [State.inStation, assignUnit_stations]
  have heases : Eases s (s.assignUnit g k i) := by
    refine eases_of_sameQueue hin hq (assignUnit_cycle ..) (assignUnit_cdb ..) fun j hj => ⟨(hstations j).mp hj, ?_⟩
    by_cases e : j = i
    · exact .inl (e ▸ hnew)
    · exact .inr (by rw [assignUnit_record_other (Ne.symm e)])
  have hdispatched := h.inv.slots.dispatched hst
  have hbus {u : State} (hu : u.cdb = s.cdb) : u.load i = u.place i := by
    refine load_of_not_bus fun hb => ?_
    obtain ⟨-, -, -, hout⟩ := h.inv.slots.bus i (hu ▸ hb)
    exact hout hst
  have hstarted : ((s.assignUnit g k i).record i).tExec ≠ 0 := by
    rw [assignUnit_record_self hholds]
    exact Nat.ne_of_gt h.inv.shape.2.2
  refine ⟨heases, i, hindex.1, hindex.2, ?_⟩
  rw [hbus rfl, hbus (assignUnit_cdb ..), place_stationed hdispatched hst, if_pos hnew,
    place_stationed (hq.dispatched hdispatched) ((hstations i).mpr hst), if_neg hstarted]
  omega

theorem issueSlot_eases {c : Nat} {s : State} (h : BeforeDispatch c (c + 1) (c + 1) s) (g : Group) (k : Nat) :
    Eases s (issueSlot g s k) := by
  obtain e | ⟨i, -, hi, e⟩ := issueSlot_cases g s k <;> rw [e]
  · exact .refl s
  · exact (assignUnit_moves h hi).1

theorem issueGroup_eases {c : Nat} {s : State} (h : BeforeDispatch c (c + 1) (c + 1) s) (g : Group) :
    BeforeDispatch c (c + 1) (c + 1) (issueGroup g s) ∧ Eases s (issueGroup g s) :=
  issueGroup_induct (P := fun u => BeforeDispatch c (c + 1) (c + 1) u ∧ Eases s u)
    (fun _ k ⟨hu, heases⟩ => ⟨issueSlot_beforeDispatch g k hu, heases.trans (issueSlot_eases hu g k)⟩) ⟨h, .refl s⟩

/-- Serving the unit slots of a group moves a record, or no slot has anything to do. -/
theorem issueGroup_moves_or {c : Nat} {s : State} (h : BeforeDispatch c (c + 1) (c + 1) s) (g : Group) :
    Moves s (issueGroup g s) ∨ (issueGroup g s = s ∧ ∀ k < (s.units g).length, issueSlot g s k = s) := by
  have fold (l : List Nat) : Moves s (l.foldl (issueSlot g) s) ∨
      (l.foldl (issueSlot g) s = s ∧ ∀ k ∈ l, issueSlot g s k = s) := by
    induction l with
    | nil => exact .inr ⟨rfl, nofun⟩
    | cons k l ih =>
      obtain e | ⟨i, -, hi, e⟩ := issueSlot_cases g s k <;> rw [List.foldl_cons, e]
      · refine ih.imp_right fun ⟨hfold, hl⟩ => ⟨hfold, fun j hj => ?_⟩
        obtain rfl | hj := List.mem_cons.mp hj
        · exact e
        · exact hl j hj
      · have keeps (u : State) (hu : BeforeDispatch c (c + 1) (c + 1) u) : Eases u (l.foldl (issueSlot g) u) := by
          clear ih
          induction l generalizing u with
          | nil => exact .refl u
          | cons n l ih => exact (issueSlot_eases hu g n).trans (ih _ (issueSlot_beforeDispatch g n hu))
        have hslot := issueSlot_beforeDispatch g k h
        rw [e] at hslot
        exact .inl ((assignUnit_moves h hi).2.trans_eases (keeps _ hslot))
  simpa [issueGroup] using fold (List.range (s.units g).length)

theorem issueToExecute_eases {c : Nat} {s : State} (h : BeforeDispatch c (c + 1) (c + 1) s) :
    Eases s (issueToExecute s) := by
  obtain ⟨hint, heases⟩ := issueGroup_eases h .int
  exact heases.trans (issueGroup_eases hint .fp).2

/-- A free unit and an eligible occupant of its group: somebody starts. -/
theorem issueToExecute_moves {c : Nat} {s : State} (h : BeforeDispatch c (c + 1) (c + 1) s) {g : Group} {i k : Nat}
    (hfree : (s.units g)[k]? = some none) (hstation : some i ∈ s.stations g) (hi : s.eligible i = true) :
    Moves s (issueToExecute s) := by
  have hbusy : ¬ ∀ k < (s.units g).length, issueSlot g s k = s := by
    intro hidle
    have hslot := hidle k (List.getElem?_eq_some_iff.mp hfree).1
    cases hselect : s.selectFor g with
    | none =>
      have := selectFor_eq_none.mp hselect i hstation
      rw [hi] at this
      cases this
    | some j =>
      rw [issueSlot_eq_assignUnit hfree hselect] at hslot
      have hmoves := (assignUnit_moves (k := k) h hselect).2
      rw [hslot] at hmoves
      exact not_moves_self s hmoves
  obtain ⟨hint, -⟩ := issueGroup_eases h .int
  unfold issueToExecute
  obtain hmoves | ⟨e, hidleInt⟩ := issueGroup_moves_or h .int
  · exact hmoves.trans_eases (issueGroup_eases hint .fp).2
  rw [e]
  obtain hmoves | ⟨-, hidleFp⟩ := issueGroup_moves_or h .fp
  · exact hmoves
  · cases g
    · exact absurd hidleInt hbusy
    · exact absurd hidleFp hbusy

/-! ### Stage 4 -/

theorem placeHead_eases {c j w : Nat} {rest : List Nat} {g : Group} {o : Operands} {s : State}
    (h : BeforeDispatch c (c + 1) (c + 1) s) (hifq : s.ifq = w :: rest) (hfree : firstFree (s.stations g) = some j) :
    Eases s (s.placeHead g o) ∧ (s.placeHead g o).ifq = rest ∧ (s.placeHead g o).fetchIndex = s.fetchIndex ∧
      (s.placeHead g o).cdb = s.cdb := by
  obtain ⟨hle, -, hmem, -⟩ := h.inv.records.queue
  have hwq : w ∈ s.ifq := by rw [hifq]; exact List.mem_cons_self
  obtain ⟨h1, h2, -⟩ := hmem w hwq
  have hholds : s.mem.holds w := (holds_iff_of_wf h.inv.shape.1 w).mpr ⟨h1, h2.trans hle⟩
  obtain ⟨hnew, -⟩ := h.inv.records.queued w hwq
  have hrec := placeHead_record (o := o) hifq hfree (fun i hi => h.inv.slots.issued hi) hholds hnew
  obtain ⟨hin, hq, hcursor, hstations, -, hcdb, hcycle, -⟩ := placeHead_frame (o := o) hifq hfree hholds
  refine ⟨fun i => load_mono (place_mono hin hcycle hcursor.ge (fun hi => .inl ?_) fun hi hst => ⟨?_, .inr ?_⟩)
    fun hi => .inl (hcdb ▸ hi), hq, hcursor, hcdb⟩
  · rw [hq] at hi
    rw [hifq]
    exact List.mem_cons_of_mem w hi
  · obtain ⟨k, hk⟩ := hst
    rw [hstations] at hk
    split at hk
    case isFalse => exact ⟨k, hk⟩
    case isTrue e =>
      obtain rfl | hk := (some_mem_set_of_free (e ▸ (firstFree_eq_some.mp hfree).1)).mp hk
      · exact absurd hwq hi.2
      · exact ⟨k, hk⟩
  · rw [hrec]
    split <;> rfl

/-- Stage 4 eases, and where the head is a branch or a station is free for it, it moves. -/
theorem dispatchToIssue_eases {c : Nat} {s t : State} (h : BeforeDispatch c (c + 1) (c + 1) s)
    (ht : dispatchToIssue s = .next t) (hfatal : t.fatal = none) :
    Eases s t ∧ (s.ifq ≠ [] → (∀ g, none ∈ s.stations g) → Moves s t) := by
  have moved {w : Nat} {rest : List Nat} (hifq : s.ifq = w :: rest) (hq : t.ifq = rest)
      (hcursor : t.fetchIndex = s.fetchIndex) (hcdb : t.cdb = s.cdb) : Moves s t := by
    have hwq : w ∈ s.ifq := by rw [hifq]; exact List.mem_cons_self
    obtain ⟨hle, hascend, hmem, -⟩ := h.inv.records.queue
    obtain ⟨h1, h2, -⟩ := hmem w hwq
    rw [hifq] at hascend
    have hleft : t.dispatched w := ⟨hcursor ▸ h2, fun hin => lt_irrefl w ((List.pairwise_cons.mp hascend).1 w (hq ▸ hin))⟩
    refine ⟨w, h1, h2.trans hle, ?_⟩
    have hplace := place_le_of_dispatched hleft
    have hqueued := place_queued h2 hwq
    rw [State.load, State.load, hcdb]
    omega
  obtain ⟨hstall, rfl⟩ | ⟨w, rest, hifq, -, rfl⟩ | ⟨w, rest, g, j, instr, hifq, -, -, hfree, rfl⟩ :=
    dispatchToIssue_cases h.inv.shape.2.1 (fun i hi => h.inv.slots.issued hi) ht hfatal
  · refine ⟨.refl t, fun hne hstations => ?_⟩
    obtain hnil | ⟨-, -, g, -, hfull⟩ := hstall
    · exact absurd hnil hne
    · exact absurd (hstations g) hfull
  · refine ⟨fun i => load_mono (place_mono (SameInputs.refl s) rfl (Nat.le_refl _)
      (fun hi => .inl (List.mem_of_mem_tail hi)) fun _ hi => ⟨?_, .inr rfl⟩) .inl, fun _ _ => moved hifq ?_ rfl rfl⟩
    · obtain ⟨k, hk⟩ := hi
      exact ⟨k, by cases k <;> exact hk⟩
    · simp [hifq]
  · obtain ⟨heases, hq, hcursor, hcdb⟩ := placeHead_eases (o := instr.operands) h hifq hfree
    exact ⟨heases, fun _ _ => moved hifq hq hcursor hcdb⟩

/-! ### Stage 5 and the increment -/

theorem stampHead_eases (s : State) : Eases s (stampHead s) := by
  have hrec := stampHead_record s
  obtain ⟨m, hm, -⟩ := stampHead_frame s
  refine eases_of_sameQueue (stampHead_sameInputs s) (stampHead_sameQueue s) ?_ ?_ fun i hi => ⟨?_, .inr ?_⟩
  · rw [hm]
  · rw [hm]
  · rw [hm] at hi
    obtain ⟨k, hk⟩ := hi
    exact ⟨k, by cases k <;> exact hk⟩
  · rw [hrec]
    split <;> rfl

theorem fetched_eases (s : State) (k : Nat) : Eases s (s.fetched k) := fun i => by
  refine load_mono (place_mono (SameInputs.refl s) rfl ?_ (fun hi => ?_) fun _ hi => ⟨?_, .inr rfl⟩) .inl
  · simp only [State.fetched]
    omega
  · obtain hi | hi := List.mem_append.mp hi
    · exact .inl hi
    · obtain rfl := List.mem_singleton.mp hi
      exact .inr (by omega)
  · obtain ⟨k, hk⟩ := hi
    exact ⟨k, by cases k <;> exact hk⟩

/-- Stage 5 eases, and where the guard holds, it moves a record to the queue. -/
theorem fetchToDispatch_eases {b : Nat} {s t : State} (hv : s.visit = .fetch) (hs : s.fatal = none)
    (ht : fetchToDispatch b s = .next t) (hfatal : t.fatal = none) :
    Eases s t ∧ (s.fetchGuard b = true → Moves s t) := by
  obtain ⟨-, hne⟩ | ⟨u, hu, hufatal, rfl⟩ := fetchToDispatch_eq_next.mp ht
  · exact absurd hfatal hne
  obtain ⟨hguard, rfl⟩ | ⟨hguard, ⟨k, htraps, hclass, rfl⟩ | ⟨-, rfl⟩⟩ := fetchPart_eq_next hv hs hu
  · refine ⟨stampHead_eases u, fun hg => ?_⟩
    rw [hguard] at hg
    cases hg
  · refine ⟨(fetched_eases s k).trans (stampHead_eases _), fun _ => Moves.trans_eases ?_ (stampHead_eases _)⟩
    obtain ⟨h1, hle⟩ := le_size_of_classHas hclass
    have hcdb : (s.fetched k).cdb = s.cdb := rfl
    have hnew : s.place (s.fetchIndex + k + 1) = 14 := place_unfetched (by omega)
    have hqueued : (s.fetched k).place (s.fetchIndex + k + 1) = 13 :=
      place_queued (s := s.fetched k) (Nat.le_refl _) (by simp [State.fetched])
    refine ⟨s.fetchIndex + k + 1, h1, hle, ?_⟩
    rw [State.load, State.load, hcdb, hnew, hqueued]
    omega
  · exact absurd hufatal (raiseFatal_fatal_ne_none _ _)

theorem latencyOf_le (s : State) (i : Nat) : s.latencyOf i ≤ 9 := by
  unfold State.latencyOf
  split <;> decide

theorem tick_place_stationed {s : State} {i : Nat} (h : s.dispatched i) (hst : s.inStation i) :
    s.tick.place i =
      if (s.record i).tExec = 0 then 12 else 2 + min 9 ((s.record i).tExec + s.latencyOf i - (s.cycle + 1)) := by
  have hst' : s.tick.inStation i := by
    obtain ⟨k, hk⟩ := hst
    exact ⟨k, by cases k <;> exact hk⟩
  exact place_stationed (s := s.tick) h hst'

theorem tick_place_left {s : State} {i : Nat} (h : s.dispatched i) (hst : ¬ s.inStation i) : s.tick.place i = 0 := by
  refine place_left (s := s.tick) h fun ⟨k, hk⟩ => hst ⟨k, ?_⟩
  cases k <;> exact hk

theorem tick_eases (s : State) : Eases s s.tick := fun i => by
  refine load_mono ?_ .inl
  by_cases hle : s.fetchIndex < i
  · rw [place_unfetched hle, place_unfetched (s := s.tick) hle]
  by_cases hq : i ∈ s.ifq
  · rw [place_queued (Nat.le_of_not_lt hle) hq, place_queued (s := s.tick) (Nat.le_of_not_lt hle) hq]
  have hs : s.dispatched i := ⟨Nat.le_of_not_lt hle, hq⟩
  by_cases hst : s.inStation i
  · rw [tick_place_stationed hs hst, place_stationed hs hst]
    split <;> omega
  · rw [tick_place_left hs hst]
    exact Nat.zero_le _

/-- A record that was computing when the cycle began is closer to its end, or has left its unit. -/
theorem computing_moves {s t : State} {i : Nat} (hindex : 1 ≤ i ∧ i ≤ s.size) (hs : s.dispatched i)
    (hst : s.inStation i) (hbus : s.cdb ≠ some i) (hexec : (s.record i).tExec ≠ 0)
    (hpast : (s.record i).tExec < s.cycle) (hunfinished : s.cycle < (s.record i).tExec + s.latencyOf i)
    (hcycle : t.cycle = s.cycle) (htbus : t.inStation i → t.cdb ≠ some i) (heases : Eases s t) : Moves s t.tick := by
  have hlat := latencyOf_le s i
  have hlat' := latencyOf_le t i
  have hload := heases i
  have hplace : t.place i ≤ t.load i := place_le_load
  refine ⟨i, hindex.1, hindex.2, ?_⟩
  rw [load_of_not_bus hbus, place_stationed hs hst, if_neg hexec] at hload ⊢
  have ht : t.dispatched i := by
    constructor
    · by_contra hle
      rw [place_unfetched (Nat.lt_of_not_le hle)] at hplace
      omega
    · intro hq
      by_cases hle : t.fetchIndex < i
      · rw [place_unfetched hle] at hplace
        omega
      · rw [place_queued (Nat.le_of_not_lt hle) hq] at hplace
        omega
  by_cases htst : t.inStation i
  · rw [load_of_not_bus (s := t.tick) (htbus htst), tick_place_stationed ht htst]
    rw [load_of_not_bus (htbus htst), place_stationed ht htst] at hload
    by_cases h0 : (t.record i).tExec = 0
    · rw [if_pos h0] at hload
      omega
    · rw [if_neg h0] at hload ⊢
      omega
  · refine load_le_succ.trans_lt ?_
    rw [tick_place_left ht htst]
    omega

/-! ### The cycle -/

/-- Without work in a unit or on the bus, the oldest record in a station can start: its producers, which are older, have
broadcast, for no store has a destination (R308). -/
theorem oldest_eligible {s : State} (h : WellRun s) (hunits : ∀ g i, some i ∉ s.units g) {i : Nat} (hi : s.inStation i)
    (hold : ∀ j, s.inStation j → i ≤ j) : s.eligible i = true := by
  obtain ⟨-, hrecords, hslots, -⟩ := h.inv.cycleInv
  obtain ⟨g, hg⟩ := hi
  obtain ⟨-, hle, hifq, hissue, -⟩ := hslots.station g i hg
  have hsize : i ≤ s.size := hle.trans hrecords.queue.1
  obtain ⟨-, hpast, -⟩ := hrecords.below i hsize
  refine (eligibilityCondition s i).mpr ⟨hissue, hpast, ?_, fun p hp => ?_⟩
  · by_contra hexec
    exact hunits g i (hslots.started g i hg hexec)
  · obtain ⟨h1, hlt, hpissue, ⟨r, -, hdst⟩, -⟩ := hrecords.dep.of_mem hsize hp
    obtain ⟨-, hclass, -⟩ := hrecords.classes p (hlt.le.trans hsize)
    obtain ⟨c, hc, hall⟩ := exists_class (hclass hpissue)
    have hstore := noStoreDest_of_traceOk h.traceOk p r hdst
    rw [hall] at hstore
    have hwrites : c.writesResult = true := by cases c <;> simp_all [OpClass.isInt, OpClass.isFp, OpClass.writesResult]
    obtain ⟨-, -, -, hbelow⟩ := hrecords.below p (hlt.le.trans hsize)
    obtain hq | hst | ⟨-, hbroadcast⟩ := hslots.progress p (hlt.le.trans hle) h1 (hclass hpissue)
    · exact absurd (hifq p hq) hlt.not_gt
    · exact absurd (hold p hst) hlt.not_ge
    · exact ⟨hbroadcast (by rw [hall]; exact hwrites), hbelow.ne⟩

/-- Every group has a station and a unit. -/
def State.HasSlots (s : State) : Prop := ∀ g, s.stations g ≠ [] ∧ s.units g ≠ []

theorem occupants_eq_nil {l : List Ref} (h : ∀ i, some i ∉ l) : occupants l = [] :=
  List.eq_nil_iff_forall_not_mem.mpr fun i hi => h i (mem_occupants.mp hi)

theorem exists_free {l : List Ref} (hne : l ≠ []) (hfree : ∀ i, some i ∉ l) : l[0]? = some none := by
  cases l with
  | nil => exact absurd rfl hne
  | cons r l =>
    cases r with
    | none => rfl
    | some i => exact absurd List.mem_cons_self (hfree i)

/-- No stage of a cycle raises a load. -/
theorem CycleTrace.eases {s s2 s4 s5 : State} (h : CycleTrace s s2 s4 s5) :
    Eases (cdbToRetire s) s2 ∧ Eases s2 (issueToExecute s2) ∧ Eases (issueToExecute s2) s4 ∧ Eases s4 s5 :=
  ⟨(executeToCdb_eases h.inv1 h.cdb1 h.run2 h.fatal2).1,
    issueToExecute_eases (h.inv2.mono (Nat.le_succ _) (Nat.le_refl _) (.inl rfl)),
    (dispatchToIssue_eases h.inv3 h.run4 h.fatal4).1,
    (fetchToDispatch_eases h.inv4.shape.2.1 h.fatal4 h.run5 h.fatal5).1⟩

/-- With the units and the bus empty, stages 1 and 2 do nothing. -/
theorem CycleTrace.quiet {s s2 s4 s5 : State} (h : CycleTrace s s2 s4 s5) (hfatal : s.fatal = none)
    (hcdb : s.cdb = none) (hunits : ∀ g i, some i ∉ s.units g) : s2 = s := by
  have hretire : cdbToRetire s = s := by simp only [cdbToRetire, hcdb]
  have hrun := h.run2
  rw [hretire, executeToCdb_of_units_empty hfatal fun g => occupants_eq_nil (hunits g)] at hrun
  cases hrun
  rfl

theorem CycleTrace.moves {s s2 s4 s5 : State} (h : CycleTrace s s2 s4 s5) (hs : WellRun s) (hslots : s.HasSlots)
    (hdone : s.done = false) : Moves s s5.tick := by
  obtain ⟨e2, e3, e4, e5⟩ := h.eases
  have e1 := cdbToRetire_eases s
  have etick := tick_eases s5
  by_cases hcdb : s.cdb = none
  case neg =>
    exact (cdbToRetire_moves hs.inv hcdb).trans_eases ((((e2.trans e3).trans e4).trans e5).trans etick)
  have hretire : cdbToRetire s = s := by simp only [cdbToRetire, hcdb]
  rw [hretire] at e2
  obtain ⟨-, hrecords, hslotInv, -⟩ := hs.inv.cycleInv
  by_cases hunits : ∀ g i, some i ∉ s.units g
  case neg =>
    push Not at hunits
    obtain ⟨g, i, hi⟩ := hunits
    cases hfin : s.finished g i with
    | true =>
      have hmoves := (executeToCdb_eases h.inv1 h.cdb1 h.run2 h.fatal2).2
      rw [hretire] at hmoves
      exact (hmoves ⟨g, i, hi, hfin⟩).trans_eases (((e3.trans e4).trans e5).trans etick)
    | false =>
      obtain ⟨hg, hexec⟩ := hslotInv.unit g i hi
      have hindex := hs.inv.cycleInv.index ⟨g, hg⟩
      obtain ⟨-, -, hpast, -⟩ := hrecords.below i hindex.2
      refine computing_moves hindex (hslotInv.dispatched ⟨g, hg⟩) ⟨g, hg⟩ (by rw [hcdb]; nofun) hexec hpast ?_ h.cycle5
        (fun hst hb => ?_) (((e2.trans e3).trans e4).trans e5)
      · rw [hslotInv.latencyOf hg]
        simpa [State.finished] using hfin
      · obtain ⟨-, -, -, hout⟩ := h.inv5.slots.bus i hb
        exact hout hst
  obtain rfl := h.quiet hs.fatal hcdb hunits
  by_cases hstations : ∀ i, ¬ s2.inStation i
  case neg =>
    push Not at hstations
    obtain ⟨i, hi⟩ := hstations
    cases hmin : minIndex s2.stationed with
    | none =>
      have := mem_stationed.mpr hi
      rw [minIndex_eq_none.mp hmin] at this
      cases this
    | some w =>
      obtain ⟨hw, hold⟩ := minIndex_eq_some.mp hmin
      obtain ⟨g, hg⟩ := mem_stationed.mp hw
      have heligible := oldest_eligible hs hunits ⟨g, hg⟩ fun j hj => hold j (mem_stationed.mpr hj)
      exact (issueToExecute_moves (h.inv2.mono (Nat.le_succ _) (Nat.le_refl _) (.inl rfl))
        (exists_free (hslots g).2 (hunits g)) hg heligible).trans_eases ((e4.trans e5).trans etick)
  have hfree (g : Group) (i : Nat) : some i ∉ s2.stations g := fun hg => hstations i ⟨g, hg⟩
  have hissue : issueToExecute s2 = s2 :=
    issueToExecute_of_selectFor_eq_none fun g => selectFor_of_stations_empty (occupants_eq_nil (hfree g))
  have hin4 := dispatchToIssue_sameInputs h.run4
  have hdispatch := dispatchToIssue_eases h.inv3 h.run4 h.fatal4
  rw [hissue] at hin4 hdispatch
  by_cases hifq : s2.ifq = []
  case neg =>
    exact (hdispatch.2 hifq fun g => List.mem_of_getElem? (exists_free (hslots g).1 (hfree g))).trans_eases
      (e5.trans etick)
  have hidle : s2.Idle :=
    ⟨hs.fatal, fun g => occupants_eq_nil (hfree g), fun g => occupants_eq_nil (hunits g), hifq, hcdb⟩
  have hlt : s2.fetchIndex < s2.size := by
    refine Nat.lt_of_le_of_ne hrecords.queue.1 fun hend => ?_
    rw [hidle.done hend] at hdone
    cases hdone
  have hq4 := dispatchToIssue_onlyHeadLeaves h.run4
  rw [hissue] at hq4
  have hguard : s4.fetchGuard Config.ifqBound = true := by
    refine fetchGuard_eq_true.mpr ⟨?_, ?_⟩
    · obtain ⟨hq | hq, -⟩ := hq4 <;> simp [hq, hifq]
    · rw [hin4.size, hq4.2]
      exact hlt
  have hmoves := (fetchToDispatch_eases h.inv4.shape.2.1 h.fatal4 h.run5 h.fatal5).2 hguard
  exact (hdispatch.1.trans_moves hin4 hmoves).trans_eases etick

/-! ### The run -/

/-- The sum of the loads of the records of the trace. -/
def State.totalLoad (s : State) : Nat := ∑ i ∈ Finset.Icc 1 s.size, s.load i

theorem totalLoad_lt {s t : State} (hin : SameInputs s t) (heases : Eases s t) (hmoves : Moves s t) :
    t.totalLoad < s.totalLoad := by
  obtain ⟨i, h1, hi, hlt⟩ := hmoves
  rw [State.totalLoad, State.totalLoad, hin.size]
  exact Finset.sum_lt_sum (fun j _ => heases j) ⟨i, Finset.mem_Icc.mpr ⟨h1, hi⟩, hlt⟩

theorem SameInputs.hasSlots {s t : State} (hin : SameInputs s t) (h : s.HasSlots) : t.HasSlots := by
  obtain ⟨-, -, -, h1, h2, h3, h4⟩ := hin
  simp only [State.HasSlots, ← List.length_pos_iff_ne_nil] at h ⊢
  intro g
  have hg := h g
  cases g
  · exact ⟨h1 ▸ hg.1, h3 ▸ hg.2⟩
  · exact ⟨h2 ▸ hg.1, h4 ▸ hg.2⟩

theorem hasSlots_resetWith {p : Config.Params} (h : p.wellFormed = true) (trace : List TraceWord) :
    (State.resetWith p trace).HasSlots := by
  simp only [Config.Params.wellFormed, Bool.and_eq_true, decide_eq_true_eq] at h
  obtain ⟨⟨⟨⟨⟨h1, h2⟩, h3⟩, h4⟩, -⟩, -⟩ := h
  intro g
  cases g <;> simp [State.stations, State.units, State.resetWith] <;> omega

/-- A step of a run that is not done lowers the sum of the loads. -/
theorem WellRun.totalLoad_lt {s t : State} (h : WellRun s) (hslots : s.HasSlots) (hdone : s.done = false)
    (ht : Machine.step s = .next t) : t.totalLoad < s.totalLoad := by
  have hended : s.ended = false := by rw [State.ended, hdone, Bool.false_and]
  have hcycle := ht
  rw [step_of_running h.fatal hended] at hcycle
  obtain ⟨s2, s4, s5, htrace, rfl⟩ := cycleWith_trace h.inv hcycle (h.step ht).fatal
  obtain ⟨e2, e3, e4, e5⟩ := htrace.eases
  have heases := ((((cdbToRetire_eases s).trans e2).trans e3).trans e4).trans (e5.trans (tick_eases s5))
  exact Machine.totalLoad_lt (stepWith_sameInputs ht) heases (htrace.moves h hslots hdone)

/-- A state in which nothing is left is idle. -/
theorem idle_of_done {s : State} (hfatal : s.fatal = none) (h : s.done = true) : s.Idle := by
  obtain ⟨hint, hfp, huint, hufp, hifq, hcdb, -⟩ := (terminationPredicate s).mp h
  have free {l : List Ref} (hl : ∀ r ∈ l, r = none) : occupants l = [] :=
    occupants_eq_nil fun i hi => by cases hl _ hi
  refine ⟨hfatal, fun g => ?_, fun g => ?_, List.length_eq_zero_iff.mp hifq, hcdb⟩
  · cases g
    · exact free hint
    · exact free hfp
  · cases g
    · exact free huint
    · exact free hufp

/-- Where nothing is left the run ends, at the latest after one cycle. -/
theorem ends_of_done {s : State} (hfatal : s.fatal = none) (h : s.done = true) (b : Nat) :
    ∃ n t, runSteps b n s = .next t ∧ t.fatal = none ∧ t.ended = true := by
  cases hended : s.ended with
  | true => exact ⟨0, s, rfl, hfatal, hended⟩
  | false =>
    have hidle := idle_of_done hfatal h
    obtain ⟨-, -, -, hend⟩ := done_slots h
    have hstep : stepWith b s = .next s.tick := by
      simp only [stepWith, hfatal, hended, Bool.false_eq_true, if_false]
      exact hidle.cycleWith hend b
    have hcycle : s.cycle = 1 := by
      rw [State.ended, h, Bool.true_and] at hended
      simpa [Config.cycleInit] using hended
    have hdone : s.tick.done = true := h
    refine ⟨1, s.tick, by rw [runSteps, hstep]; rfl, hfatal, ?_⟩
    rw [State.ended, hdone, State.tick, hcycle]
    rfl

/-- By induction on the sum of the loads. -/
theorem WellRun.terminates {s : State} (h : WellRun s) (hslots : s.HasSlots) :
    ∃ n t, runSteps Config.ifqBound n s = .next t ∧ t.fatal = none ∧ t.ended = true := by
  induction hload : s.totalLoad using Nat.strong_induction_on generalizing s with
  | _ load ih =>
    cases hdone : s.done with
    | true => exact ends_of_done h.fatal hdone _
    | false =>
      obtain ⟨u, hu⟩ := stepWith_answers (decodes_of_traceOk h.traceOk) h.fatal Config.ifqBound
      have hlt := h.totalLoad_lt hslots hdone hu
      obtain ⟨n, t, hrun, ht⟩ := ih _ (hload ▸ hlt) (h.step hu) ((stepWith_sameInputs hu).hasSlots hslots) rfl
      exact ⟨n + 1, t, by rw [runSteps, hu]; exact hrun, ht⟩

/-- Settles O56. -/
theorem wellFormedTraceTerminates : Obligations.WellFormedTraceTerminates := fun _ trace hp htrace =>
  (wellRun_resetWith htrace).terminates (hasSlots_resetWith hp trace)

end Sys2Proof.Machine
end

section

/-! # Proofs: the unobstructed timelines (spec/40_operation_classes.md R109)

A record that arrives at an idle machine is alone in it: it goes from the queue to a station, a unit and the bus, or
leaves earlier. `Lone` says where it is, and each lemma below is one cycle of its way. -/

namespace Sys2Proof.Machine

/-- Where a record can be that is alone in the machine. -/
inductive Spot where
  | queue
  | station (g : Group)
  | unit (g : Group)
  | bus
  | gone

/-- The queue that holds record `w` at that spot. -/
def Spot.ifq (w : Nat) : Spot → List Nat
  | .queue => [w]
  | _ => []

/-- The occupants of the stations: a record in a unit keeps its station (R164). -/
def Spot.stations (w : Nat) : Spot → Group → List Nat
  | .station g, k | .unit g, k => if k = g then [w] else []
  | _, _ => []

def Spot.units (w : Nat) : Spot → Group → List Nat
  | .unit g, k => if k = g then [w] else []
  | _, _ => []

def Spot.cdb (w : Nat) : Spot → Ref
  | .bus => some w
  | _ => none

/-- In cycle `c` record `w`, the last of the trace, has instruction `i` and mutable fields `r`, and is alone in the
machine at spot `p`. -/
structure Lone (w : Nat) (i : Instr) (c : Nat) (r : RecordState) (p : Spot) (s : State) : Prop where
  fatal : s.fatal = none
  shape : s.ShapeInv
  slots : s.HasSlots
  cursor : s.fetchIndex = s.size
  size : s.size = w
  read : s.traceRead w = some (.ok i)
  cycle : s.cycle = c
  record : s.record w = r
  ifq : s.ifq = p.ifq w
  stations : ∀ g, occupants (s.stations g) = p.stations w g
  units : ∀ g, occupants (s.units g) = p.units w g
  cdb : s.cdb = p.cdb w

/-- Taking the only occupant out of the slots of its group empties them. -/
theorem occupants_cleared {w : Nat} {g k : Group} {l : List Ref} (hl : occupants l = if k = g then [w] else []) :
    occupants (if k = g then clearRef w l else l) = [] := by
  by_cases hk : k = g
  · rw [if_pos hk, occupants_clearRef, hl, if_pos hk]
    simp
  · rw [if_neg hk, hl, if_neg hk]

namespace Lone

variable {w c : Nat} {i : Instr} {r : RecordState} {p : Spot} {s : State}

theorem holds (h : Lone w i c r p s) : s.mem.holds w := by
  obtain ⟨hwf, -⟩ := h.shape
  exact (holds_iff_of_wf hwf w).mpr (le_size_of_traceRead h.read)

theorem classHas (h : Lone w i c r p s) (P : OpClass → Bool) : s.classHas P w = P i.cls := classHas_of_traceRead h.read P

/-- The record is in the stations its spot says, and nobody else is. -/
theorem mem_stations (h : Lone w i c r p s) {g : Group} {j : Nat} :
    some j ∈ s.stations g ↔ j ∈ p.stations w g := by
  rw [← h.stations, mem_occupants]

theorem mem_units (h : Lone w i c r p s) {g : Group} {j : Nat} : some j ∈ s.units g ↔ j ∈ p.units w g := by
  rw [← h.units, mem_occupants]

theorem eq_of_mem_stations (h : Lone w i c r p s) {g : Group} {j : Nat} (hj : some j ∈ s.stations g) : j = w := by
  have hmem := h.mem_stations.mp hj
  cases p <;> simp only [Spot.stations] at hmem <;> first | cases hmem | (split at hmem <;> simp_all)

theorem eq_of_mem_units (h : Lone w i c r p s) {g : Group} {j : Nat} (hj : some j ∈ s.units g) : j = w := by
  have hmem := h.mem_units.mp hj
  cases p <;> simp only [Spot.units] at hmem <;> first | cases hmem | (split at hmem <;> simp_all)

theorem group_of_mem_units {g k : Group} {j : Nat} (h : Lone w i c r (.unit g) s) (hj : some j ∈ s.units k) :
    k = g := by
  have hmem := h.mem_units.mp hj
  by_contra hk
  simp [Spot.units, hk] at hmem

/-- Until the record is gone the machine is not done. -/
theorem not_ended (h : Lone w i c r p s) (hp : p ≠ .gone) : s.ended = false := by
  have hdone : s.done = false := by
    by_contra hd
    obtain ⟨hstation, hifq, hcdb, -⟩ := done_slots (Bool.not_eq_false _ ▸ hd)
    have hq := h.ifq
    have hb := h.cdb
    cases p with
    | queue => rw [hifq] at hq; cases hq
    | station g => exact hstation w ⟨g, h.mem_stations.mpr (by simp [Spot.stations])⟩
    | unit g => exact hstation w ⟨g, h.mem_stations.mpr (by simp [Spot.stations])⟩
    | bus => rw [hcdb] at hb; cases hb
    | gone => exact hp rfl
  rw [State.ended, hdone, Bool.false_and]

theorem ifq_eq_nil (h : Lone w i c r p s) (hp : p ≠ .queue) : s.ifq = [] := by
  rw [h.ifq]
  cases p <;> first | rfl | exact absurd rfl hp

theorem cdb_eq_none (h : Lone w i c r p s) (hp : p ≠ .bus) : s.cdb = none := by
  rw [h.cdb]
  cases p <;> first | rfl | exact absurd rfl hp

theorem tick (h : Lone w i c r p s) : Lone w i (c + 1) r p s.tick where
  fatal := h.fatal
  shape := ⟨h.shape.1, h.shape.2.1, Nat.le_succ_of_le h.shape.2.2⟩
  slots g := by cases g; exacts [h.slots .int, h.slots .fp]
  cursor := h.cursor
  size := h.size
  read := h.read
  cycle := congrArg (· + 1) h.cycle
  record := h.record
  ifq := h.ifq
  stations g := by cases g; exacts [h.stations .int, h.stations .fp]
  units g := by cases g; exacts [h.units .int, h.units .fp]
  cdb := h.cdb

/-- With the trace read to its end and the queue empty, the fetch stage does nothing. -/
theorem step_eq {r' : RecordState} {p' : Spot} {t : State} (h : Lone w i c r p s) (hp : p ≠ .gone)
    (hstages : stagesBeforeFetch s = .next t) (ht : Lone w i c r' p' t) (hp' : p' ≠ .queue) :
    step s = .next t.tick := by
  have hguard : t.fetchGuard Config.ifqBound = false := by simp [State.fetchGuard, ht.cursor]
  have hpart : fetchPart Config.ifqBound t = .next t := by simp [fetchPart, hguard]
  have hstamp : stampHead t = t := by simp [stampHead, peek, ht.ifq_eq_nil hp']
  rw [step_of_stagesBeforeFetch h.fatal (h.not_ended hp) hstages ht.fatal, fetchToDispatch, hpart,
    thenStage_next_none ht.fatal, hstamp, thenStage_next_none ht.fatal]

/-! ### Stages that find nothing to do -/

theorem retire_eq (h : Lone w i c r p s) (hp : p ≠ .bus) : cdbToRetire s = s := by
  simp only [cdbToRetire, h.cdb_eq_none hp]

theorem executeToCdb_eq (h : Lone w i c r p s) (hp : ∀ g, p ≠ .unit g) : executeToCdb s = .next s := by
  refine executeToCdb_of_units_empty h.fatal fun g => ?_
  rw [h.units]
  cases p <;> first | rfl | exact absurd rfl (hp _)

/-- A record that has started does not start again. -/
theorem issueToExecute_eq (h : Lone w i c r p s) (hexec : r.tExec ≠ 0) : issueToExecute s = s := by
  refine issueToExecute_of_selectFor_eq_none fun g => selectFor_eq_none.mpr fun j hj => ?_
  by_contra heligible
  obtain ⟨-, -, h0, -⟩ := (eligibilityCondition s j).mp (Bool.not_eq_false _ ▸ heligible)
  rw [h.eq_of_mem_stations hj, h.record] at h0
  exact hexec h0

theorem issueToExecute_of_no_station (h : Lone w i c r p s) (hp : ∀ g, p.stations w g = []) : issueToExecute s = s :=
  issueToExecute_of_selectFor_eq_none fun g => selectFor_of_stations_empty ((h.stations g).trans (hp g))

/-- An issued record is not stamped again. -/
theorem dispatchToIssue_eq (h : Lone w i c r p s) (hp : p ≠ .queue) (hissue : r.tIssue ≠ 0) :
    dispatchToIssue s = .next s := by
  have hstamp : stampIssue s = s := stampIssue_eq_self fun j ⟨g, hj⟩ => by
    rw [h.eq_of_mem_stations hj, h.record]
    exact hissue
  rw [dispatchToIssue_of_ifq_nil h.fatal (h.ifq_eq_nil hp), hstamp]

/-- The stages after the second find nothing to do for a record that has started. -/
theorem stages_of_started {r' : RecordState} {p' : Spot} {t : State} (hstage : executeToCdb (cdbToRetire s) = .next t)
    (ht : Lone w i c r' p' t) (hp : p' ≠ .queue) (hissue : r'.tIssue ≠ 0) (hexec : r'.tExec ≠ 0) :
    stagesBeforeFetch s = .next t := by
  rw [stagesBeforeFetch, hstage, thenStage_next_none ht.fatal, ht.issueToExecute_eq hexec,
    ht.dispatchToIssue_eq hp hissue]

/-! ### One cycle each -/

/-- What the stages keep of a lone record. -/
theorem of_sameInputs {r' : RecordState} {p' : Spot} {t : State} (h : Lone w i c r p s) (hin : SameInputs s t)
    (hfatal : t.fatal = s.fatal) (hvisit : t.visit = s.visit) (hcycle : t.cycle = s.cycle)
    (hcursor : t.fetchIndex = s.fetchIndex) (hrecord : t.record w = r') (hifq : t.ifq = p'.ifq w)
    (hstations : ∀ g, occupants (t.stations g) = p'.stations w g)
    (hunits : ∀ g, occupants (t.units g) = p'.units w g) (hcdb : t.cdb = p'.cdb w) : Lone w i c r' p' t where
  fatal := hfatal.trans h.fatal
  shape := by
    obtain ⟨hwf, hv, hc⟩ := h.shape
    exact ⟨by simpa [Memory.wf, hin.1, hin.2.1] using hwf, hvisit.trans hv, hcycle ▸ hc⟩
  slots := hin.hasSlots h.slots
  cursor := by rw [hcursor, hin.size, h.cursor]
  size := hin.size.trans h.size
  read := (hin.traceRead w).trans h.read
  cycle := hcycle.trans h.cycle
  record := hrecord
  ifq := hifq
  stations := hstations
  units := hunits
  cdb := hcdb

/-- A branch at the head is discarded (R141). -/
theorem discard (h : Lone w i c r .queue s) (hclass : i.cls.isBranch = true) :
    ∃ t, step s = .next t ∧ Lone w i (c + 1) r .gone t := by
  have hq : s.ifq = [w] := h.ifq
  have hv := h.shape.2.1
  have hleft : Lone w i c r .gone { s with ifq := [] } :=
    h.of_sameInputs (SameInputs.refl s) rfl rfl rfl rfl h.record rfl
      (fun g => by cases g; exacts [h.stations .int, h.stations .fp])
      (fun g => by cases g; exacts [h.units .int, h.units .fp]) h.cdb
  have hexec : exec i { s with visit := .dispatch } = .next { s with visit := .dispatch, ifq := [] } := by
    rw [exec_at_dispatch rfl, if_pos hclass]
    exact congrArg Host.Outcome.next (discardHead_eq_of_ifq_cons (s := { s with visit := .dispatch }) hq)
  have hdispatch := (dispatchRunsTheHeadInstruction s _ w i hv (by rw [hq]; rfl) h.read hexec).1 h.fatal
  have hback : ({ s with visit := .fetch, ifq := [] } : State) = { s with ifq := [] } := by rw [← hv]
  have hstamp : stampIssue { s with ifq := [] } = { s with ifq := [] } :=
    stampIssue_eq_self fun j ⟨g, hj⟩ => by cases hleft.mem_stations.mp hj
  have hstages : stagesBeforeFetch s = .next { s with ifq := [] } := by
    rw [stagesBeforeFetch, h.retire_eq nofun, h.executeToCdb_eq nofun, thenStage_next_none h.fatal,
      h.issueToExecute_of_no_station fun _ => rfl, hdispatch, hback, hstamp]
  exact ⟨_, h.step_eq nofun hstages hleft nofun, hleft.tick⟩

/-- The head takes the first station of its group (R143 to R148). -/
theorem dispatch {g : Group} (h : Lone w i c r .queue s) (hclass : g.takes i.cls = true) (hnew : r.tIssue = 0)
    (h0 : s.sourceProducer i.operands.src0 = none) (h1 : s.sourceProducer i.operands.src1 = none)
    (h2 : s.sourceProducer i.operands.src2 = none) :
    ∃ t, step s = .next t ∧ Lone w i (c + 1) (r.placed c none none none) (.station g) t := by
  have hq : s.ifq = [w] := h.ifq
  have hv := h.shape.2.1
  have hempty (k : Group) (j : Nat) : some j ∉ s.stations k := fun hj => by cases h.mem_stations.mp hj
  have hslot := exists_free (h.slots g).1 (hempty g)
  have hfree : firstFree (s.stations g) = some 0 := firstFree_eq_some.mpr ⟨hslot, nofun⟩
  have hrec := placeHead_record (o := i.operands) hq hfree (fun j ⟨k, hk⟩ => absurd hk (hempty k j)) h.holds
    (by rw [h.record]; exact hnew) w
  rw [if_pos rfl, h.cycle, h.record, h0, h1, h2] at hrec
  obtain ⟨hin, hifq, hcursor, hstations, hunits, hcdb, hcycle, hvisit, -⟩ :=
    placeHead_frame (o := i.operands) hq hfree h.holds
  have hfatal : (s.placeHead g i.operands).fatal = s.fatal :=
    (stampIssue_fatal _).trans (allocate_fatal s g i.operands)
  have hplaced : Lone w i c (r.placed c none none none) (.station g) (s.placeHead g i.operands) := by
    refine h.of_sameInputs hin hfatal hvisit hcycle hcursor hrec hifq (fun k => ?_) (fun k => ?_) ?_
    · rw [hstations]
      by_cases hk : k = g
      · subst hk
        rw [if_pos rfl, Spot.stations, if_pos rfl]
        have hperm := occupants_set_perm (x := w) hslot
        rw [h.stations] at hperm
        exact List.perm_singleton.mp hperm
      · rw [if_neg hk, Spot.stations, if_neg hk]
        exact h.stations k
    · rw [hunits]
      exact h.units k
    · rw [hcdb]
      exact h.cdb
  have hexec : exec i { s with visit := .dispatch } = .next { s.allocate g i.operands with visit := .dispatch } := by
    rw [exec_eq_allocate (g := g) rfl (by rintro rfl; exact hclass) (by rintro rfl; exact hclass), allocate_withVisit]
  have hdispatch := (dispatchRunsTheHeadInstruction s _ w i hv (by rw [hq]; rfl) h.read hexec).1
    ((allocate_fatal ..).trans h.fatal)
  have hback : ({ s.allocate g i.operands with visit := .fetch } : State) = s.allocate g i.operands :=
    withVisit_eq_self ((allocate_visit ..).trans hv)
  have hstages : stagesBeforeFetch s = .next (s.placeHead g i.operands) := by
    rw [stagesBeforeFetch, h.retire_eq nofun, h.executeToCdb_eq nofun, thenStage_next_none h.fatal,
      h.issueToExecute_of_no_station fun _ => rfl, hdispatch, hback]
    rfl
  exact ⟨_, h.step_eq nofun hstages hplaced nofun, hplaced.tick⟩

/-- The record is selected for the first unit of its group, and nobody after it. -/
theorem issueGroup_eq {g : Group} (h : Lone w i c r (.station g) s) (heligible : s.eligible w = true) :
    issueGroup g s = s.assignUnit g 0 w ∧ Lone w i c { r with tExec := c } (.unit g) (s.assignUnit g 0 w) := by
  have hstation : some w ∈ s.stations g := h.mem_stations.mpr (by simp [Spot.stations])
  have hempty (k : Group) (j : Nat) : some j ∉ s.units k := fun hj => by cases h.mem_units.mp hj
  have hslot := exists_free (h.slots g).2 (hempty g)
  have hselect : s.selectFor g = some w :=
    selectFor_eq_some.mpr ⟨⟨hstation, heligible⟩, fun j hj _ => (h.eq_of_mem_stations hj).ge⟩
  have hstarted : Lone w i c { r with tExec := c } (.unit g) (s.assignUnit g 0 w) := by
    refine h.of_sameInputs (assignUnit_sameInputs ..) (assignUnit_fatal ..) (assignUnit_visit ..) (assignUnit_cycle ..)
      (assignUnit_fetchIndex ..) ?_ ((assignUnit_ifq ..).trans h.ifq) (fun k => ?_) (fun k => ?_)
      ((assignUnit_cdb ..).trans h.cdb)
    · rw [assignUnit_record_self h.holds, h.record, h.cycle]
    · rw [assignUnit_stations]
      exact h.stations k
    · rw [assignUnit_units]
      by_cases hk : k = g
      · subst hk
        rw [if_pos rfl, Spot.units, if_pos rfl]
        have hperm := occupants_set_perm (x := w) hslot
        rw [h.units] at hperm
        exact List.perm_singleton.mp hperm
      · rw [if_neg hk, Spot.units, if_neg hk]
        exact h.units k
  have hc : c ≠ 0 := h.cycle ▸ Nat.ne_of_gt h.shape.2.2
  have hnobody : (s.assignUnit g 0 w).selectFor g = none := by
    refine selectFor_eq_none.mpr fun j hj => ?_
    by_contra he
    obtain ⟨-, -, hnew, -⟩ := (eligibilityCondition _ j).mp (Bool.not_eq_false _ ▸ he)
    rw [hstarted.eq_of_mem_stations hj, hstarted.record] at hnew
    exact hc hnew
  refine ⟨?_, hstarted⟩
  obtain ⟨n, hn⟩ := Nat.exists_eq_succ_of_ne_zero (List.length_pos_iff_ne_nil.mpr (h.slots g).2).ne'
  unfold issueGroup
  rw [hn, List.range_succ_eq_map, List.foldl_cons, issueSlot_eq_assignUnit hslot hselect]
  generalize List.map Nat.succ (List.range n) = l
  induction l with
  | nil => rfl
  | cons k l ih => rw [List.foldl_cons, issueSlot_eq_self_of_selectFor_eq_none hnobody, ih]

/-- The record starts in the first unit of its group (R163, R164). -/
theorem start {g : Group} (h : Lone w i c r (.station g) s) (hissue : r.tIssue ≠ 0) (hpast : r.tIssue < c)
    (hnew : r.tExec = 0) (hdeps : r.deps = []) :
    ∃ t, step s = .next t ∧ Lone w i (c + 1) { r with tExec := c } (.unit g) t := by
  have heligible : s.eligible w = true := by
    rw [eligibilityCondition, h.record, h.cycle, hdeps]
    exact ⟨hissue, hpast, hnew, nofun⟩
  obtain ⟨hgroup, hstarted⟩ := h.issueGroup_eq heligible
  have hother {u : State} {r' : RecordState} {p' : Spot} (hu : Lone w i c r' p' u) {k : Group}
      (hk : p'.stations w k = []) :
      issueGroup k u = u :=
    issueGroup_of_selectFor_eq_none (selectFor_of_stations_empty ((hu.stations k).trans hk))
  have hissueStage : issueToExecute s = s.assignUnit g 0 w := by
    unfold issueToExecute
    cases g with
    | int => rw [hgroup, hother hstarted (k := .fp) rfl]
    | fp => rw [hother h (k := .int) rfl, hgroup]
  have hstages : stagesBeforeFetch s = .next (s.assignUnit g 0 w) := by
    rw [stagesBeforeFetch, h.retire_eq nofun, h.executeToCdb_eq nofun, thenStage_next_none h.fatal, hissueStage,
      hstarted.dispatchToIssue_eq nofun hissue]
  exact ⟨_, h.step_eq nofun hstages hstarted nofun, hstarted.tick⟩

/-- The candidates are among the occupants of the units. -/
theorem mem_candidates_iff {g : Group} (h : Lone w i c r (.unit g) s) {j : Nat} :
    j ∈ s.candidates ↔ j = w ∧ r.tExec + latency g ≤ c ∧ i.cls.writesResult = true := by
  have hunit : some w ∈ s.units g := h.mem_units.mpr (by simp [Spot.units])
  have hfin (k : Group) : s.finished k w = true ↔ r.tExec + latency k ≤ c := by
    rw [State.finished, h.record, h.cycle, decide_eq_true_eq]
  rw [mem_candidates]
  constructor
  · rintro ⟨k, hj, hjfin, hwrites⟩
    obtain rfl := h.eq_of_mem_units hj
    obtain rfl := h.group_of_mem_units hj
    exact ⟨rfl, (hfin k).mp hjfin, (h.classHas _).symm.trans hwrites⟩
  · rintro ⟨rfl, hlat, hwrites⟩
    exact ⟨g, hunit, (hfin g).mpr hlat, (h.classHas _).trans hwrites⟩

/-- Completion does nothing unless the record has finished and writes no result. -/
theorem completeGroup_eq {g : Group} (h : Lone w i c r (.unit g) s)
    (hstays : c < r.tExec + latency g ∨ i.cls.writesResult = true) (k : Group) : completeGroup k s = .next s := by
  refine completeGroup_of_slots h.fatal fun n => ?_
  obtain ⟨-, e⟩ | ⟨j, hj, hfin, e⟩ := completeSlot_cases k n s
  · exact e
  have hmem := List.mem_of_getElem? hj
  obtain rfl := h.eq_of_mem_units hmem
  obtain rfl := h.group_of_mem_units hmem
  rw [State.finished, h.record, h.cycle, decide_eq_true_eq] at hfin
  have hwrites := hstays.resolve_left (Nat.not_lt.mpr hfin)
  rw [e]
  refine visitRecord_eq_next.mpr (.inr ⟨i, { s with visit := .complete k j }, h.read, ?_, ?_⟩)
  · rw [exec_at_complete rfl, if_pos hwrites]
  · exact (withVisit_eq_self h.shape.2.1).symm

/-- The record computes on (R180). -/
theorem compute {g : Group} (h : Lone w i c r (.unit g) s) (hissue : r.tIssue ≠ 0) (hexec : r.tExec ≠ 0)
    (hlat : c < r.tExec + latency g) : ∃ t, step s = .next t ∧ Lone w i (c + 1) r (.unit g) t := by
  have hnone : s.candidates = [] := List.eq_nil_iff_forall_not_mem.mpr fun j hj => by
    obtain ⟨-, hfin, -⟩ := h.mem_candidates_iff.mp hj
    omega
  have hstage : executeToCdb (cdbToRetire s) = .next s := by
    obtain ⟨-, harb⟩ | ⟨j, hj, -⟩ := arbitrate_eq s
    · rw [h.retire_eq nofun, executeToCdb, h.completeGroup_eq (.inl hlat), thenStage_next_none h.fatal,
        h.completeGroup_eq (.inl hlat), thenStage_next_none h.fatal, harb]
    · rw [hnone] at hj
      cases hj
  exact ⟨_, h.step_eq nofun (stages_of_started hstage h nofun hissue hexec) h nofun, h.tick⟩

/-- A finished result writer wins the bus at once (R184, R185). -/
theorem broadcast {g : Group} (h : Lone w i c r (.unit g) s) (hclass : g.takes i.cls = true)
    (hwrites : i.cls.writesResult = true) (hissue : r.tIssue ≠ 0) (hexec : r.tExec ≠ 0)
    (hlat : r.tExec + latency g ≤ c) : ∃ t, step s = .next t ∧ Lone w i (c + 1) { r with tCdb := c } .bus t := by
  have hgroup : s.groupOf w = g := by
    have hfp := Group.takes_isFp g i.cls hclass
    rw [State.groupOf, h.classHas]
    cases g <;> simp_all
  have hbus : Lone w i c { r with tCdb := c } .bus (s.broadcast g w) := by
    refine h.of_sameInputs (broadcast_sameInputs ..) (broadcast_fatal ..) (broadcast_visit ..) (broadcast_cycle ..)
      (broadcast_fetchIndex ..) ?_ ((broadcast_ifq ..).trans h.ifq) (fun k => ?_) (fun k => ?_) (broadcast_cdb ..)
    · rw [broadcast_record_self h.holds, h.record, h.cycle]
    · rw [broadcast_stations]
      exact occupants_cleared (h.stations k)
    · rw [broadcast_units]
      exact occupants_cleared (h.units k)
  have hstage : executeToCdb (cdbToRetire s) = .next (s.broadcast g w) := by
    obtain ⟨hnil, -⟩ | ⟨j, hj, -, harb⟩ := arbitrate_eq s
    · have hcand := h.mem_candidates_iff.mpr ⟨rfl, hlat, hwrites⟩
      rw [hnil] at hcand
      cases hcand
    · obtain ⟨rfl, -⟩ := h.mem_candidates_iff.mp hj
      rw [h.retire_eq nofun, executeToCdb, h.completeGroup_eq (.inr hwrites), thenStage_next_none h.fatal,
        h.completeGroup_eq (.inr hwrites), thenStage_next_none h.fatal, harb, hgroup]
      exact congrArg Host.Outcome.next (withVisit_eq_self hbus.shape.2.1)
  exact ⟨_, h.step_eq nofun (stages_of_started hstage hbus nofun hissue hexec) hbus nofun, hbus.tick⟩

/-- Where the only occupant of the units has finished and writes no result, completion in its group releases it. -/
theorem completeGroup_eq_release {g : Group} (h : Lone w i c r (.unit g) s) (hclass : i.cls.writesResult = false)
    (hlat : r.tExec + latency g ≤ c) : completeGroup g s = .next (s.releaseSlots g w) := by
  have hv : (s.releaseSlots g w).visit = .fetch := (releaseSlots_visit ..).trans h.shape.2.1
  have hfatal : (s.releaseSlots g w).fatal = none := (releaseSlots_fatal ..).trans h.fatal
  have hempty : occupants ((s.releaseSlots g w).units g) = [] := by
    rw [releaseSlots_units_self, occupants_clearRef, h.units, Spot.units, if_pos rfl]
    simp
  have slot (k : Nat) : completeSlot g k s = .next s ∨ completeSlot g k s = .next (s.releaseSlots g w) := by
    obtain ⟨-, e⟩ | ⟨j, hj, -, e⟩ := completeSlot_cases g k s
    · exact .inl e
    obtain rfl := h.eq_of_mem_units (List.mem_of_getElem? hj)
    refine .inr (e.trans (visitRecord_eq_next.mpr (.inr ⟨i, _, h.read, exec_at_complete rfl, ?_⟩)))
    rw [hclass, if_neg Bool.false_ne_true, ← withVisit_eq_self hv]
    cases g <;> rfl
  have slots (n : Nat) : forSlots (completeSlot g) n s = .next s ∨
      forSlots (completeSlot g) n s = .next (s.releaseSlots g w) := by
    induction n with
    | zero => exact .inl rfl
    | succ n ih =>
      rw [forSlots_succ]
      obtain e | e := ih <;> rw [e]
      · rw [thenStage_next_none h.fatal]
        exact slot n
      · rw [thenStage_next_none hfatal]
        exact .inr (completeSlot_of_units_empty hempty n)
  refine (slots _).resolve_left fun hnothing => ?_
  have hunit : some w ∈ s.units g := h.mem_units.mpr (by simp [Spot.units])
  have hfin : s.finished g w = true := by rw [State.finished, h.record, h.cycle, decide_eq_true_eq]; exact hlat
  have hgone := (completionReleasesExactlyTheFinishedNonWriters s s g hnothing h.fatal).1 w (mem_occupants.mpr hunit) hfin
    ((h.classHas _).trans hclass)
  exact hgone.1 (mem_occupants.mpr hunit)

/-- A finished store leaves its unit and its station at once (R182). -/
theorem release (h : Lone w i c r (.unit .int) s) (hclass : i.cls.writesResult = false) (hissue : r.tIssue ≠ 0)
    (hexec : r.tExec ≠ 0) (hlat : r.tExec + latency .int ≤ c) :
    ∃ t, step s = .next t ∧ Lone w i (c + 1) r .gone t := by
  have hgone : Lone w i c r .gone (s.releaseSlots .int w) := by
    refine h.of_sameInputs (releaseSlots_sameInputs ..) (releaseSlots_fatal ..) (releaseSlots_visit ..)
      (releaseSlots_cycle ..) (releaseSlots_fetchIndex ..) ((releaseSlots_record ..).trans h.record)
      ((releaseSlots_ifq ..).trans h.ifq) (fun k => ?_) (fun k => ?_) ((releaseSlots_cdb ..).trans h.cdb)
    · rw [releaseSlots_stations]
      exact occupants_cleared (h.stations k)
    · rw [releaseSlots_units]
      exact occupants_cleared (h.units k)
  have hfp : completeGroup .fp (s.releaseSlots .int w) = .next (s.releaseSlots .int w) :=
    completeGroup_of_slots hgone.fatal fun k => completeSlot_of_units_empty (hgone.units .fp) k
  have hstage : executeToCdb (cdbToRetire s) = .next (s.releaseSlots .int w) := by
    have hrest := hgone.executeToCdb_eq nofun
    have hint : completeGroup .int (s.releaseSlots .int w) = .next (s.releaseSlots .int w) :=
      completeGroup_of_slots hgone.fatal fun k => completeSlot_of_units_empty (hgone.units .int) k
    rw [executeToCdb, hint, thenStage_next_none hgone.fatal] at hrest
    rw [h.retire_eq nofun, executeToCdb, h.completeGroup_eq_release hclass hlat, thenStage_next_none hgone.fatal]
    exact hrest
  exact ⟨_, h.step_eq nofun (stages_of_started hstage hgone nofun hissue hexec) hgone nofun, hgone.tick⟩

/-- The bus is released in the cycle after the broadcast (R200). -/
theorem retire (h : Lone w i c r .bus s) (hissue : r.tIssue ≠ 0) (hexec : r.tExec ≠ 0) (hpast : r.tCdb < c) :
    ∃ t, step s = .next t ∧ Lone w i (c + 1) r .gone t := by
  have hcdb : s.cdb = some w := h.cdb
  obtain ⟨hmem, hcycle, hvisit, hfatal, hstations, hunits⟩ := cdbToRetire_frame s
  have hq := cdbToRetire_sameQueue s
  have hgone : Lone w i c r .gone (cdbToRetire s) := by
    refine h.of_sameInputs (cdbToRetire_sameInputs s) hfatal hvisit hcycle hq.2 ((record_of_mem_eq hmem w).trans h.record)
      (hq.1.trans h.ifq) (fun g => by rw [hstations]; exact h.stations g) (fun g => by rw [hunits]; exact h.units g) ?_
    obtain ⟨hnone | ⟨j, hj, hle⟩, -⟩ | ⟨_, -, -, e⟩ := cdbToRetire_cases s
    · rw [hcdb] at hnone
      cases hnone
    · rw [hcdb] at hj
      cases hj
      rw [h.record, h.cycle] at hle
      omega
    · rw [e]
      rfl
  exact ⟨_, h.step_eq nofun (stages_of_started (hgone.executeToCdb_eq nofun) hgone nofun hissue hexec) hgone nofun,
    hgone.tick⟩

/-- The run ends once the record is gone. -/
theorem returnedCount (h : Lone w i c r .gone s) (hc : c ≠ 1) : s.returnedCount = some c := by
  have hidle : s.Idle := ⟨h.fatal, h.stations, h.units, h.ifq, h.cdb⟩
  have hended : s.ended = true := by
    rw [State.ended, hidle.done h.cursor, h.cycle, Bool.true_and]
    simpa [Config.cycleInit] using hc
  rw [State.returnedCount, if_pos ⟨h.fatal, hended⟩, h.cycle]

end Lone

/-! ### The way through the machine -/

theorem ArrivesIdle.idle {s : State} {i : Instr} (h : ArrivesIdle s i) : s.Idle := by
  obtain ⟨hfatal, -, -, hifq, hcdb, hrsInt, hrsFp, hfuInt, hfuFp, -⟩ := h
  exact ⟨hfatal, fun g => by cases g; exacts [allFree_iff.mp hrsInt, allFree_iff.mp hrsFp],
    fun g => by cases g; exacts [allFree_iff.mp hfuInt, allFree_iff.mp hfuFp], hifq, hcdb⟩

theorem ArrivesIdle.read {s : State} {i : Instr} (h : ArrivesIdle s i) : s.traceRead s.size = some (.ok i) := by
  obtain ⟨-, -, -, -, -, -, -, -, -, -, -, -, -, -, hinstr, -⟩ := h
  rcases hr : s.traceRead s.size with _ | ⟨e | x⟩ <;> simp only [State.instrAt, hr] at hinstr <;> cases hinstr
  rfl

/-- The arriving record once it is fetched and stamped. -/
theorem ArrivesIdle.lone {s : State} {i : Instr} (h : ArrivesIdle s i) :
    Lone s.size i s.cycle { RecordState.zero with tDisp := s.cycle } .queue (stampHead (s.fetched 0)) := by
  have hidle := h.idle
  have hread := h.read
  obtain ⟨hfatal, hshape, hcursor, hifq, hcdb, -, -, -, -, hint, hfp, huint, hufp, hrecord, -⟩ := h
  obtain ⟨m, hm, -⟩ := stampHead_frame (s.fetched 0)
  have hin : SameInputs s (stampHead (s.fetched 0)) := stampHead_sameInputs (s.fetched 0)
  have hq : (s.fetched 0).ifq = [s.size] := by simp [State.fetched, hifq, hcursor]
  have hq' := stampHead_sameQueue (s.fetched 0)
  have hholds : (s.fetched 0).mem.holds s.size := (holds_iff_of_wf hshape.1 s.size).mpr (le_size_of_traceRead hread)
  have hzero : (s.fetched 0).record s.size = RecordState.zero := hrecord
  have hrec := stampHead_record (s.fetched 0) s.size
  rw [if_pos ⟨by rw [hq]; rfl, hholds, by rw [hzero]; rfl⟩, hzero] at hrec
  exact
    { fatal := (stampHead_fatal _).trans hfatal
      shape := by
        obtain ⟨hwf, hv, hc⟩ := hshape
        refine ⟨by simpa [Memory.wf, hin.1, hin.2.1] using hwf, ?_, ?_⟩
        · rw [hm]; exact hv
        · rw [hm]; exact hc
      slots := hin.hasSlots fun g => by cases g; exacts [⟨hint, huint⟩, ⟨hfp, hufp⟩]
      cursor := by rw [hq'.2, hin.size]; exact hcursor
      size := hin.size
      read := (hin.traceRead _).trans hread
      cycle := by rw [hm]; rfl
      record := hrec
      ifq := hq'.1.trans hq
      stations := fun g => by rw [hm]; cases g; exacts [hidle.stations .int, hidle.stations .fp]
      units := fun g => by rw [hm]; cases g; exacts [hidle.units .int, hidle.units .fp]
      cdb := by rw [hm]; exact hcdb }

/-- The first cycle: the record is fetched and, being the head, stamped (R127, R130). -/
theorem ArrivesIdle.fetched {s : State} {i : Instr} (h : ArrivesIdle s i) (hclass : i.cls.isTrap = false) :
    ∃ t, step s = .next t ∧ t.mapTable = s.mapTable ∧
      Lone s.size i (s.cycle + 1) { RecordState.zero with tDisp := s.cycle } .queue t := by
  have hstamped := h.lone
  have hidle := h.idle
  have hread := h.read
  obtain ⟨hfatal, ⟨-, hv, -⟩, hcursor, hifq, -⟩ := h
  have hended : s.ended = false := by
    have hdone : s.done = false := by
      by_contra hd
      obtain ⟨-, -, -, hend⟩ := done_slots (Bool.not_eq_false _ ▸ hd)
      omega
    rw [State.ended, hdone, Bool.false_and]
  obtain ⟨n, -, hpart⟩ := fetchPart_of_guard (b := Config.ifqBound) (s := s)
    (fetchGuard_eq_true.mpr ⟨by simp [hifq], by omega⟩)
  rw [fetchLoop_of_not_trap hv hfatal (hcursor ▸ hread) hclass] at hpart
  have hfatal' : (s.fetched 0).fatal = none := hfatal
  obtain ⟨m, hm, -⟩ := stampHead_frame (s.fetched 0)
  refine ⟨(stampHead (s.fetched 0)).tick, ?_, by rw [hm]; rfl, hstamped.tick⟩
  rw [step_of_stagesBeforeFetch hfatal hended hidle.stagesBeforeFetch hfatal, fetchToDispatch, hpart,
    thenStage_next_none hfatal', thenStage_next_none hstamped.fatal]

theorem runSteps_of_step {n : Nat} {s t : State} (h : step s = .next t) :
    runSteps Config.ifqBound (n + 1) s = runSteps Config.ifqBound n t := by
  have h' : stepWith Config.ifqBound s = .next t := h
  rw [runSteps, h']

theorem sourceProducer_of_mapTable {s t : State} (h : t.mapTable = s.mapTable) (x : RegId) :
    t.sourceProducer x = s.sourceProducer x := by
  cases x <;> simp only [State.sourceProducer, State.producer, h]

theorem OpClass.isBranch_not_trap (c : OpClass) (h : c.isBranch = true) : c.isTrap = false := by
  cases c <;> simp_all [OpClass.isBranch, OpClass.isTrap]

/-- Settles O59: fetched, then discarded. -/
theorem unobstructedTimelineOfABranch : Obligations.UnobstructedTimelineOfABranch := by
  intro s i h hclass
  obtain ⟨t, ht, -, hqueued⟩ := h.fetched (OpClass.isBranch_not_trap i.cls hclass)
  obtain ⟨u, hu, hgone⟩ := hqueued.discard hclass
  have hc : 1 ≤ s.cycle := by
    obtain ⟨-, ⟨-, -, hc⟩, -⟩ := h
    exact hc
  refine ⟨u, by rw [runSteps_of_step ht, runSteps_of_step hu]; rfl, hgone.returnedCount (by omega), ?_⟩
  rw [hgone.record]
  rfl

/-- The fields of a lone record that has started in the third cycle. -/
def RecordState.startedAt (f : Nat) : RecordState :=
  { RecordState.zero with tDisp := f, tIssue := f + 1, tExec := f + 2 }

/-- The first three cycles of a record of a station class: fetched, dispatched, started. -/
theorem ArrivesIdle.started {s : State} {i : Instr} {g : Group} (h : ArrivesIdle s i) (hclass : g.takes i.cls = true) :
    ∃ t, (∀ n, runSteps Config.ifqBound (n + 3) s = runSteps Config.ifqBound n t) ∧
      Lone s.size i (s.cycle + 3) (.startedAt s.cycle) (.unit g) t := by
  obtain ⟨t1, h1, hmap, hqueued⟩ := h.fetched (g.takes_not_trap i.cls hclass)
  obtain ⟨-, ⟨-, -, hc⟩, -, -, -, -, -, -, -, -, -, -, -, -, -, hsrc0, hsrc1, hsrc2⟩ := h
  have hsrc (x : RegId) := sourceProducer_of_mapTable hmap x
  obtain ⟨t2, h2, hstation⟩ := hqueued.dispatch hclass rfl ((hsrc _).trans hsrc0) ((hsrc _).trans hsrc1)
    ((hsrc _).trans hsrc2)
  obtain ⟨t3, h3, hunit⟩ := hstation.start (Nat.succ_ne_zero _) (Nat.lt_succ_self _) rfl rfl
  exact ⟨t3, fun n => by rw [runSteps_of_step h1, runSteps_of_step h2, runSteps_of_step h3], hunit⟩

/-- The cycles in which the record computes. -/
theorem Lone.computes {w c : Nat} {i : Instr} {r : RecordState} {g : Group} {s : State} (n : Nat)
    (h : Lone w i c r (.unit g) s) (hissue : r.tIssue ≠ 0) (hexec : r.tExec ≠ 0) (hlat : c + n ≤ r.tExec + latency g) :
    ∃ t, (∀ m, runSteps Config.ifqBound (m + n) s = runSteps Config.ifqBound m t) ∧
      Lone w i (c + n) r (.unit g) t := by
  induction n generalizing c s with
  | zero => exact ⟨s, fun _ => rfl, h⟩
  | succ n ih =>
    obtain ⟨t, ht, hnext⟩ := h.compute hissue hexec (by omega)
    obtain ⟨u, hu, hlast⟩ := ih hnext (by omega)
    refine ⟨u, fun m => ?_, by rwa [Nat.add_right_comm] at hlast⟩
    rw [← Nat.add_assoc, runSteps_of_step ht, hu]

/-- Settles O58: a store computes for three more cycles after its start and leaves in the fourth. -/
theorem unobstructedTimelineOfAStore : Obligations.UnobstructedTimelineOfAStore := by
  intro s i h hclass
  obtain ⟨t, ht, hunit⟩ := h.started (g := .int) (by rw [hclass]; rfl)
  obtain ⟨u, hu, hlast⟩ := hunit.computes 3 (Nat.succ_ne_zero _) (Nat.succ_ne_zero _) (Nat.le_refl _)
  obtain ⟨v, hv, hgone⟩ := hlast.release (by rw [hclass]; rfl) (Nat.succ_ne_zero _) (Nat.succ_ne_zero _) (Nat.le_refl _)
  refine ⟨v, ?_, hgone.returnedCount (by omega), ?_⟩
  · rw [ht 4, hu 1, runSteps_of_step hv]
    rfl
  · rw [hgone.record]
    rfl

theorem exists_group_of_writesResult : ∀ c : OpClass, c.writesResult = true →
    ∃ g : Group, g.takes c = true ∧ latency g = if c.isFp = true then 9 else 4
  | .icomp, _ | .load, _ => ⟨.int, rfl, rfl⟩
  | .fcomp, _ => ⟨.fp, rfl, rfl⟩

/-- Settles O57: a result writer computes until `L` cycles after its start, broadcasts, and is retired. -/
theorem unobstructedTimelineOfAResultWriter : Obligations.UnobstructedTimelineOfAResultWriter := by
  intro s i h hwrites L
  obtain ⟨g, hclass, hL⟩ := exists_group_of_writesResult i.cls hwrites
  have hL1 : L = latency g := hL.symm
  have hpos : 1 ≤ latency g := by cases g <;> decide
  obtain ⟨t, ht, hunit⟩ := h.started hclass
  obtain ⟨u, hu, hlast⟩ := hunit.computes (latency g - 1) (Nat.succ_ne_zero _) (Nat.succ_ne_zero _) (by
    simp only [RecordState.startedAt]
    omega)
  have hcycle : s.cycle + 3 + (latency g - 1) = s.cycle + 2 + latency g := by omega
  rw [hcycle] at hlast
  obtain ⟨v, hv, hbus⟩ := hlast.broadcast hclass hwrites (Nat.succ_ne_zero _) (Nat.succ_ne_zero _) (Nat.le_refl _)
  obtain ⟨x, hx, hgone⟩ := hbus.retire (Nat.succ_ne_zero _) (Nat.succ_ne_zero _) (Nat.lt_succ_self _)
  refine ⟨x, ?_, ?_, ?_⟩
  · have hsteps : 4 + L = 2 + (latency g - 1) + 3 := by omega
    rw [hsteps, ht, hu, runSteps_of_step hv, runSteps_of_step hx]
    rfl
  · have hcount : s.cycle + 4 + L = s.cycle + 2 + latency g + 1 + 1 := by omega
    rw [hcount]
    exact hgone.returnedCount (by omega)
  · rw [hgone.record, hL1]
    rfl

end Sys2Proof.Machine
end
